-- ==== Sys2Proof/Word.lean ====
section
/-!
DEFINITION. The word types of the GSM7 block and their plainest arithmetic (spec/00_scope.md R7, R8).
-/

namespace Sys2Proof

/-- An octet: 8 bits, bit 0 the least significant (R7). -/
abbrev Byte := BitVec 8

/-- A septet: 7 bits, bit 0 the least significant (R7). -/
abbrev Septet := BitVec 7

/-- A Unicode code point, 21 bits, unsigned (R32, R88). -/
abbrev CodePoint := BitVec 21

end Sys2Proof
end

