-- ==== Sys2Proof/Syntax.lean ====
section
/-!
DEFINITION. The commands of the GSM7 block (spec/30_encoding.md R80, R81, R85) and what a host does with them.
-/

namespace Sys2Proof

/-- The four units, in the order of their numbers 0 to 3 (spec/00_scope.md R2). -/
inductive UnitId where
  | dec | enc | pack | unpack
deriving DecidableEq, Repr

/-- The nine commands, one constructor per row of the command table (R80). The XFORM operands DCAP, SLEN, SRC and DST
travel beside the command word (R81) and stand in `Operands`. Every term is a command of the table: a width that could
be wrong is in the type, so an instruction has no ill-formed term. -/
inductive Instr where
  /-- XFORM.DEC (R140). -/
  | xformDec (final : Bool)
  /-- XFORM.ENC (R160). -/
  | xformEnc (final : Bool)
  /-- XFORM.PACK (R200). -/
  | xformPack (final : Bool)
  /-- XFORM.UNPACK (R220). -/
  | xformUnpack (final : Bool)
  /-- RESET.DEC (R147). -/
  | resetDec
  /-- RESET.ENC (R172). -/
  | resetEnc
  /-- RESET.PACK (R207). -/
  | resetPack
  /-- RESET.UNPACK (R227). -/
  | resetUnpack
  /-- SETREPL (R173) with its immediate (R85). -/
  | setRepl (imm8 : Byte)
deriving DecidableEq, Repr

/-- The unit a command is addressed to (R80); SETREPL is the encoder's. -/
def Instr.unit : Instr → UnitId
  | .xformDec _    => .dec
  | .xformEnc _    => .enc
  | .xformPack _   => .pack
  | .xformUnpack _ => .unpack
  | .resetDec      => .dec
  | .resetEnc      => .enc
  | .resetPack     => .pack
  | .resetUnpack   => .unpack
  | .setRepl _     => .enc

/-- The operands of an XFORM command (R81): `slen` bytes of SRC from address `srcAt` and `dcap` bytes of DST from address
`dstAt`. The addresses are the model's binding (R59 fixes none; DESIGN CHOICE, log 3, unsafe); the counts are
unbounded naturals, as D5 allows (DESIGN CHOICE, log 5, safe). -/
structure Operands where
  srcAt : Nat
  slen  : Nat
  dstAt : Nat
  dcap  : Nat
deriving DecidableEq, Repr

/-- The operands of a command that reaches no region (R50: RESET and SETREPL). -/
def Operands.none : Operands := ⟨0, 0, 0, 0⟩

/-- A command as the host issues it: the bytes of the command word and its immediate (R80), and the XFORM operands. -/
structure Command where
  bytes : List Byte
  args  : Operands
deriving DecidableEq, Repr

/-- What the host does next (DESIGN CHOICE, log 1; unsafe: it is the model's realisation of the open BINDING). -/
inductive HostEvent where
  /-- The host issues a command (R110). -/
  | issue (c : Command)
  /-- The outstanding command of unit `u` returns to the host (R61). -/
  | ret (u : UnitId)
  /-- The host writes one byte of its own memory, where the regions lie (R50, R59). -/
  | write (a : Nat) (b : Byte)
  /-- Power-on reset (R290, R291). -/
  | powerOn
deriving DecidableEq, Repr

end Sys2Proof
end

