-- ==== Sys2Proof/Decode.lean ====
section
/-!
DEFINITION. Reading a command from its bytes and writing it back (spec/30_encoding.md R80, R83, R85). The decoder is total
on every list of bytes and says by name why it rejects one.
-/

namespace Sys2Proof

/-- Why the bytes are no command: each `reserved…` is a reserved word (R83); the others are a command cut short. -/
inductive DecodeError where
  /-- There is no command word. -/
  | noWord
  /-- The OP field is none of 1, 2, 3. -/
  | reservedOp
  /-- Bit 3, the field Z, is not 0. -/
  | reservedZ
  /-- RESET or SETREPL with FINAL = 1. -/
  | reservedFinal
  /-- SETREPL with UNIT other than 1. -/
  | reservedUnit
  /-- SETREPL without its IMM8 byte. -/
  | noImm8
deriving DecidableEq, Repr

/-- Bits 7:4 of a command word (R80). -/
def fieldOp (w : Byte) : BitVec 4 := w.extractLsb' 4 4

/-- Bit 3 of a command word (R80). -/
def fieldZ (w : Byte) : Bool := w.getLsbD 3

/-- Bit 2 of a command word (R80). -/
def fieldFinal (w : Byte) : Bool := w.getLsbD 2

/-- Bits 1:0 of a command word (R80). -/
def fieldUnit (w : Byte) : BitVec 2 := w.extractLsb' 0 2

/-- The unit a UNIT field names (R80). -/
def unitOfField (f : BitVec 2) : UnitId :=
  if f = 0#2 then .dec else if f = 1#2 then .enc else if f = 2#2 then .pack else .unpack

/-- The XFORM command of a unit. -/
def xformOf (u : UnitId) (final : Bool) : Instr :=
  match u with
  | .dec => .xformDec final
  | .enc => .xformEnc final
  | .pack => .xformPack final
  | .unpack => .xformUnpack final

/-- The RESET command of a unit. -/
def resetOf (u : UnitId) : Instr :=
  match u with
  | .dec => .resetDec
  | .enc => .resetEnc
  | .pack => .resetPack
  | .unpack => .resetUnpack

/-- The command at the head of a list of bytes and the bytes after it, or the name of what is wrong (R80, R83, R85). -/
def decode : List Byte → Except DecodeError (Instr × List Byte)
  | [] => .error .noWord
  | w :: rest =>
    if fieldOp w = 1#4 then
      if fieldZ w then .error .reservedZ
      else .ok (xformOf (unitOfField (fieldUnit w)) (fieldFinal w), rest)
    else if fieldOp w = 2#4 then
      if fieldZ w then .error .reservedZ
      else if fieldFinal w then .error .reservedFinal
      else .ok (resetOf (unitOfField (fieldUnit w)), rest)
    else if fieldOp w = 3#4 then
      if fieldZ w then .error .reservedZ
      else if fieldFinal w then .error .reservedFinal
      else if fieldUnit w ≠ 1#2 then .error .reservedUnit
      else match rest with
        | [] => .error .noImm8
        | imm8 :: rest' => .ok (.setRepl imm8, rest')
    else .error .reservedOp

/-- The UNIT field of a unit (R2, R80). -/
def unitField : UnitId → BitVec 2
  | .dec => 0#2
  | .enc => 1#2
  | .pack => 2#2
  | .unpack => 3#2

/-- A command word from its fields, Z = 0 (R80). -/
def commandWord (op : BitVec 4) (final : Bool) (u : UnitId) : Byte :=
  op ++ 0#1 ++ BitVec.ofBool final ++ unitField u

/-- The bytes of a command (R80, R85). -/
def encode : Instr → List Byte
  | .xformDec final    => [commandWord 1#4 final .dec]
  | .xformEnc final    => [commandWord 1#4 final .enc]
  | .xformPack final   => [commandWord 1#4 final .pack]
  | .xformUnpack final => [commandWord 1#4 final .unpack]
  | .resetDec          => [commandWord 2#4 false .dec]
  | .resetEnc          => [commandWord 2#4 false .enc]
  | .resetPack         => [commandWord 2#4 false .pack]
  | .resetUnpack       => [commandWord 2#4 false .unpack]
  | .setRepl imm8      => [commandWord 3#4 false .enc, imm8]

/-- The two bytes of the longest command, from its bits numbered as the command table numbers them: the first byte is
bits 7:0, the second bits 15:8, and every bit from `nbits` on is 0. -/
def tableBytes (nbits w : Nat) : List Byte :=
  [BitVec.ofNat 8 (w % 2 ^ nbits), BitVec.ofNat 8 (w % 2 ^ nbits / 256)]

/-- The command the decoder reads from the low `nbits` bits of `w`. -/
def decodeTableWord (nbits w : Nat) : Option Instr :=
  match decode (tableBytes nbits w) with
  | .ok (i, _) => some i
  | .error _ => none

end Sys2Proof
end

