-- ==== Sys2Proof/Config.lean ====
section
/-!
DEFINITION. What an implementation of the GSM7 block fixes at build time: the two constants of R6 and the shape of the four
table ROMs (spec/10_state.md R30 to R34, spec/30_encoding.md R90). The contents of the tables are OPEN parameters
(spec/00_scope.md R5); `Config.tables` stands for them and has no body. And the one free value of the model.
-/

namespace Sys2Proof

/-- The escape code (R6). -/
def Config.esc : Byte := 0x1B#8

/-- The default replacement byte, ASCII `?` (R6). -/
def Config.replDefault : Byte := 0x3F#8

/-- An entry of a decode table: a sequence of 1 to 3 bytes, emitted as stored (R30, R31, R90). -/
inductive DecodeEntry where
  | one   (a : Byte)
  | two   (a b : Byte)
  | three (a b c : Byte)
deriving DecidableEq, Repr, Inhabited

/-- An entry of ENCTAB: the GSM byte and its code point (R32). -/
structure EncPair where
  gsm : Byte
  cp  : CodePoint
deriving DecidableEq, Repr, Inhabited

/-- An entry of EXTTAB: the escape byte, the GSM byte and their code point (R33). -/
structure ExtTriple where
  esc : Byte
  gsm : Byte
  cp  : CodePoint
deriving DecidableEq, Repr, Inhabited

/-- The four table ROMs. BASEDEC is total on the 128 seven-bit codes (R30). ESCDEC is a sparse map from the whole
8-bit byte (R31), given by its pairs; the first pair of a key counts (DESIGN CHOICE, log 7; safe, every partial map
is such a list). ENCTAB and EXTTAB are sequences in index order (R32, R33); that ENCTAB is strictly ascending is a
condition on the table and is checked nowhere at run time (R34). -/
structure Tables where
  baseDec : Vector DecodeEntry 128
  escDec  : List (Byte × DecodeEntry)
  encTab  : List EncPair
  extTab  : List ExtTriple
deriving DecidableEq, Repr, Inhabited

/-- The build-time contents of the four tables, an OPEN parameter of the block (R5, D26): no body, so nothing can be
proved of its values. -/
opaque Config.tables : Tables

/-- The order in which the units' steps committed their writes to DST since the last time it mattered, one entry for each next
step of that unit: a free value, one for each time the question arises (`State.choices`; DESIGN CHOICE, log 9; safe). -/
opaque Config.writeOrder : Nat → List UnitId

end Sys2Proof
end

