-- ==== Sys2Proof/Machine/State.lean ====
section
/-!
DEFINITION. The state of the GSM7 block (spec/10_state.md R20 to R39), the interface its commands are issued through, and
the host's side of it. INVENTORY.md, heading State, lists every field with its rule and reset value.
-/

namespace Sys2Proof.Machine

/-- The machine stops with a fault: never, by R263 ("There is no fatal/unrecoverable error class in this core"). -/
inductive Fault where
  /-- Raised by `State.xform` for a command that would take more steps than the bound of R117 (`slen` + `dcap`). R117 says
  every command ends within it, so no command raises this; SAFE (a stop where the hardware would go on), log 18. -/
  | stepBound
deriving DecidableEq, Repr

/-- A use of the block without a meaning (R268): no result, no next state. -/
inductive Refusal where
  /-- `exec` answers it for a command without a meaning yet; no command of this model is such. SAFE. -/
  | notModelled (mnemonic : String)
  /-- refuse(reserved command), R83: raised by `step` when the issued word is none of the thirteen. SAFE. -/
  | reservedCommand
  /-- A command without its word or without its immediate byte: raised by `step`. SAFE, log 14. -/
  | truncatedCommand
  /-- refuse(decoder input byte >= 0x80), R146: raised by XFORM.DEC. SAFE. -/
  | decoderInput
  /-- refuse(regions), R58: SRC and DST of a command overlap, or SRC changes while the command is outstanding, by the
  host or by another unit's command (log 8). Raised by the XFORM commands and by a host write. SAFE. -/
  | regions
  /-- refuse(concurrent), R65: a command to a unit whose previous command has not returned. Raised by every command. SAFE. -/
  | concurrent
deriving DecidableEq, Repr

/-- STATUS of an XFORM command, the block's only flag (R29, R82). -/
inductive Status where
  | ok
  | destinationFull
deriving DecidableEq, Repr

/-- The results NDST, NSRC and STATUS of an XFORM command (R82). -/
structure Reply where
  ndst   : Nat
  nsrc   : Nat
  status : Status
deriving DecidableEq, Repr

/-- The command interface of one unit, as the host sees it. -/
inductive Link where
  /-- No command is outstanding: the unit accepts one. -/
  | idle
  /-- A command was issued with these operands and has not returned. Its writes to DST, in their order and step by step, are
  complete at the latest when it returns (R56, R61, R112); the steps listed here are not known to be so before. Its
  results wait with it (none for RESET and SETREPL, R29). -/
  | outstanding (args : Operands) (steps : List (List Host.Cell)) (reply : Option Reply)
deriving DecidableEq, Repr

/-- The four units' command interfaces. -/
structure Links where
  dec    : Link
  enc    : Link
  pack   : Link
  unpack : Link
deriving DecidableEq, Repr

/-- A command's return, as the host received it (R61, R82). -/
structure Return where
  unit  : UnitId
  args  : Operands
  reply : Option Reply
deriving DecidableEq, Repr

/-- The host's byte memory, in which the regions lie (DESIGN CHOICE, log 3): address and byte pairs, the addresses strictly
rising, no byte equal to `unwritten`. -/
abbrev Memory := List Host.Cell

/-- What an unlisted byte reads as (DESIGN CHOICE, log 4; unsafe). -/
def unwritten : Byte := 0#8

/-- The canonical form of a memory. -/
abbrev Memory.wf (m : Memory) : Prop :=
  m.Pairwise (fun x y => x.1 < y.1) ∧ ∀ x ∈ m, x.2 ≠ unwritten

/-- The state of one GSM7 block with its command interface and its host. -/
structure State where
  /-- PACK.CUR (R21). -/
  packCur   : BitVec 3
  /-- UNPK.CUR (R22). -/
  unpkCur   : BitVec 3
  /-- UNPK.CARRY (R23). -/
  unpkCarry : Septet
  /-- UNPK.PEND (R24). -/
  unpkPend  : Bool
  /-- ENC.REPL (R25). -/
  encRepl   : Byte
  /-- The table ROMs (R30 to R34), a parameter of the block that no command writes (log 6). -/
  rom       : Tables
  /-- The operands of the command being run (R81). -/
  port      : Operands
  /-- The units' outstanding commands (R65). -/
  links     : Links
  /-- The host's memory (R50). -/
  mem       : Memory
  /-- What the host does next, the oldest event first. -/
  host      : List HostEvent
  /-- What has returned to the host, the oldest return first. -/
  returns   : List Return
  /-- The model's own: how many free values the machine has used (log 9). -/
  choices   : Nat
deriving DecidableEq, Repr

/-- The machine right after power-on reset (R20, R291): every register at its reset value, the tables with their build-time
contents, the block idle; the host's side empty (log 15). -/
def State.reset : State where
  packCur   := 1#3
  unpkCur   := 1#3
  unpkCarry := 0#7
  unpkPend  := false
  encRepl   := Config.replDefault
  rom       := Config.tables
  port      := Operands.none
  links     := ⟨.idle, .idle, .idle, .idle⟩
  mem       := []
  host      := []
  returns   := []
  choices   := 0

end Sys2Proof.Machine
end

