-- ==== Sys2Proof/Machine/Ops.lean ====
section
/-!
DEFINITION. The named operations over the host's memory, the registers and the command interface, and the end of a command,
DestinationFull included (spec/60_exceptions.md R260 to R267).
-/

namespace Sys2Proof.Machine

/-- The byte at an address. -/
def Memory.read (m : Memory) (a : Nat) : Byte :=
  match m with
  | [] => unwritten
  | (k, v) :: m' => if k = a then v else Memory.read m' a

/-- The memory without its entry at an address. -/
def Memory.erase (m : Memory) (a : Nat) : Memory :=
  m.filter (fun x => x.1 != a)

/-- The memory with an entry put in its place by address. -/
def Memory.place (m : Memory) (a : Nat) (v : Byte) : Memory :=
  match m with
  | [] => [(a, v)]
  | (k, w) :: m' => if a < k then (a, v) :: (k, w) :: m' else (k, w) :: Memory.place m' a v

/-- The memory with one byte written, in canonical form. -/
def Memory.write (m : Memory) (a : Nat) (v : Byte) : Memory :=
  if v = unwritten then Memory.erase m a else Memory.place (Memory.erase m a) a v

/-- The `n` bytes from an address on, ascending (R54). -/
def Memory.readBytes (m : Memory) : Nat → Nat → List Byte
  | _, 0 => []
  | a, n + 1 => Memory.read m a :: Memory.readBytes m (a + 1) n

/-- Bytes written from an address on, each once, ascending (R56). -/
def Memory.writeBytes (m : Memory) : Nat → List Byte → Memory
  | _, [] => m
  | a, b :: bs => Memory.writeBytes (Memory.write m a b) (a + 1) bs

/-- Writes done in their order. -/
def Memory.writeCells (m : Memory) (cells : List Host.Cell) : Memory :=
  cells.foldl (fun m x => Memory.write m x.1 x.2) m

/-- The writes of bytes from an address on, ascending (R56). -/
def cellsFrom : Nat → List Byte → List Host.Cell
  | _, [] => []
  | a, b :: bs => (a, b) :: cellsFrom (a + 1) bs

/-- The writes of steps' outputs from an address on, step by step (R112). -/
def stepCells : Nat → List (List Byte) → List (List Host.Cell)
  | _, [] => []
  | a, bs :: outs => cellsFrom a bs :: stepCells (a + bs.length) outs

/-- PACK.CUR written. -/
def State.setPackCur (s : State) (c : BitVec 3) : State := { s with packCur := c }

/-- The unpacker's three registers written. -/
def State.setUnpk (s : State) (cur : BitVec 3) (carry : Septet) (pend : Bool) : State :=
  { s with unpkCur := cur, unpkCarry := carry, unpkPend := pend }

/-- ENC.REPL written. -/
def State.setEncRepl (s : State) (b : Byte) : State := { s with encRepl := b }

/-- The host's memory replaced. -/
def State.setMem (s : State) (m : Memory) : State := { s with mem := m }

/-- The operands of the command to be run. -/
def State.setPort (s : State) (o : Operands) : State := { s with port := o }

/-- The host's further events. -/
def State.setHost (s : State) (es : List HostEvent) : State := { s with host := es }

/-- The returns the host has received. -/
def State.setReturns (s : State) (rs : List Return) : State := { s with returns := rs }

/-- The number of free values used. -/
def State.setChoices (s : State) (n : Nat) : State := { s with choices := n }

/-- The command interface of a unit. -/
def Links.get (l : Links) (u : UnitId) : Link :=
  match u with
  | .dec => l.dec
  | .enc => l.enc
  | .pack => l.pack
  | .unpack => l.unpack

/-- The command interface of a unit replaced. -/
def Links.set (l : Links) (u : UnitId) (k : Link) : Links :=
  match u with
  | .dec => { l with dec := k }
  | .enc => { l with enc := k }
  | .pack => { l with pack := k }
  | .unpack => { l with unpack := k }

/-- The command interface of a unit in a state. -/
def State.link (s : State) (u : UnitId) : Link := s.links.get u

/-- The command interface of a unit replaced in a state. -/
def State.setLink (s : State) (u : UnitId) (k : Link) : State := { s with links := s.links.set u k }

/-- The four units, in the order of their numbers (R2). -/
def allUnits : List UnitId := [.dec, .enc, .pack, .unpack]

/-- A command on `u` has ended with these steps' writes to DST and these results, and waits to return (R61, R82). -/
def State.endCommand (s : State) (u : UnitId) (args : Operands) (steps : List (List Host.Cell)) (reply : Option Reply) :
    State :=
  s.setLink u (.outstanding args steps reply)

/-- The block's one exceptional condition, DestinationFull, taken (R260, R262, R266): nothing is saved and no mode changes;
the command ends, with the counts of the last committed step and STATUS = DestinationFull. -/
def State.raiseDestinationFull (s : State) (u : UnitId) (args : Operands) (steps : List (List Host.Cell))
    (ndst nsrc : Nat) : State :=
  s.endCommand u args steps (some ⟨ndst, nsrc, .destinationFull⟩)

/-- The steps of a unit's outstanding command whose writes are not known to be complete; an idle unit has none. -/
def Link.steps (l : Link) : List (List Host.Cell) :=
  match l with
  | .idle => []
  | .outstanding _ steps _ => steps

/-- The writes of those steps, in their order. -/
def Link.writes (l : Link) : List Host.Cell := l.steps.flatten

/-- The same command outstanding with the writes of its first step done. -/
def Link.rest (l : Link) : Link :=
  match l with
  | .idle => .idle
  | .outstanding args steps reply => .outstanding args steps.tail reply

/-- The next step of unit `u` commits its writes, if one is left: all of the step's at once (R112), in their order (R56), and the
steps in theirs (R60). -/
def State.advance (s : State) (u : UnitId) : State :=
  match (s.link u).steps with
  | [] => s
  | w :: _ => (s.setLink u (s.link u).rest).setMem (Memory.writeCells s.mem w)

/-- The units commit the writes of some of their steps, each unit in its order, in an interleaving that is a free value: no rule says when before
its return a write is done (R61; DESIGN CHOICE, log 9; safe). -/
def State.progress (s : State) : State :=
  ((Config.writeOrder s.choices).foldl State.advance s).setChoices (s.choices + 1)

/-- A command outstanding still has to write at one of the addresses of `cells`. -/
def State.contends (s : State) (cells : List Host.Cell) : Bool :=
  allUnits.any (fun u => (s.link u).writes.any (fun x => cells.any (fun y => y.1 == x.1)))

/-- What the host offers next after a command that consumed `nsrc` bytes of `src`: the unconsumed rest, then any new
input (R121 obligation (a), R267). The block has no return instruction; this is the return from DestinationFull. -/
def resumeInput (src : List Byte) (nsrc : Nat) (new : List Byte) : List Byte :=
  src.drop nsrc ++ new

end Sys2Proof.Machine
end

