-- ==== Sys2Proof/WellFormed.lean ====
section
/-!
DEFINITION. The well-formedness the spec asks for: of a command word (spec/30_encoding.md R80, R83), of the regions of a
command (spec/20_memory.md R58) and of the tables (spec/10_state.md R32, spec/70_reset_and_hazards.md R294). An `Instr` is
well formed by its type; the words it may come from are not.
-/

namespace Sys2Proof

/-- One of the thirteen defined command words: XFORM with or without FINAL, RESET, SETREPL (R83). -/
def commandWordOk (w : Byte) : Bool :=
  (0x10#8 ≤ w && w ≤ 0x17#8) || (0x20#8 ≤ w && w ≤ 0x23#8) || w == 0x31#8

/-- The `n` bytes from address `a` and the `m` bytes from address `b` share a byte. An empty region shares none. -/
def rangesOverlap (a n b m : Nat) : Bool :=
  decide (0 < n) && decide (0 < m) && decide (a < b + m) && decide (b < a + n)

/-- SRC and DST of one command share no byte (R58). -/
def Operands.disjoint (o : Operands) : Bool :=
  !rangesOverlap o.srcAt o.slen o.dstAt o.dcap

/-- ENCTAB is strictly ascending by code point, hence without duplicates (R32). -/
abbrev Tables.ascending (t : Tables) : Prop :=
  t.encTab.Pairwise (fun p q => p.cp < q.cp)

/-- The conditions the spec puts on the tables beyond their shape: ENCTAB ascending, of at most 128 entries, and the code
points of both encode tables at most 0x10FFFF (R32, R33, R294). -/
abbrev Tables.wf (t : Tables) : Prop :=
  t.ascending ∧ t.encTab.length ≤ 128 ∧
    (∀ p ∈ t.encTab, p.cp ≤ 0x10FFFF#21) ∧ (∀ x ∈ t.extTab, x.cp ≤ 0x10FFFF#21)

end Sys2Proof
end

