-- ==== Sys2Proof/Machine/Operands.lean ====
section
/-!
DEFINITION. The operand forms: the regions SRC and DST of an XFORM command (spec/20_memory.md R50 to R58, R65) and the
immediate of SETREPL (spec/30_encoding.md R85, spec/42_encoder.md R173).
-/

namespace Sys2Proof.Machine

/-- The operands of a unit's outstanding command; those of no region for an idle unit. -/
def Link.args (l : Link) : Operands :=
  match l with
  | .idle => Operands.none
  | .outstanding o _ _ => o

/-- A command of the unit is outstanding (R65). -/
def Link.busy (l : Link) : Bool :=
  match l with
  | .idle => false
  | .outstanding _ _ _ => true

/-- The address lies in the `n` bytes from `a`. -/
def inRange (x a n : Nat) : Bool := decide (a ≤ x) && decide (x < a + n)

/-- One of the writes changes a byte of SRC of a command with operands `o` (R58). -/
def changesSrc (m : Memory) (o : Operands) (cells : List Host.Cell) : Bool :=
  cells.any (fun x => inRange x.1 o.srcAt o.slen && Memory.read m x.1 != x.2)

/-- One of the writes changes SRC of a command outstanding (R58). -/
def State.changesOutstandingSrc (s : State) (cells : List Host.Cell) : Bool :=
  allUnits.any (fun u => changesSrc s.mem (s.link u).args cells)

/-- Why an XFORM command may not start on its regions, if so (R58): they share a byte, or a command outstanding still has to
write a byte of its SRC that this changes, which it may do while this command runs (log 8). -/
def State.regionRefusal (s : State) (o : Operands) : Option Refusal :=
  if !o.disjoint then some .regions
  else if allUnits.any (fun u => changesSrc s.mem o (s.link u).writes) then some .regions
  else none

/-- SRC of the command at the port, in stream order (R51, R54). -/
def State.srcBytes (s : State) : List Byte :=
  Memory.readBytes s.mem s.port.srcAt s.port.slen

/-- The writes of a command's output to DST: from its first byte on, each once, ascending, the rest of DST kept (R56). -/
def dstCells (o : Operands) (out : List Byte) : List Host.Cell := cellsFrom o.dstAt out

/-- The same writes, step by step, from the outputs of a command's steps (R112). -/
def dstSteps (o : Operands) (outs : List (List Byte)) : List (List Host.Cell) := stepCells o.dstAt outs

/-- The replacement byte an immediate selects: 0 selects the default, any other byte itself (R173). -/
def replacementOf (imm8 : Byte) : Byte :=
  if imm8 = 0#8 then Config.replDefault else imm8

end Sys2Proof.Machine
end

