-- ==== Sys2Proof/Machine/Transform.lean ====
section
/-!
DEFINITION. The contract every XFORM and RESET command obeys (spec/40_commands.md R110 to R118, R122): the one loop of steps
all units share, and the command around it. What a unit does in one iteration is its own `Pick` function.
-/

namespace Sys2Proof.Machine

/-- What one iteration of a unit's loop does (R113), on registers of type `σ`. -/
inductive Pick (σ : Type) where
  /-- No step can be selected: the input is exhausted or held. The command returns OK (R114, R115). -/
  | idle
  /-- A step is selected and its output does not fit: the command returns DestinationFull (R261). -/
  | full
  /-- The input has no meaning from here on (R146). -/
  | refuse
  /-- A step commits: bytes consumed, bytes written, registers after it (R112). -/
  | commit (used : Nat) (out : List Byte) (reg : σ)
deriving DecidableEq, Repr

/-- Why a command's loop ended. -/
inductive Stop where
  | ok
  | destinationFull
  | refuse
  /-- The bound of R117 was reached; it never is. -/
  | bound
deriving DecidableEq, Repr

/-- A command's run: nSrc, the bytes that each of its steps wrote, the registers, and why it ended (R111, R112). -/
structure Run (σ : Type) where
  used : Nat
  outs : List (List Byte)
  reg  : σ
  stop : Stop
deriving DecidableEq, Repr

/-- The bytes a run wrote; nDst is their number (R111). -/
def Run.out {σ : Type} (q : Run σ) : List Byte := q.outs.flatten

/-- The shared loop (R113), for at most `n` iterations, on the registers, the room left in DST (`dcap` - `nDst`) and the
unconsumed input (`src[nSrc..slen)`). -/
def runSteps {σ : Type} (pick : σ → Nat → List Byte → Pick σ) : Nat → σ → Nat → List Byte → Run σ
  | 0, r, _, _ => ⟨0, [], r, .bound⟩
  | n + 1, r, room, src =>
    match pick r room src with
    | .idle => ⟨0, [], r, .ok⟩
    | .full => ⟨0, [], r, .destinationFull⟩
    | .refuse => ⟨0, [], r, .refuse⟩
    | .commit used out r' =>
      let q := runSteps pick n r' (room - out.length) (src.drop used)
      ⟨used + q.used, out :: q.outs, q.reg, q.stop⟩

/-- A whole command's run. It takes at most `slen` + `dcap` steps (R117) and one iteration more to return. -/
def runUnit {σ : Type} (pick : σ → Nat → List Byte → Pick σ) (r : σ) (dcap : Nat) (src : List Byte) : Run σ :=
  runSteps pick (src.length + dcap + 1) r dcap src

/-- An XFORM command on unit `u` (R110, R111): refused while the unit has a command outstanding (R65), if its regions may not
be used, or if its output would change SRC of a command outstanding (R58, log 8); else it runs, the unit's registers are
what the last step left (`put`), and its writes to DST and its results wait for the return, at which they are complete
and visible (R61, log 2). A run that is refused has no effect at all (R268). Where several refusals apply, which is named
is the model's choice (R268 gives no order; DESIGN CHOICE, log 23, safe): first concurrent, then the command's own
regions, then its input, then the SRC of others. -/
def State.xform {σ : Type} (s : State) (u : UnitId) (pick : σ → Nat → List Byte → Pick σ) (r : σ)
    (put : State → σ → State) : Host.Outcome State Fault Refusal :=
  if (s.link u).busy then .refused .concurrent
  else match s.regionRefusal s.port with
    | some why => .refused why
    | none =>
      let q := runUnit pick r s.port.dcap s.srcBytes
      match q.stop with
      | .refuse => .refused .decoderInput
      | .bound => .fault .stepBound
      | .ok =>
        if s.changesOutstandingSrc (dstCells s.port q.out) then .refused .regions
        else .next ((put s q.reg).endCommand u s.port (dstSteps s.port q.outs) (some ⟨q.out.length, q.used, .ok⟩))
      | .destinationFull =>
        if s.changesOutstandingSrc (dstCells s.port q.out) then .refused .regions
        else .next ((put s q.reg).raiseDestinationFull u s.port (dstSteps s.port q.outs) q.out.length q.used)

/-- A command on unit `u` that reaches no region and returns no results (R50, R118, R173): refused while the unit has a
command outstanding (R65); else the registers change as `f` says. -/
def State.control (s : State) (u : UnitId) (f : State → State) : Host.Outcome State Fault Refusal :=
  if (s.link u).busy then .refused .concurrent
  else .next ((f s).endCommand u Operands.none [] none)

end Sys2Proof.Machine
end

