-- ==== Sys2Proof/Machine/Decoder.lean ====
section
/-!
DEFINITION. The GSM decoder, the character mapper's decode direction (spec/41_decoder.md R140 to R148).
-/

namespace Sys2Proof.Machine

/-- The bytes of a decode entry, as stored (R30, R90). -/
def entryBytes (e : DecodeEntry) : List Byte :=
  match e with
  | .one a => [a]
  | .two a b => [a, b]
  | .three a b c => [a, b, c]

/-- `BASEDEC[c]`, total on the 128 codes (R30). -/
def baseDecAt (t : Tables) (c : Septet) : DecodeEntry := t.baseDec[c.toNat]

/-- `ESCDEC(b)` for the whole byte `b`: an entry or a miss (R31). -/
def escDecAt (t : Tables) (b : Byte) : Option DecodeEntry :=
  (t.escDec.find? (fun p => p.1 == b)).map Prod.snd

/-- A selected decoder step: it commits if the whole entry fits (R145), as one unit (R112). -/
def emitEntry (e : DecodeEntry) (adv room : Nat) : Pick Unit :=
  if room < (entryBytes e).length then .full else .commit adv (entryBytes e) ()

/-- One iteration of the decoder's loop (R140): exhausted; after the escape code a hit (R142), a miss (R143), or at the end
of the chunk a hold or, on the final chunk, the entry of the escape code itself (R144); else the base table (R141),
which has no entry for a byte of 0x80 or above (R146). -/
def decPick (t : Tables) (final : Bool) (_r : Unit) (room : Nat) (src : List Byte) : Pick Unit :=
  match src with
  | [] => .idle
  | c :: rest =>
    if c = Config.esc then
      match rest with
      | b :: _ =>
        match escDecAt t b with
        | some e => emitEntry e 2 room
        | none => emitEntry (baseDecAt t (Config.esc.setWidth 7)) 1 room
      | [] => if final then emitEntry (baseDecAt t (Config.esc.setWidth 7)) 1 room else .idle
    else if c.getLsbD 7 then .refuse
    else emitEntry (baseDecAt t (c.setWidth 7)) 1 room

/-- XFORM.DEC (R140). The decoder has no register (R26). -/
def execXformDec (final : Bool) (s : State) : Host.Outcome State Fault Refusal :=
  s.xform .dec (decPick s.rom final) () (fun t _ => t)

/-- RESET.DEC (R147): the decoder has no stream state, so nothing changes. -/
def execResetDec (s : State) : Host.Outcome State Fault Refusal :=
  s.control .dec id

end Sys2Proof.Machine
end

