-- ==== Sys2Proof/Machine/Encoder.lean ====
section
/-!
DEFINITION. The GSM encoder (spec/42_encoder.md R160 to R176) and the UTF-8 decoding it uses (spec/30_encoding.md R88, R89).
-/

namespace Sys2Proof.Machine

/-- The result of `Utf8Decode` (R88). -/
inductive Utf8Result where
  | valid (cp : CodePoint) (size : Nat)
  | invalid
  | incomplete
deriving DecidableEq, Repr

/-- The range every continuation byte is in, but for the narrowed second bytes (R88). -/
def contRange : Byte × Byte := (0x80#8, 0xBF#8)

/-- The row of the table of R88 that a lead byte falls in: the code-point bits of the lead byte itself, and the required
range of each byte after it. `none` is the last row. -/
def leadRow (b : Byte) : Option (CodePoint × List (Byte × Byte)) :=
  if b ≤ 0x7F#8 then some (b.setWidth 21, [])
  else if b < 0xC2#8 then none
  else if b ≤ 0xDF#8 then some ((b &&& 0x1F#8).setWidth 21, [contRange])
  else if b = 0xE0#8 then some ((b &&& 0x0F#8).setWidth 21, [(0xA0#8, 0xBF#8), contRange])
  else if b = 0xED#8 then some ((b &&& 0x0F#8).setWidth 21, [(0x80#8, 0x9F#8), contRange])
  else if b ≤ 0xEF#8 then some ((b &&& 0x0F#8).setWidth 21, [contRange, contRange])
  else if b = 0xF0#8 then some ((b &&& 0x07#8).setWidth 21, [(0x90#8, 0xBF#8), contRange, contRange])
  else if b ≤ 0xF3#8 then some ((b &&& 0x07#8).setWidth 21, [contRange, contRange, contRange])
  else if b = 0xF4#8 then some ((b &&& 0x07#8).setWidth 21, [(0x80#8, 0x8F#8), contRange, contRange])
  else none

/-- The bytes after the lead byte, examined in order against their ranges: the first that is absent makes the sequence
INCOMPLETE, the first out of range makes it INVALID; each that passes adds six low bits (R88). -/
def utf8Tail (ranges : List (Byte × Byte)) (acc : CodePoint) (size : Nat) (r : List Byte) : Utf8Result :=
  match ranges, r with
  | [], _ => .valid acc size
  | _ :: _, [] => .incomplete
  | (lo, hi) :: ranges', b :: r' =>
    if lo ≤ b ∧ b ≤ hi then utf8Tail ranges' ((acc <<< 6) ||| (b &&& 0x3F#8).setWidth 21) (size + 1) r'
    else .invalid

/-- `Utf8Decode` of the remaining input (R88). It is applied to non-empty input only (R162); an empty one is INCOMPLETE. -/
def utf8Decode (r : List Byte) : Utf8Result :=
  match r with
  | [] => .incomplete
  | b :: rest =>
    match leadRow b with
    | none => .invalid
    | some (acc, ranges) => utf8Tail ranges acc 1 rest

/-- The loop of `BinSearch` on the search space [lo, hi), for at most `probes` probes (R165). -/
def binSearchLoop (tab : List EncPair) (cp : CodePoint) : Nat → Nat → Nat → Option Nat
  | 0, _, _ => none
  | probes + 1, lo, hi =>
    if lo < hi then
      match tab[(lo + hi) / 2]? with
      | none => none
      | some p =>
        if p.cp = cp then some ((lo + hi) / 2)
        else if p.cp < cp then binSearchLoop tab cp probes ((lo + hi) / 2 + 1) hi
        else binSearchLoop tab cp probes lo ((lo + hi) / 2)
    else none

/-- `BinSearch(cp)` over the full table (R165). Each probe shrinks the search space, so N_ENC probes are never too few
(log 20). -/
def binSearch (tab : List EncPair) (cp : CodePoint) : Option Nat :=
  binSearchLoop tab cp tab.length 0 tab.length

/-- `ExtScan(cp)`: the index of the first entry with the code point (R168). -/
def extScan (tab : List ExtTriple) (cp : CodePoint) : Option Nat :=
  tab.findIdx? (fun x => x.cp == cp)

/-- The bytes of one VALID unit with code point `cp` (R87): from ENCTAB, the escape code doubled (R166, R167); else from
EXTTAB, both bytes as stored (R169); else the replacement byte (R170, R174). -/
def encodeUnit (t : Tables) (repl : Byte) (cp : CodePoint) : List Byte :=
  match (binSearch t.encTab cp).bind (fun k => t.encTab[k]?) with
  | some p => if p.gsm = Config.esc then [p.gsm, Config.esc] else [p.gsm]
  | none =>
    match (extScan t.extTab cp).bind (fun j => t.extTab[j]?) with
    | some x => [x.esc, x.gsm]
    | none => [repl]

/-- One iteration of the encoder's loop (R160): exhausted; the room pre-check (R161); then one unit of UTF-8 (R162), held
if it is cut by the end of a chunk that is not final (R164), replaced if it is invalid (R163). -/
def encPick (t : Tables) (repl : Byte) (final : Bool) (_r : Unit) (room : Nat) (src : List Byte) : Pick Unit :=
  match src with
  | [] => .idle
  | b :: rest =>
    if room < 2 then .full
    else match utf8Decode (b :: rest) with
      | .incomplete => if final then .commit 1 [repl] () else .idle
      | .invalid => .commit 1 [repl] ()
      | .valid cp size => .commit size (encodeUnit t repl cp) ()

/-- XFORM.ENC (R160). It reads ENC.REPL and writes no register. -/
def execXformEnc (final : Bool) (s : State) : Host.Outcome State Fault Refusal :=
  s.xform .enc (encPick s.rom s.encRepl final) () (fun t _ => t)

/-- RESET.ENC (R172): no stream state, and ENC.REPL is configuration, so nothing changes. -/
def execResetEnc (s : State) : Host.Outcome State Fault Refusal :=
  s.control .enc id

/-- SETREPL (R173). -/
def execSetRepl (imm8 : Byte) (s : State) : Host.Outcome State Fault Refusal :=
  s.control .enc (fun t => t.setEncRepl (replacementOf imm8))

end Sys2Proof.Machine
end

