-- ==== Sys2Proof/Machine/Packer.lean ====
section
/-!
DEFINITION. The septet packer (spec/43_packer.md R200 to R210).
-/

namespace Sys2Proof.Machine

/-- The septet of a loose byte, as a byte: bit 7 is ignored (R201). -/
def septetOf (b : Byte) : Byte := b &&& 0x7F#8

/-- The octet of a pairing step at cursor `c`: `((a >> (c-1)) | (b << (8-c))) & 0xFF`, computed on 16 bits so that no bit is
lost before the mask (R8, R202, R203). -/
def pairOctet (c : Nat) (a b : Byte) : Byte :=
  (((septetOf a).setWidth 16 >>> (c - 1)) ||| ((septetOf b).setWidth 16 <<< (8 - c))).setWidth 8

/-- The octet of a tail step at cursor `c`: `a >> (c-1)` (R204). -/
def tailOctet (c : Nat) (a : Byte) : Byte := septetOf a >>> (c - 1)

/-- The cursor after a step: 7 wraps to 1 (R202, R203, R209). -/
def nextCursor (c : BitVec 3) : BitVec 3 := if c = 7#3 then 1#3 else c + 1#3

/-- One iteration of the packer's loop (R200): exhausted; a pairing step (R202, R203); a tail step on the last septet of the
stream (R204); or the hold of a last septet whose partner may follow (R205). -/
def packPick (final : Bool) (c : BitVec 3) (room : Nat) (src : List Byte) : Pick (BitVec 3) :=
  match src with
  | [] => .idle
  | [a] =>
    if final then
      if room = 0 then .full
      else .commit 1 [tailOctet c.toNat a] (nextCursor c)
    else .idle
  | a :: b :: _ =>
    if room = 0 then .full
    else .commit (if c = 7#3 then 2 else 1) [pairOctet c.toNat a b] (nextCursor c)

/-- XFORM.PACK (R200). -/
def execXformPack (final : Bool) (s : State) : Host.Outcome State Fault Refusal :=
  s.xform .pack (packPick final) s.packCur State.setPackCur

/-- RESET.PACK (R207): the cursor goes back to its starting alignment. -/
def execResetPack (s : State) : Host.Outcome State Fault Refusal :=
  s.control .pack (fun t => t.setPackCur 1#3)

end Sys2Proof.Machine
end

