-- ==== Sys2Proof/Machine/Unpacker.lean ====
section
/-!
DEFINITION. The septet unpacker (spec/44_unpacker.md R220 to R230).
-/

namespace Sys2Proof.Machine

/-- The unpacker's registers: UNPK.CUR, UNPK.CARRY, UNPK.PEND (R22 to R24). -/
structure UnpkRegs where
  cur   : BitVec 3
  carry : Septet
  pend  : Bool
deriving DecidableEq, Repr

/-- The septet of a byte step at cursor `c`: `((b << (c-1)) & 0x7F) | carry`, computed on 16 bits (R8, R221). -/
def byteSeptet (c : Nat) (b : Byte) (carry : Septet) : Septet :=
  (b.setWidth 16 <<< (c - 1)).setWidth 7 ||| carry

/-- The carry after a byte step at cursor `c`: `b >> (8-c)` (R221). -/
def byteCarry (c : Nat) (b : Byte) : Septet := (b >>> (8 - c)).setWidth 7

/-- A septet as a loose byte, bit 7 zero (R84). -/
def looseByte (v : Septet) : Byte := v.setWidth 8

/-- One iteration of the unpacker's loop (R220): the flush of a pending septet first (R222, R223), then a byte step (R221);
DestinationFull before either (R224). FINAL plays no part (R225). -/
def unpackPick (r : UnpkRegs) (room : Nat) (src : List Byte) : Pick UnpkRegs :=
  if r.pend then
    if room = 0 then .full
    else .commit 0 [looseByte r.carry] ⟨1#3, 0#7, false⟩
  else
    match src with
    | [] => .idle
    | b :: _ =>
      if room = 0 then .full
      else .commit 1 [looseByte (byteSeptet r.cur.toNat b r.carry)]
        (if r.cur = 7#3 then ⟨r.cur, byteCarry r.cur.toNat b, true⟩
          else ⟨r.cur + 1#3, byteCarry r.cur.toNat b, false⟩)

/-- The unpacker's registers in a state. -/
def State.unpk (s : State) : UnpkRegs := ⟨s.unpkCur, s.unpkCarry, s.unpkPend⟩

/-- The unpacker's registers written. -/
def State.putUnpk (s : State) (r : UnpkRegs) : State := s.setUnpk r.cur r.carry r.pend

/-- XFORM.UNPACK (R220); FINAL is ignored (R225). -/
def execXformUnpack (_final : Bool) (s : State) : Host.Outcome State Fault Refusal :=
  s.xform .unpack unpackPick s.unpk State.putUnpk

/-- RESET.UNPACK (R227): cursor, carry and pending septet are discarded. -/
def execResetUnpack (s : State) : Host.Outcome State Fault Refusal :=
  s.control .unpack (fun t => t.setUnpk 1#3 0#7 false)

end Sys2Proof.Machine
end

