-- ==== Sys2Proof/Machine/Dispatch.lean ====
section
/-! DEFINITION. One arm per command. -/

namespace Sys2Proof.Machine

def exec (i : Instr) (s : State) : Host.Outcome State Fault Refusal :=
  match i with
  | .xformDec final => Sys2Proof.Machine.execXformDec final s
  | .xformEnc final => Sys2Proof.Machine.execXformEnc final s
  | .xformPack final => Sys2Proof.Machine.execXformPack final s
  | .xformUnpack final => Sys2Proof.Machine.execXformUnpack final s
  | .resetDec => Sys2Proof.Machine.execResetDec s
  | .resetEnc => Sys2Proof.Machine.execResetEnc s
  | .resetPack => Sys2Proof.Machine.execResetPack s
  | .resetUnpack => Sys2Proof.Machine.execResetUnpack s
  | .setRepl imm8 => Sys2Proof.Machine.execSetRepl imm8 s

end Sys2Proof.Machine
end

