-- ==== Sys2Proof/Machine/HostSide.lean ====
section
/-!
DEFINITION. The host's events that are no commands: a command's return, a write to the host's memory, and power-on reset
(spec/20_memory.md R58, R61; spec/70_reset_and_hazards.md R290, R291, R293).
-/

namespace Sys2Proof.Machine

/-- The outstanding command of unit `u` returns to the host with its results, every write to its DST complete (R61). Where
another command outstanding writes the same bytes, their order is a free value (log 9). An idle unit has no command to
return, and the event does nothing (log 11). -/
def State.takeReturn (s : State) (u : UnitId) : State :=
  match s.link u with
  | .idle => s
  | .outstanding args steps reply =>
    let t := if (s.setLink u .idle).contends steps.flatten then s.progress else s
    ((t.setLink u .idle).setMem (Memory.writeCells t.mem (t.link u).writes)).setReturns
      (s.returns ++ [⟨u, args, reply⟩])

/-- The host writes a byte of its memory. It may not change the SRC of an outstanding command (R58; writing the value that is
there changes nothing, log 10). DST of an outstanding command it may write, and whether that command's own write of the
byte is done before is a free value (log 9). -/
def State.hostWrite (s : State) (a : Nat) (b : Byte) : Host.Outcome State Fault Refusal :=
  if s.changesOutstandingSrc [(a, b)] then .refused .regions
  else
    let t := if s.contends [(a, b)] then s.progress else s
    .next (t.setMem (Memory.write t.mem a b))

/-- Every unit without an outstanding command. -/
def State.setIdle (s : State) : State := { s with links := ⟨.idle, .idle, .idle, .idle⟩ }

/-- Power-on reset: every register of all four units at its reset value and the block idle, whatever was outstanding; the reset
itself touches neither SRC, DST nor the tables (R291, R293), and what lies with the host stays (log 13). A command it
cuts off never returns; how many of its steps had committed their writes is a free value (log 9). -/
def State.powerOn (s : State) : State :=
  let t := if allUnits.any (fun u => !(s.link u).writes.isEmpty) then s.progress else s
  ((t.setIdle.setPackCur 1#3).setUnpk 1#3 0#7 false).setEncRepl Config.replDefault

end Sys2Proof.Machine
end

