-- ==== Sys2Proof/Machine/Issue.lean ====
section
/-!
DEFINITION. How an issued command is read and run (spec/30_encoding.md R80, R83; spec/40_commands.md R110). `step` only calls it.
-/

namespace Sys2Proof.Machine

/-- The refusal of bytes that are no command: a reserved word (R83), or a command cut short (log 14). -/
def decodeRefusal (e : DecodeError) : Refusal :=
  match e with
  | .noWord => .truncatedCommand
  | .noImm8 => .truncatedCommand
  | .reservedOp => .reservedCommand
  | .reservedZ => .reservedCommand
  | .reservedFinal => .reservedCommand
  | .reservedUnit => .reservedCommand

/-- The host issues a command: the operands stand at the port and the decoded command runs. Bytes after the command's own
are not read (log 14). -/
def State.issue (s : State) (c : Command) : Host.Outcome State Fault Refusal :=
  match decode c.bytes with
  | .error e => .refused (decodeRefusal e)
  | .ok (i, _) => exec i (s.setPort c.args)

/-- What one event of the host does. -/
def State.handle (s : State) (e : HostEvent) : Host.Outcome State Fault Refusal :=
  match e with
  | .issue c => s.issue c
  | .ret u => .next (s.takeReturn u)
  | .write a b => s.hostWrite a b
  | .powerOn => .next s.powerOn

/-- A command given by its table bits, on regions of no bytes. -/
def tableCommand (nbits w : Nat) : Command := ⟨tableBytes nbits w, Operands.none⟩

end Sys2Proof.Machine
end

