-- ==== Sys2Proof/Machine/Step.lean ====
section
/-!
DEFINITION. One step: the host's next event (DESIGN CHOICE, log 1); without one the block is idle (spec/60_exceptions.md R270).
-/

namespace Sys2Proof.Machine

/-- One step of the machine. -/
def step (s : State) : Host.Outcome State Fault Refusal :=
  match s.host with
  | [] => .next s
  | e :: es => (s.setHost es).handle e

/-- The state with a command, given by its table bits, as the host's next event; the events that were next come after it. -/
def State.withFetchWord (s : State) (nbits w : Nat) : State :=
  s.setHost (.issue (tableCommand nbits w) :: s.host)

end Sys2Proof.Machine
end

