-- ==== Sys2Proof/Machine/Driver.lean ====
section
/-!
DEFINITION. What the host does to pass a stream through a unit: the driver protocol (spec/40_commands.md R121, R119) and the
pseudo-command DRIVE (spec/30_encoding.md R92), on the machine itself; and the streams the laws of
spec/45_properties.md speak of.
-/

namespace Sys2Proof.Machine

/-- What the host has after an XFORM command: the machine's state, the bytes of dst[0..NDST), and the results. -/
structure Answer where
  state : State
  out   : List Byte
  reply : Reply
deriving DecidableEq, Repr

/-- The host puts `src` at address 0 of its memory and DST right behind it, issues the command and takes its return: two
steps of the machine. No answer if either step stops, or if the command returns no results. -/
def State.send (s : State) (i : Instr) (src : List Byte) (dcap : Nat) : Option Answer :=
  let args : Operands := ⟨0, src.length, src.length, dcap⟩
  match step ((s.setMem (Memory.writeBytes s.mem 0 src)).setHost [.issue ⟨encode i, args⟩, .ret i.unit]) with
  | .next t =>
    match step t with
    | .next t' =>
      match t'.returns.getLast? with
      | some ⟨_, _, some r⟩ => some ⟨t', Memory.readBytes t'.mem src.length r.ndst, r⟩
      | _ => none
    | _ => none
  | _ => none

/-- One turn of the driver: new input appended to what is unconsumed, the FINAL flag, and the room offered (R121). -/
structure Turn where
  new   : List Byte
  final : Bool
  dcap  : Nat
deriving DecidableEq, Repr

/-- Obligation (c) of R121: FINAL is set on the commands that carry the last chunk, and only on them. Once it is set it stays
set and no input is added. -/
def turnsOk (ts : List Turn) : Bool :=
  match ts with
  | [] => true
  | t :: ts' => if t.final then ts'.all (fun x => x.final && x.new.isEmpty) else turnsOk ts'

/-- The stream the turns carry. -/
def turnsInput (ts : List Turn) : List Byte := ts.flatMap Turn.new

/-- What the driver has at the end of its turns: the machine's state, all output, the input still unconsumed, and the
results of every command. -/
structure Driven where
  state   : State
  out     : List Byte
  rest    : List Byte
  replies : List Reply
deriving DecidableEq, Repr

/-- The driver protocol (R121, obligation (a)): each command's SRC is the unconsumed input of the one before, followed by the
new input. No result if a command is refused. -/
def State.drive (s : State) (u : UnitId) (pending : List Byte) (ts : List Turn) : Option Driven :=
  match ts with
  | [] => some ⟨s, [], pending, []⟩
  | t :: ts' =>
    match s.send (xformOf u t.final) (pending ++ t.new) t.dcap with
    | none => none
    | some a =>
      match State.drive a.state u (resumeInput (pending ++ t.new) a.reply.nsrc []) ts' with
      | none => none
      | some d => some ⟨d.state, a.out ++ d.out, d.rest, a.reply :: d.replies⟩

/-- The driver has ended the stream: its last command carried FINAL and returned OK (R12, R121). -/
def driveDone (ts : List Turn) (d : Driven) : Bool :=
  match ts.getLast?, d.replies.getLast? with
  | some t, some r => t.final && r.status == .ok
  | _, _ => false

/-- The stream function U(X) (R119), on the unit's registers as they stand: the output of one final command on the whole
stream, with three bytes of room for every input byte and one for a septet the unpacker still owes. No unit writes more. -/
def State.streamOut (s : State) (u : UnitId) (x : List Byte) : Option (List Byte) :=
  (s.send (xformOf u true) x (3 * x.length + 1)).map Answer.out

/-- Unit `u` is in its start-of-stream condition (R118, R20); the decoder and the encoder always are (R26, R27). -/
def State.atStart (s : State) (u : UnitId) : Bool :=
  match u with
  | .dec => true
  | .enc => true
  | .pack => s.packCur == 1#3
  | .unpack => s.unpkCur == 1#3 && s.unpkCarry == 0#7 && !s.unpkPend

/-- Bit `n` of the bit stream of a septet sequence, bits past its end 0 (R55). -/
def septetStreamBit (xs : List Byte) (n : Nat) : Bool :=
  (xs.getD (n / 7) 0#8).getLsbD (n % 7)

/-- Bit `n` of the bit stream of an octet sequence, bits past its end 0 (R55). -/
def octetStreamBit (xs : List Byte) (n : Nat) : Bool :=
  (xs.getD (n / 8) 0#8).getLsbD (n % 8)

/-- The UTF-8 encoding of a code point (the rows of R88 read backwards). -/
def utf8Bytes (cp : CodePoint) : List Byte :=
  if cp ≤ 0x7F#21 then [cp.setWidth 8]
  else if cp ≤ 0x7FF#21 then
    [0xC0#8 ||| (cp >>> 6).setWidth 8, 0x80#8 ||| (cp.setWidth 8 &&& 0x3F#8)]
  else if cp ≤ 0xFFFF#21 then
    [0xE0#8 ||| (cp >>> 12).setWidth 8, 0x80#8 ||| ((cp >>> 6).setWidth 8 &&& 0x3F#8),
      0x80#8 ||| (cp.setWidth 8 &&& 0x3F#8)]
  else
    [0xF0#8 ||| (cp >>> 18).setWidth 8, 0x80#8 ||| ((cp >>> 12).setWidth 8 &&& 0x3F#8),
      0x80#8 ||| ((cp >>> 6).setWidth 8 &&& 0x3F#8), 0x80#8 ||| (cp.setWidth 8 &&& 0x3F#8)]

/-- A code point that has a well-formed encoding: at most 0x10FFFF and no surrogate (R88). -/
def scalarValue (cp : CodePoint) : Bool :=
  cp ≤ 0x10FFFF#21 && !(0xD800#21 ≤ cp && cp ≤ 0xDFFF#21)

end Sys2Proof.Machine
end

