-- ==== Sys2Proof/Safety.lean ====
section
/-!
DEFINITION. What counts as a good state and a good use of the block, in the terms the claims use.
-/

namespace Sys2Proof.Machine

/-- The legal register values: R35 on the packer and the unpacker, R25 on ENC.REPL. -/
abbrev State.regsLegal (s : State) : Prop :=
  1 ≤ s.packCur.toNat ∧ 1 ≤ s.unpkCur.toNat ∧
    (s.unpkPend = false → s.unpkCarry.toNat < 2 ^ (s.unpkCur.toNat - 1)) ∧
    (s.unpkPend = true → s.unpkCur = 7#3) ∧ s.encRepl ≠ 0#8

/-- The results are within the operands: NDST <= DCAP and NSRC <= SLEN (R122). -/
def replyBounded (args : Operands) (reply : Option Reply) : Bool :=
  match reply with
  | none => true
  | some r => decide (r.ndst ≤ args.dcap) && decide (r.nsrc ≤ args.slen)

/-- NDST of the results, 0 for a command that returns none. -/
def writtenCount (reply : Option Reply) : Nat :=
  match reply with
  | none => 0
  | some r => r.ndst

/-- The results a unit's outstanding command waits with. -/
def Link.reply (l : Link) : Option Reply :=
  match l with
  | .idle => none
  | .outstanding _ _ r => r

/-- The results of a unit's outstanding command are within its operands (R122), and the writes it may still do lie in
dst[0..NDST) (R56). -/
def Link.bounded (l : Link) : Bool :=
  match l with
  | .idle => true
  | .outstanding args steps reply =>
    replyBounded args reply && steps.flatten.all (fun x => decide (args.dstAt ≤ x.1) && decide (x.1 < args.dstAt + writtenCount reply))

/-- Of two commands outstanding at once, the DST regions share a byte. -/
def dstClash (o p : Operands) : Bool :=
  rangesOverlap o.dstAt o.dcap p.dstAt p.dcap

/-- The steps of one unit in a list of steps' writes tagged with the unit that did them. -/
def stepsOf (done : List (UnitId × List Host.Cell)) (u : UnitId) : List (List Host.Cell) :=
  (done.filter (fun x => x.1 == u)).map Prod.snd

/-- `t` is `s` after the steps `done` have committed their writes: they stand in memory in this order, each unit has done the
first of its steps, whole (R112) and in their own order, and has the others left (R56, R60), and nothing else has changed
but the count of free values. -/
structure State.Progress (done : List (UnitId × List Host.Cell)) (s t : State) : Prop where
  rest  : t = { s with
    mem := Memory.writeCells s.mem (done.flatMap Prod.snd), links := t.links, choices := t.choices }
  order : ∀ u, (s.link u).steps = stepsOf done u ++ (t.link u).steps
  args  : ∀ u, (t.link u).args = (s.link u).args
  busy  : ∀ u, (t.link u).busy = (s.link u).busy
  reply : ∀ u, (t.link u).reply = (s.link u).reply

/-- The results of a command from its run: NDST, NSRC and STATUS (R111, R82). -/
def replyOf {σ : Type} (q : Run σ) : Reply :=
  ⟨q.out.length, q.used, if q.stop = .ok then .ok else .destinationFull⟩

/-- The invariant of the machine: legal registers (R25, R35), the host's memory in canonical form, and the results of every
command, outstanding or returned, within its operands (R122). -/
structure State.Inv (s : State) : Prop where
  regs : s.regsLegal
  mem  : Memory.wf s.mem
  outstanding : ∀ u, (s.link u).bounded = true
  returned : ∀ r ∈ s.returns, replyBounded r.args r.reply = true

/-- The unit accepts an XFORM command on the operands at the port: no command of it is outstanding (R65), its regions are apart
from each other, and no command outstanding has a byte of its SRC left to change (R58). -/
structure State.Accepts (s : State) (u : UnitId) : Prop where
  idle : s.link u = .idle
  own  : s.port.disjoint = true
  src  : ∀ v, changesSrc s.mem s.port (s.link v).writes = false

/-- The writes change no byte of SRC of a command outstanding (R58). -/
def State.KeepsSrc (s : State) (cells : List Host.Cell) : Prop :=
  ∀ v, changesSrc s.mem (s.link v).args cells = false

/-- No command is outstanding on any unit. -/
def State.AllIdle (s : State) : Prop := ∀ u, s.link u = .idle

/-- A run that commits one step and then goes on as `q` (R112, R113). -/
def Run.after {σ : Type} (used : Nat) (out : List Byte) (q : Run σ) : Run σ :=
  ⟨used + q.used, out :: q.outs, q.reg, q.stop⟩

/-- All that the results of a unit's commands may depend on besides their operands: its own registers and its tables (R39,
R148, R176). -/
def sameUnit (u : UnitId) (s s' : State) : Prop :=
  match u with
  | .dec => s.rom = s'.rom
  | .enc => s.rom = s'.rom ∧ s.encRepl = s'.encRepl
  | .pack => s.packCur = s'.packCur
  | .unpack => s.unpk = s'.unpk

/-- The registers of a unit are the same in two states (R20). -/
def sameRegs (u : UnitId) (s s' : State) : Prop :=
  match u with
  | .dec => True
  | .enc => s.encRepl = s'.encRepl
  | .pack => s.packCur = s'.packCur
  | .unpack => s.unpk = s'.unpk

/-- The room that always lets a unit's command advance (R261, R244). -/
def roomToAdvance (u : UnitId) : Nat :=
  match u with
  | .dec => 3
  | .enc => 2
  | .pack => 1
  | .unpack => 1

end Sys2Proof.Machine

namespace Sys2Proof

open Machine

/-- The consistency of the tables that the encode and decode round trip needs (R241). -/
structure Tables.Consistent (t : Tables) : Prop where
  base : ∀ p ∈ t.encTab, p.gsm ≠ Config.esc →
    p.gsm < 0x80#8 ∧ entryBytes (baseDecAt t (p.gsm.setWidth 7)) = utf8Bytes p.cp
  ext : ∀ x, t.extTab.find? (fun y => y.cp == x.cp) = some x → (∀ p ∈ t.encTab, p.cp ≠ x.cp) →
    x.esc = Config.esc ∧ ∃ e, escDecAt t x.gsm = some e ∧ entryBytes e = utf8Bytes x.cp

/-- A code point the round trip covers (R241): in ENCTAB under a code other than the escape code, or in EXTTAB only. -/
def Tables.RoundTrips (t : Tables) (cp : CodePoint) : Prop :=
  (∃ p ∈ t.encTab, p.cp = cp ∧ p.gsm ≠ Config.esc) ∨
    ((∃ x ∈ t.extTab, x.cp = cp) ∧ ∀ p ∈ t.encTab, p.cp ≠ cp)

end Sys2Proof
end

