-- ==== Sys2Proof/Certificates/Slice0/Obligations.lean ====
section
/-!
DEFINITION. The statements about the GSM7 block that are to be proved. OBLIGATIONS.json lists them with the rules they
formalise.
-/

open Sys2Proof Sys2Proof.Machine

/-! ### Command words -/

/-- A command's bytes decode to it, whatever follows them (R80, R85). -/
def Obligations.EncodedCommandDecodesToItself : Prop :=
  ∀ (i : Instr) (rest : List Byte), decode (encode i ++ rest) = .ok (i, rest)

/-- Bytes that decode to a command are that command's encoding: no second word means the same (R80, R83). -/
def Obligations.DecodedBytesAreTheEncoding : Prop :=
  ∀ (bs : List Byte) (i : Instr) (rest : List Byte), decode bs = .ok (i, rest) → bs = encode i ++ rest

/-- R83: issuing a word that is not one of the thirteen is refused: no next state, so no register changes, no region is
touched and no result is returned. -/
def Obligations.ReservedWordIsRefused : Prop :=
  ∀ (s : State) (w : Byte) (rest : List Byte) (args : Operands) (es : List HostEvent),
    s.host = .issue ⟨w :: rest, args⟩ :: es →
    ¬ ((0x10 ≤ w.toNat ∧ w.toNat ≤ 0x17) ∨ (0x20 ≤ w.toNat ∧ w.toNat ≤ 0x23) ∨ w.toNat = 0x31) →
    step s = .refused .reservedCommand

/-- Words of the table of R80, one of each command, decode to the command the table names. -/
def Obligations.TableWordsDecodeAsNamed : Prop :=
  decode [0x14#8] = .ok (.xformDec true, []) ∧ decode [0x11#8] = .ok (.xformEnc false, []) ∧
  decode [0x12#8] = .ok (.xformPack false, []) ∧ decode [0x17#8] = .ok (.xformUnpack true, []) ∧
  decode [0x20#8] = .ok (.resetDec, []) ∧ decode [0x21#8] = .ok (.resetEnc, []) ∧
  decode [0x22#8] = .ok (.resetPack, []) ∧ decode [0x23#8] = .ok (.resetUnpack, []) ∧
  decode [0x31#8, 0x20#8] = .ok (.setRepl 0x20#8, [])

/-! ### Steps of the machine -/

/-- A step runs the decoded command: when the host's next event issues bytes that decode to `i`, the step is `exec i` at the
state with that event taken off and the operands at the port. The event list is the model's binding (log 1). -/
def Obligations.StepRunsTheIssuedCommand : Prop :=
  ∀ (s : State) (c : Command) (es : List HostEvent) (i : Instr) (rest : List Byte),
    s.host = .issue c :: es → decode c.bytes = .ok (i, rest) →
    step s = exec i { s with host := es, port := c.args }

/-- With no event the block keeps its state (R270). When an outstanding command returns, every write to its DST is complete,
the host receives its unit, operands and results, the unit is idle, and nothing else changes (R61; the event is the
model's, log 1), if no other command outstanding has a write at the same addresses. -/
def Obligations.IdleAndReturnSteps : Prop :=
  (∀ s : State, s.host = [] → step s = .next s) ∧
  ∀ (s : State) (u : UnitId) (es : List HostEvent) (args : Operands) (steps : List (List Host.Cell)) (reply : Option Reply),
    s.host = .ret u :: es → s.link u = .outstanding args steps reply →
    (∀ v, v ≠ u → ∀ x ∈ (s.link v).writes, ∀ y ∈ steps.flatten, x.1 ≠ y.1) →
    step s = .next { s with
      host := es, links := s.links.set u .idle, mem := Memory.writeCells s.mem steps.flatten,
      returns := s.returns ++ [⟨u, args, reply⟩] }

/-- The reset values of R20, the tables as built and the block idle. -/
def Obligations.ResetStateHoldsTheResetValues : Prop :=
  State.reset.packCur = 1#3 ∧ State.reset.unpkCur = 1#3 ∧ State.reset.unpkCarry = 0#7 ∧
  State.reset.unpkPend = false ∧ State.reset.encRepl = 0x3F#8 ∧ State.reset.rom = Config.tables ∧
  State.reset.AllIdle

/-- Power-on reset, whatever is outstanding, sets every register of all four units to its reset value and leaves the block idle;
the tables and the host's side stay (R291, R293). A command it cuts off may have committed the writes of some of its steps,
the first ones in their order and each step's whole (R112; how many is the model's choice, log 9); with no write
outstanding it touches nothing else. -/
def Obligations.PowerOnSetsEveryRegister : Prop :=
  (∀ (s : State) (es : List HostEvent), s.host = .powerOn :: es →
    ∃ done p, State.Progress done { s with host := es } p ∧
      step s = .next { p with
        packCur := 1#3, unpkCur := 1#3, unpkCarry := 0#7, unpkPend := false, encRepl := 0x3F#8,
        links := ⟨.idle, .idle, .idle, .idle⟩ }) ∧
  ∀ (s : State) (es : List HostEvent), s.host = .powerOn :: es → (∀ u, (s.link u).writes = []) →
    step s = .next { s with
      host := es, packCur := 1#3, unpkCur := 1#3, unpkCarry := 0#7, unpkPend := false, encRepl := 0x3F#8,
      links := ⟨.idle, .idle, .idle, .idle⟩ }

/-! ### RESET and SETREPL -/

/-- R118 on each unit: RESET runs on an idle unit, sets the stream-state registers of that unit to their reset values and
changes nothing else but the unit's command interface; it returns no results. -/
def Obligations.ResetCommandsComplete : Prop :=
  (∀ s : State, s.link .dec = .idle → exec .resetDec s =
    .next { s with links := s.links.set .dec (.outstanding Operands.none [] none) }) ∧
  (∀ s : State, s.link .enc = .idle → exec .resetEnc s =
    .next { s with links := s.links.set .enc (.outstanding Operands.none [] none) }) ∧
  (∀ s : State, s.link .pack = .idle → exec .resetPack s =
    .next { s with packCur := 1#3, links := s.links.set .pack (.outstanding Operands.none [] none) }) ∧
  (∀ s : State, s.link .unpack = .idle → exec .resetUnpack s =
    .next { s with
      unpkCur := 1#3, unpkCarry := 0#7, unpkPend := false,
      links := s.links.set .unpack (.outstanding Operands.none [] none) })

/-- SETREPL runs on an idle encoder: ENC.REPL becomes 0x3F if IMM8 is 0 and IMM8 otherwise; nothing else changes but the
encoder's command interface (R173). -/
def Obligations.SetReplCompletes : Prop :=
  ∀ (s : State) (imm8 : Byte), s.link .enc = .idle → exec (.setRepl imm8) s =
    .next { s with
      encRepl := if imm8 = 0#8 then 0x3F#8 else imm8,
      links := s.links.set .enc (.outstanding Operands.none [] none) }

/-! ### Refusals -/

/-- R65: a command to a unit whose earlier command has not returned is refused. That the refusal is named `concurrent` also where
another one applies is the model's choice (log 23). -/
def Obligations.BusyUnitRefusesEveryCommand : Prop :=
  ∀ (i : Instr) (s : State) (args : Operands) (steps : List (List Host.Cell)) (reply : Option Reply),
    s.link i.unit = .outstanding args steps reply → exec i s = .refused .concurrent

/-- R58: an XFORM command whose regions share a byte is refused, and so is a change of a byte of the SRC of a command that
has not returned. -/
def Obligations.OverlapAndChangedSrcAreRefused : Prop :=
  (∀ (s : State) (u : UnitId) (final : Bool) (x : Nat), s.link u = .idle →
    s.port.srcAt ≤ x → x < s.port.srcAt + s.port.slen →
    s.port.dstAt ≤ x → x < s.port.dstAt + s.port.dcap →
    exec (xformOf u final) s = .refused .regions) ∧
  ∀ (s : State) (es : List HostEvent) (a : Nat) (b : Byte) (u : UnitId) (args : Operands) (steps : List (List Host.Cell))
    (reply : Option Reply), s.host = .write a b :: es → s.link u = .outstanding args steps reply →
    args.srcAt ≤ a → a < args.srcAt + args.slen → Memory.read s.mem a ≠ b →
    step s = .refused .regions

/-- The model's choice for the refusal by outstanding writes (log 8, from R58, R60). A new command is refused as `regions` if a
byte of its SRC would be changed by a write that an outstanding command still has to do. Where that is not so and its own
regions are apart, one whose DST region meets no outstanding SRC is not refused for its regions, whatever outstanding DST
it meets, so the encoder, the packer and the unpacker run; nor is one that writes nothing, whatever its DST region meets,
an outstanding SRC too: a packer's hold runs. -/
def Obligations.OutstandingWritesIntoSrcAreRefused : Prop :=
  (∀ (s : State) (u v : UnitId) (final : Bool), s.link u = .idle →
    changesSrc s.mem s.port (s.link v).writes = true → exec (xformOf u final) s = .refused .regions) ∧
  (∀ (s : State) (u : UnitId) (final : Bool), s.Accepts u → u ≠ .dec →
    (∀ v x, s.port.dstAt ≤ x → x < s.port.dstAt + s.port.dcap →
      ¬ ((s.link v).args.srcAt ≤ x ∧ x < (s.link v).args.srcAt + (s.link v).args.slen)) →
    ∃ t, exec (xformOf u final) s = .next t) ∧
  ∀ s : State, s.Accepts .pack → s.port.slen = 1 →
    exec (.xformPack false) s =
      .next { s with links := s.links.set .pack (.outstanding s.port [] (some ⟨0, 0, .ok⟩)) }

/-- Writes under commands that are outstanding (R56, R60, R61, R112; how many steps each outstanding command has committed
to memory, in their order and each whole, is a free value, log 9). The host's write of a byte that changes no outstanding SRC completes, and nothing else
changes if no outstanding command writes that byte. A command's return completes, and all its writes are then done:
those that were still to come last, in their order. -/
def Obligations.WritesLandUnderOutstandingCommands : Prop :=
  (∀ (s : State) (es : List HostEvent) (a : Nat) (b : Byte), s.host = .write a b :: es → s.KeepsSrc [(a, b)] →
    (∃ done p, State.Progress done { s with host := es } p ∧
      step s = .next { p with mem := Memory.write p.mem a b }) ∧
    ((∀ u, ∀ x ∈ (s.link u).writes, x.1 ≠ a) →
      step s = .next { s with host := es, mem := Memory.write s.mem a b })) ∧
  ∀ (s : State) (es : List HostEvent) (u : UnitId) (args : Operands) (steps : List (List Host.Cell)) (reply : Option Reply),
    s.host = .ret u :: es → s.link u = .outstanding args steps reply →
    ∃ done p, State.Progress done { s with host := es } p ∧
      step s = .next { p with
        links := p.links.set u .idle, mem := Memory.writeCells p.mem (p.link u).writes,
        returns := s.returns ++ [⟨u, args, reply⟩] }

/-- R146: with room for what comes before it, a byte of 0x80 or above that reaches the base lookup, after base codes or after
a further escape code whose lookup of it misses, makes the whole command refused. -/
def Obligations.DecoderRefusesByteAtBaseLookup : Prop :=
  ∀ (s : State) (final : Bool) (pre post : List Byte) (c : Byte), s.Accepts .dec →
    (∀ b ∈ pre, b.toNat < 0x80 ∧ b ≠ 0x1B#8) → 0x80 ≤ c.toNat →
    (s.srcBytes = pre ++ c :: post → 3 * pre.length ≤ s.port.dcap →
      exec (.xformDec final) s = .refused .decoderInput) ∧
    (s.srcBytes = pre ++ 0x1B#8 :: c :: post → escDecAt s.rom c = none → 3 * pre.length + 3 ≤ s.port.dcap →
      exec (.xformDec final) s = .refused .decoderInput)

/-! ### XFORM commands complete -/

/-- An accepted XFORM.PACK completes: PACK.CUR is what its run leaves, the run's bytes wait, as the writes of dst[0..NDST), for
the return with its results, and nothing else changes (R110, R111, R61, R200); but where those bytes change SRC of a
command outstanding, it is the command refused (R58, log 8). -/
def Obligations.XformPackCompletes : Prop :=
  ∀ (s : State) (final : Bool), s.Accepts .pack →
    let q := runUnit (packPick final) s.packCur s.port.dcap s.srcBytes
    (s.KeepsSrc (dstCells s.port q.out) → exec (.xformPack final) s = .next { s with
      packCur := q.reg,
      links := s.links.set .pack (.outstanding s.port (dstSteps s.port q.outs) (some (replyOf q))) }) ∧
    (¬ s.KeepsSrc (dstCells s.port q.out) → exec (.xformPack final) s = .refused .regions)

/-- An accepted XFORM.UNPACK completes likewise, with the unpacker's three registers (R110, R111, R220; R58, log 8). -/
def Obligations.XformUnpackCompletes : Prop :=
  ∀ (s : State) (final : Bool), s.Accepts .unpack →
    let q := runUnit unpackPick s.unpk s.port.dcap s.srcBytes
    (s.KeepsSrc (dstCells s.port q.out) → exec (.xformUnpack final) s = .next { s with
      unpkCur := q.reg.cur, unpkCarry := q.reg.carry, unpkPend := q.reg.pend,
      links := s.links.set .unpack (.outstanding s.port (dstSteps s.port q.outs) (some (replyOf q))) }) ∧
    (¬ s.KeepsSrc (dstCells s.port q.out) → exec (.xformUnpack final) s = .refused .regions)

/-- An accepted XFORM.ENC completes whatever its input, and changes no register (R110, R160, R171); but where its bytes change
SRC of a command outstanding, it is the command refused (R58, log 8). -/
def Obligations.XformEncCompletes : Prop :=
  ∀ (s : State) (final : Bool), s.Accepts .enc →
    let q := runUnit (encPick s.rom s.encRepl final) () s.port.dcap s.srcBytes
    (s.KeepsSrc (dstCells s.port q.out) → exec (.xformEnc final) s = .next { s with
      links := s.links.set .enc (.outstanding s.port (dstSteps s.port q.outs) (some (replyOf q))) }) ∧
    (¬ s.KeepsSrc (dstCells s.port q.out) → exec (.xformEnc final) s = .refused .regions)

/-- An accepted XFORM.DEC whose input bytes are all below 0x80 completes and changes no register. So does every other one
whose run meets no byte of 0x80 or above at the base lookup (such a byte may follow an escape code and hit in ESCDEC);
one whose run meets such a byte is refused (R110, R140, R146). Where the bytes it would write change SRC of a command
outstanding, it is the command refused (R58, log 8). -/
def Obligations.XformDecCompletes : Prop :=
  ∀ (s : State) (final : Bool), s.Accepts .dec →
    let q := runUnit (decPick s.rom final) () s.port.dcap s.srcBytes
    let t : State := { s with
      links := s.links.set .dec (.outstanding s.port (dstSteps s.port q.outs) (some (replyOf q))) }
    (s.KeepsSrc (dstCells s.port q.out) →
      ((∀ b ∈ s.srcBytes, b.toNat < 0x80) → exec (.xformDec final) s = .next t) ∧
      (q.stop ≠ .refuse → exec (.xformDec final) s = .next t)) ∧
    (¬ s.KeepsSrc (dstCells s.port q.out) → q.stop ≠ .refuse → exec (.xformDec final) s = .refused .regions) ∧
    (q.stop = .refuse → exec (.xformDec final) s = .refused .decoderInput)

/-! ### The packer's steps -/

/-- R202: at cursor 1 to 6, with a partner and room, the octet is ((a >> (c-1)) | (b << (8-c))) & 0xFF on the septets of the
two bytes; one byte is consumed and the cursor advances. -/
def Obligations.PackPairStep : Prop :=
  ∀ (final : Bool) (c : BitVec 3) (dcap : Nat) (a b : Byte) (rest : List Byte),
    1 ≤ c.toNat → c.toNat ≤ 6 → 0 < dcap →
    runUnit (packPick final) c dcap (a :: b :: rest) =
      Run.after 1
        [BitVec.ofNat 8 ((((a.toNat &&& 0x7F) >>> (c.toNat - 1)) ||| ((b.toNat &&& 0x7F) <<< (8 - c.toNat))) &&& 0xFF)]
        (runUnit (packPick final) (c + 1#3) (dcap - 1) (b :: rest))

/-- R203: at cursor 7, with a partner and room, the octet is ((a >> 6) | (b << 1)) & 0xFF; both bytes are consumed and the
cursor is 1. -/
def Obligations.PackPair7Step : Prop :=
  ∀ (final : Bool) (dcap : Nat) (a b : Byte) (rest : List Byte), 0 < dcap →
    runUnit (packPick final) 7#3 dcap (a :: b :: rest) =
      Run.after 2
        [BitVec.ofNat 8 ((((a.toNat &&& 0x7F) >>> 6) ||| ((b.toNat &&& 0x7F) <<< 1)) &&& 0xFF)]
        (runUnit (packPick final) 1#3 (dcap - 1) rest)

/-- R204, R209: the last septet of a stream, with room, gives the octet a >> (c-1); the command ends with the byte consumed
and the cursor advanced, 7 to 1. -/
def Obligations.PackTailStep : Prop :=
  ∀ (c : BitVec 3) (dcap : Nat) (a : Byte), 1 ≤ c.toNat → 0 < dcap →
    runUnit (packPick true) c dcap [a] =
      ⟨1, [[BitVec.ofNat 8 ((a.toNat &&& 0x7F) >>> (c.toNat - 1))]], if c = 7#3 then 1#3 else c + 1#3, .ok⟩

/-- R205, R206, R265: a single septet of a chunk that is not final is held, whatever the room; an exhausted input returns OK
whatever the room; a pairing or tail step without room returns DestinationFull. In each case nothing is consumed or
written and the cursor stays. -/
def Obligations.PackStops : Prop :=
  (∀ (c : BitVec 3) (dcap : Nat) (a : Byte), runUnit (packPick false) c dcap [a] = ⟨0, [], c, .ok⟩) ∧
  (∀ (final : Bool) (c : BitVec 3) (dcap : Nat), runUnit (packPick final) c dcap [] = ⟨0, [], c, .ok⟩) ∧
  (∀ (final : Bool) (c : BitVec 3) (a b : Byte) (rest : List Byte),
    runUnit (packPick final) c 0 (a :: b :: rest) = ⟨0, [], c, .destinationFull⟩) ∧
  (∀ (c : BitVec 3) (a : Byte), runUnit (packPick true) c 0 [a] = ⟨0, [], c, .destinationFull⟩)

/-! ### The unpacker's steps -/

/-- R221: with nothing pending and room, the byte written is ((b << (c-1)) & 0x7F) | carry, the new carry is b >> (8-c), and
at cursor 7 a septet is pending, else the cursor advances. -/
def Obligations.UnpackByteStep : Prop :=
  ∀ (c : BitVec 3) (carry : Septet) (dcap : Nat) (b : Byte) (rest : List Byte), 1 ≤ c.toNat → 0 < dcap →
    runUnit unpackPick ⟨c, carry, false⟩ dcap (b :: rest) =
      Run.after 1 [BitVec.ofNat 8 (((b.toNat <<< (c.toNat - 1)) &&& 0x7F) ||| carry.toNat)]
        (runUnit unpackPick
          ⟨if c = 7#3 then c else c + 1#3, BitVec.ofNat 7 (b.toNat >>> (8 - c.toNat)), decide (c = 7#3)⟩
          (dcap - 1) rest)

/-- R222, R223: a pending septet is written first, ahead of any input, and the unit is back at cursor 1 with carry 0. -/
def Obligations.UnpackFlushStep : Prop :=
  ∀ (c : BitVec 3) (carry : Septet) (dcap : Nat) (src : List Byte), 0 < dcap →
    runUnit unpackPick ⟨c, carry, true⟩ dcap src =
      Run.after 0 [BitVec.ofNat 8 carry.toNat] (runUnit unpackPick ⟨1#3, 0#7, false⟩ (dcap - 1) src)

/-- R224, R265: without room a pending septet makes the status DestinationFull even if no input is left, and so does a byte
to be processed; with neither the status is OK. Nothing changes. -/
def Obligations.UnpackStops : Prop :=
  (∀ (c : BitVec 3) (carry : Septet) (src : List Byte),
    runUnit unpackPick ⟨c, carry, true⟩ 0 src = ⟨0, [], ⟨c, carry, true⟩, .destinationFull⟩) ∧
  (∀ (c : BitVec 3) (carry : Septet) (b : Byte) (rest : List Byte),
    runUnit unpackPick ⟨c, carry, false⟩ 0 (b :: rest) = ⟨0, [], ⟨c, carry, false⟩, .destinationFull⟩) ∧
  (∀ (c : BitVec 3) (carry : Septet) (dcap : Nat),
    runUnit unpackPick ⟨c, carry, false⟩ dcap [] = ⟨0, [], ⟨c, carry, false⟩, .ok⟩)

/-! ### The decoder's steps -/

/-- R141: a code below 0x80 other than the escape code writes its base entry, if it fits, and consumes one byte. -/
def Obligations.DecodeBaseStep : Prop :=
  ∀ (t : Tables) (final : Bool) (dcap : Nat) (c : Septet) (rest : List Byte),
    c.setWidth 8 ≠ 0x1B#8 → (entryBytes t.baseDec[c.toNat]).length ≤ dcap →
    runUnit (decPick t final) () dcap (c.setWidth 8 :: rest) =
      Run.after 1 (entryBytes t.baseDec[c.toNat])
        (runUnit (decPick t final) () (dcap - (entryBytes t.baseDec[c.toNat]).length) rest)

/-- R142: the escape code and a byte that hits in ESCDEC write that entry, if it fits, and both bytes are consumed. -/
def Obligations.DecodeEscapeHitStep : Prop :=
  ∀ (t : Tables) (final : Bool) (dcap : Nat) (b : Byte) (e : DecodeEntry) (rest : List Byte),
    escDecAt t b = some e → (entryBytes e).length ≤ dcap →
    runUnit (decPick t final) () dcap (0x1B#8 :: b :: rest) =
      Run.after 2 (entryBytes e) (runUnit (decPick t final) () (dcap - (entryBytes e).length) rest)

/-- R143: the escape code and a byte that misses in ESCDEC write the base entry of the escape code, if it fits; the second
byte is not consumed and is the start of the next unit. -/
def Obligations.DecodeEscapeMissStep : Prop :=
  ∀ (t : Tables) (final : Bool) (dcap : Nat) (b : Byte) (rest : List Byte),
    escDecAt t b = none → (entryBytes t.baseDec[0x1B]).length ≤ dcap →
    runUnit (decPick t final) () dcap (0x1B#8 :: b :: rest) =
      Run.after 1 (entryBytes t.baseDec[0x1B])
        (runUnit (decPick t final) () (dcap - (entryBytes t.baseDec[0x1B]).length) (b :: rest))

/-- R144: a trailing escape code is held if the chunk is not final, whatever the room; on the final chunk it is decoded
through its own base entry. -/
def Obligations.DecodeTrailingEscape : Prop :=
  ∀ (t : Tables) (dcap : Nat),
    runUnit (decPick t false) () dcap [0x1B#8] = ⟨0, [], (), .ok⟩ ∧
    ((entryBytes t.baseDec[0x1B]).length ≤ dcap →
      runUnit (decPick t true) () dcap [0x1B#8] = ⟨1, [entryBytes t.baseDec[0x1B]], (), .ok⟩)

/-- R145: an entry that does not fit stops the command with DestinationFull, nothing of the unit consumed or written: for a
base code, for both bytes of an escape pair, and for an escape code decoded alone, the last of a stream included. An exhausted input returns OK whatever
the room. -/
def Obligations.DecodeStops : Prop :=
  (∀ (t : Tables) (final : Bool) (dcap : Nat) (c : Septet) (rest : List Byte),
    c.setWidth 8 ≠ 0x1B#8 → dcap < (entryBytes t.baseDec[c.toNat]).length →
    runUnit (decPick t final) () dcap (c.setWidth 8 :: rest) = ⟨0, [], (), .destinationFull⟩) ∧
  (∀ (t : Tables) (final : Bool) (dcap : Nat) (b : Byte) (e : DecodeEntry) (rest : List Byte),
    escDecAt t b = some e → dcap < (entryBytes e).length →
    runUnit (decPick t final) () dcap (0x1B#8 :: b :: rest) = ⟨0, [], (), .destinationFull⟩) ∧
  (∀ (t : Tables) (final : Bool) (dcap : Nat) (b : Byte) (rest : List Byte),
    escDecAt t b = none → dcap < (entryBytes t.baseDec[0x1B]).length →
    runUnit (decPick t final) () dcap (0x1B#8 :: b :: rest) = ⟨0, [], (), .destinationFull⟩) ∧
  (∀ (t : Tables) (dcap : Nat), dcap < (entryBytes t.baseDec[0x1B]).length →
    runUnit (decPick t true) () dcap [0x1B#8] = ⟨0, [], (), .destinationFull⟩) ∧
  (∀ (t : Tables) (final : Bool) (dcap : Nat), runUnit (decPick t final) () dcap [] = ⟨0, [], (), .ok⟩)

/-! ### The encoder's steps -/

/-- R163, R164: with room, an invalid unit, or a sequence cut short on the final chunk, writes one replacement byte and
consumes one byte. -/
def Obligations.EncodeInvalidStep : Prop :=
  ∀ (t : Tables) (repl : Byte) (final : Bool) (dcap : Nat) (b : Byte) (rest : List Byte), 2 ≤ dcap →
    (utf8Decode (b :: rest) = .invalid ∨ (utf8Decode (b :: rest) = .incomplete ∧ final = true)) →
    runUnit (encPick t repl final) () dcap (b :: rest) =
      Run.after 1 [repl] (runUnit (encPick t repl final) () (dcap - 1) rest)

/-- R166, R167: with room, a code point that the binary search finds in ENCTAB writes its GSM byte, doubled if it is the escape
code, and its whole sequence is consumed. -/
def Obligations.EncodeTableStep : Prop :=
  ∀ (t : Tables) (repl : Byte) (final : Bool) (dcap size k : Nat) (src : List Byte) (p : EncPair), 2 ≤ dcap →
    binSearch t.encTab p.cp = some k → t.encTab[k]? = some p → utf8Decode src = .valid p.cp size →
    runUnit (encPick t repl final) () dcap src =
      if p.gsm = 0x1B#8 then
        Run.after size [0x1B#8, 0x1B#8] (runUnit (encPick t repl final) () (dcap - 2) (src.drop size))
      else Run.after size [p.gsm] (runUnit (encPick t repl final) () (dcap - 1) (src.drop size))

/-- R168, R169: with room, a code point that the binary search does not find in ENCTAB and EXTTAB holds writes the two bytes of
its first entry there, as stored, and its whole sequence is consumed. -/
def Obligations.EncodeExtensionStep : Prop :=
  ∀ (t : Tables) (repl : Byte) (final : Bool) (dcap size : Nat) (src : List Byte) (before after : List ExtTriple)
    (x : ExtTriple), 2 ≤ dcap →
    t.extTab = before ++ x :: after → (∀ y ∈ before, y.cp ≠ x.cp) → binSearch t.encTab x.cp = none →
    utf8Decode src = .valid x.cp size →
    runUnit (encPick t repl final) () dcap src =
      Run.after size [x.esc, x.gsm] (runUnit (encPick t repl final) () (dcap - 2) (src.drop size))

/-- R170, R174: with room, a code point found in neither table writes the replacement byte once, as the register holds it, and its
whole sequence is consumed. -/
def Obligations.EncodeReplacementStep : Prop :=
  ∀ (t : Tables) (repl : Byte) (final : Bool) (dcap size : Nat) (src : List Byte) (cp : CodePoint), 2 ≤ dcap →
    binSearch t.encTab cp = none → (∀ x ∈ t.extTab, x.cp ≠ cp) → utf8Decode src = .valid cp size →
    runUnit (encPick t repl final) () dcap src =
      Run.after size [repl] (runUnit (encPick t repl final) () (dcap - 1) (src.drop size))

/-- R161, R164, R265: with input left and less than two bytes of room the encoder returns DestinationFull before it looks at
the input; a sequence cut short on a chunk that is not final is held if there is that room; an exhausted input returns OK
whatever the room. -/
def Obligations.EncodeStops : Prop :=
  (∀ (t : Tables) (repl : Byte) (final : Bool) (dcap : Nat) (b : Byte) (rest : List Byte), dcap < 2 →
    runUnit (encPick t repl final) () dcap (b :: rest) = ⟨0, [], (), .destinationFull⟩) ∧
  (∀ (t : Tables) (repl : Byte) (dcap : Nat) (b : Byte) (rest : List Byte), 2 ≤ dcap →
    utf8Decode (b :: rest) = .incomplete →
    runUnit (encPick t repl false) () dcap (b :: rest) = ⟨0, [], (), .ok⟩) ∧
  (∀ (t : Tables) (repl : Byte) (final : Bool) (dcap : Nat),
    runUnit (encPick t repl final) () dcap [] = ⟨0, [], (), .ok⟩)

/-- R165: on an ascending table the binary search finds exactly the index that holds the code point; and on any table of fewer
than 2^n entries, ascending or not, n probes decide the search: ceil(log2(N_ENC + 1)) are enough, 8 for 128 entries. -/
def Obligations.BinarySearchIsExact : Prop :=
  (∀ (t : Tables) (cp : CodePoint) (k : Nat), t.ascending →
    (binSearch t.encTab cp = some k ↔ ∃ p, t.encTab[k]? = some p ∧ p.cp = cp)) ∧
  ∀ (tab : List EncPair) (cp : CodePoint) (n : Nat), tab.length < 2 ^ n →
    binSearchLoop tab cp n 0 tab.length = binSearch tab cp

/-- R88: a result is VALID exactly if the input begins with the UTF-8 encoding of a code point that is no surrogate and at
most 0x10FFFF; the code point is that one and the size its length. -/
def Obligations.Utf8ValidIsWellFormed : Prop :=
  ∀ (r : List Byte) (cp : CodePoint) (size : Nat),
    utf8Decode r = .valid cp size ↔
      scalarValue cp = true ∧ size = (utf8Bytes cp).length ∧ utf8Bytes cp <+: r

/-- R89: a non-empty input is INCOMPLETE exactly if it is a proper prefix of a well-formed sequence. -/
def Obligations.Utf8IncompleteIsProperPrefix : Prop :=
  ∀ r : List Byte, r ≠ [] →
    (utf8Decode r = .incomplete ↔ ∃ cp, scalarValue cp = true ∧ r <+: utf8Bytes cp ∧ r ≠ utf8Bytes cp)

/-! ### Whole commands -/

/-- R123: with an empty SRC the decoder, the encoder, the packer, and the unpacker with nothing pending, return (0, 0, OK) and
change nothing; the unpacker with a septet pending writes it if there is room (and no command outstanding has that byte as
SRC, log 8) and returns DestinationFull if not. -/
def Obligations.EmptySourceCommands : Prop :=
  (∀ (s : State) (u : UnitId) (final : Bool), s.Accepts u → s.port.slen = 0 → (u = .unpack → s.unpkPend = false) →
    exec (xformOf u final) s =
      .next { s with links := s.links.set u (.outstanding s.port [] (some ⟨0, 0, .ok⟩)) }) ∧
  (∀ (s : State) (final : Bool), s.Accepts .unpack → s.port.slen = 0 → s.unpkPend = true → s.port.dcap = 0 →
    exec (.xformUnpack final) s =
      .next { s with links := s.links.set .unpack (.outstanding s.port [] (some ⟨0, 0, .destinationFull⟩)) }) ∧
  (∀ (s : State) (final : Bool), s.Accepts .unpack → s.port.slen = 0 → s.unpkPend = true → 0 < s.port.dcap →
    s.KeepsSrc [(s.port.dstAt, BitVec.ofNat 8 s.unpkCarry.toNat)] →
    exec (.xformUnpack final) s =
      .next { s with
        unpkCur := 1#3, unpkCarry := 0#7, unpkPend := false,
        links := s.links.set .unpack (.outstanding s.port [[(s.port.dstAt, BitVec.ofNat 8 s.unpkCarry.toNat)]]
          (some ⟨1, 0, .ok⟩)) })

/-- R116, R225: FINAL only replaces a hold by a step. A command without FINAL that did not hold (it returned DestinationFull,
or consumed all its input) leaves the same state as the same command with FINAL; the unpacker ignores FINAL altogether. -/
def Obligations.FinalOnlyReleasesHolds : Prop :=
  (∀ (s t : State) (u : UnitId) (w : List (List Host.Cell)) (r : Reply), exec (xformOf u false) s = .next t →
    t.link u = .outstanding s.port w (some r) → (r.status = .destinationFull ∨ r.nsrc = s.port.slen) →
    exec (xformOf u true) s = .next t) ∧
  ∀ s : State, exec (.xformUnpack true) s = exec (.xformUnpack false) s

/-- R244, R261: with the room that always suffices for its unit, a command that returns DestinationFull has committed at
least one step. -/
def Obligations.EnoughRoomMakesProgress : Prop :=
  ∀ (s t : State) (u : UnitId) (final : Bool) (w : List (List Host.Cell)) (r : Reply), exec (xformOf u final) s = .next t →
    t.link u = .outstanding s.port w (some r) → roomToAdvance u ≤ s.port.dcap → r.status = .destinationFull →
    0 < r.ndst + r.nsrc

/-- R175: the encoder writes at most two bytes for each byte it consumes, and with two bytes of room for each byte of SRC it
never returns DestinationFull. -/
def Obligations.EncoderOutputBound : Prop :=
  ∀ (s t : State) (final : Bool) (w : List (List Host.Cell)) (r : Reply), exec (.xformEnc final) s = .next t →
    t.link .enc = .outstanding s.port w (some r) →
    r.ndst ≤ 2 * r.nsrc ∧ (2 * s.port.slen ≤ s.port.dcap → r.status = .ok)

/-- The frame of every command outside memory: the registers of the other units, ENC.REPL for every command but SETREPL, the
tables, the port, the host's events and returns, and the other units' command interfaces are unchanged (R39, R34, R25). -/
def Obligations.CommandsKeepOtherState : Prop :=
  ∀ (i : Instr) (s t : State), exec i s = .next t →
    (i.unit ≠ .pack → t.packCur = s.packCur) ∧
    (i.unit ≠ .unpack → t.unpkCur = s.unpkCur ∧ t.unpkCarry = s.unpkCarry ∧ t.unpkPend = s.unpkPend) ∧
    ((∀ b, i ≠ .setRepl b) → t.encRepl = s.encRepl) ∧
    t.rom = s.rom ∧ t.port = s.port ∧ t.host = s.host ∧ t.returns = s.returns ∧ t.choices = s.choices ∧
    ∀ v, v ≠ i.unit → t.link v = s.link v

/-- The frame of memory. An XFORM command that answers a next state has counts within its operands and exactly the bytes of
dst[0..NDST) to write (R56, R122). That memory is as before until its return is the model's choice (log 2). After its
return each byte of dst[0..NDST) holds the command's output, and every other byte reads as before, but where another
command outstanding writes that byte too (log 9); with no byte in common, all of dst[0..NDST) is the output and all else
as before (R61). RESET and SETREPL leave all of memory as it was, their return too (R50). -/
def Obligations.CommandsWriteOnlyTheirOutput : Prop :=
  (∀ (s t : State) (u : UnitId) (final : Bool), exec (xformOf u final) s = .next t →
    ∃ (outs : List (List Byte)) (out : List Byte) (r : Reply), out = outs.flatten ∧
      t.link u = .outstanding s.port (dstSteps s.port outs) (some r) ∧
      r.ndst = out.length ∧ r.ndst ≤ s.port.dcap ∧ r.nsrc ≤ s.port.slen ∧ t.mem = s.mem ∧
      (∀ k, k < r.ndst →
        Memory.read (t.takeReturn u).mem (s.port.dstAt + k) = out.getD k 0#8 ∨
        ∃ v, v ≠ u ∧ (s.port.dstAt + k, Memory.read (t.takeReturn u).mem (s.port.dstAt + k)) ∈ (s.link v).writes) ∧
      (∀ a, (a < s.port.dstAt ∨ s.port.dstAt + r.ndst ≤ a) →
        Memory.read (t.takeReturn u).mem a = Memory.read s.mem a ∨
        ∃ v, v ≠ u ∧ (a, Memory.read (t.takeReturn u).mem a) ∈ (s.link v).writes) ∧
      ((∀ v, v ≠ u → ∀ x ∈ (s.link v).writes, x.1 < s.port.dstAt ∨ s.port.dstAt + r.ndst ≤ x.1) →
        Memory.readBytes (t.takeReturn u).mem s.port.dstAt r.ndst = out ∧
        ∀ a, (a < s.port.dstAt ∨ s.port.dstAt + r.ndst ≤ a) →
          Memory.read (t.takeReturn u).mem a = Memory.read s.mem a)) ∧
  (∀ (s t : State) (u : UnitId), exec (resetOf u) s = .next t → t.mem = s.mem ∧ (t.takeReturn u).mem = s.mem) ∧
  (∀ (s t : State) (imm8 : Byte), exec (.setRepl imm8) s = .next t →
    t.mem = s.mem ∧ (t.takeReturn .enc).mem = s.mem)

/-- R39, R148, R176: what an XFORM command returns, writes and leaves in its unit depends on nothing but the unit's own
registers, its tables, DCAP and the bytes of SRC: not on earlier commands, on other units or on where the regions lie. -/
def Obligations.ResultsDependOnOwnUnitOnly : Prop :=
  ∀ (s s' t t' : State) (u : UnitId) (final : Bool) (w w' : List (List Host.Cell)) (r r' : Reply), sameUnit u s s' →
    s.port.dcap = s'.port.dcap → s.srcBytes = s'.srcBytes →
    exec (xformOf u final) s = .next t → exec (xformOf u final) s' = .next t' →
    t.link u = .outstanding s.port w (some r) → t'.link u = .outstanding s'.port w' (some r') →
    r = r' ∧ sameRegs u t t' ∧ w.map (List.map Prod.snd) = w'.map (List.map Prod.snd)

/-- R117, R263: no command ends in a fault. The model's only fault, `stepBound`, stands for a command of more than slen + dcap
steps (log 18), so every command terminates within them. -/
def Obligations.CommandsNeverFault : Prop :=
  ∀ (i : Instr) (s : State) (f : Fault), exec i s ≠ .fault f

/-- The invariant holds after reset (R20, R25, R35). -/
def Obligations.ResetMeetsTheInvariant : Prop :=
  State.reset.Inv

/-- Every step keeps the invariant: legal registers (R25, R35), canonical memory, and counts within the operands (R122). -/
def Obligations.StepKeepsTheInvariant : Prop :=
  ∀ s t : State, s.Inv → step s = .next t → t.Inv

/-- R60: two commands to different units, issued one after the other, may be issued in the other order and leave the same state,
but for the operands that stand at the port last. With DST regions apart from each other and from what is outstanding,
their returns may be swapped with them: the same state again, but for the port and the order of the two returns. -/
def Obligations.CommandsToDifferentUnitsCommute : Prop :=
  (∀ (s t t' : State) (c d : Command) (es : List HostEvent) (i j : Instr) (ri rj : List Byte),
    decode c.bytes = .ok (i, ri) → decode d.bytes = .ok (j, rj) → i.unit ≠ j.unit →
    s.host = .issue c :: .issue d :: es → step s = .next t → step t = .next t' →
    ∃ v, step { s with host := .issue d :: .issue c :: es } = .next v ∧
      step v = .next { t' with port := c.args }) ∧
  ∀ (s t : State) (c d : Command) (es : List HostEvent) (i j : Instr) (ri rj : List Byte), s.Inv →
    decode c.bytes = .ok (i, ri) → decode d.bytes = .ok (j, rj) → i.unit ≠ j.unit → dstClash c.args d.args = false →
    (∀ u, dstClash c.args (s.link u).args = false ∧ dstClash d.args (s.link u).args = false) →
    core.run 4 { s with host := .issue c :: .issue d :: .ret i.unit :: .ret j.unit :: es } = .next t →
    ∃ r r', t.returns = s.returns ++ [r, r'] ∧
      core.run 4 { s with host := .issue d :: .issue c :: .ret j.unit :: .ret i.unit :: es } =
        .next { t with port := c.args, returns := s.returns ++ [r', r] }

/-! ### Streams -/

/-- R208, R210, R55: from the start of a stream the packer's output is the septets' bit stream in groups of eight bits, zero
filled, in n - floor(n/8) octets. -/
def Obligations.PackedStreamIsTheBitStream : Prop :=
  ∀ (s : State) (x : List Byte), s.AllIdle → s.atStart .pack = true →
    ∃ out, s.streamOut .pack x = some out ∧ out.length = x.length - x.length / 8 ∧
      ∀ k i, k < out.length → i < 8 → (out.getD k 0#8).getLsbD i = septetStreamBit x (8 * k + i)

/-- R208: after a command without FINAL from the start of a stream, the count of septets consumed is never 7 modulo 8, and the
cursor is one more than it modulo 8. -/
def Obligations.PackCursorCountsSeptets : Prop :=
  ∀ (s : State) (x : List Byte) (dcap : Nat) (a : Answer), s.AllIdle → s.atStart .pack = true →
    s.send (.xformPack false) x dcap = some a →
    a.reply.nsrc % 8 ≠ 7 ∧ a.state.packCur.toNat = a.reply.nsrc % 8 + 1

/-- R228, R230, R55: from the start of a stream the unpacker gives the octets' bit stream in groups of seven bits, in
m + floor(m/7) septets, each below 0x80; the cursor and the carry are what the m octets leave over. -/
def Obligations.UnpackedStreamIsTheBitStream : Prop :=
  ∀ (s : State) (final : Bool) (x : List Byte), s.AllIdle → s.atStart .unpack = true →
    ∃ a, s.send (.xformUnpack final) x (3 * x.length + 1) = some a ∧ a.reply.status = .ok ∧
      a.reply.nsrc = x.length ∧ a.out.length = x.length + x.length / 7 ∧
      (∀ j i, j < a.out.length → i < 7 → (a.out.getD j 0#8).getLsbD i = octetStreamBit x (7 * j + i)) ∧
      (∀ j, j < a.out.length → (a.out.getD j 0#8).toNat < 0x80) ∧
      a.state.unpkPend = false ∧ a.state.unpkCur.toNat = x.length % 7 + 1 ∧
      a.state.unpkCarry.toNat = (x.getLastD 0#8).toNat >>> (8 - x.length % 7)

/-- R240: unpacking what the packer made of a septet stream gives it back, bit 7 of every byte cleared, with one septet of
value 0 appended if its length is 7 modulo 8. -/
def Obligations.PackUnpackRoundTrip : Prop :=
  ∀ (s : State) (x : List Byte), s.AllIdle → s.atStart .pack = true → s.atStart .unpack = true →
    ∃ w, s.streamOut .pack x = some w ∧
      s.streamOut .unpack w =
        some (x.map (fun b => b &&& 0x7F#8) ++ (if x.length % 8 = 7 then [0#8] else []))

/-- R245: after any command of a stream, re-issuing with the unconsumed rest continues exactly where it stopped: its output
followed by the output on the rest is the output on the whole. -/
def Obligations.RestContinuesTheStream : Prop :=
  ∀ (s : State) (u : UnitId) (final : Bool) (x w : List Byte) (dcap : Nat) (a : Answer), s.AllIdle →
    s.send (xformOf u final) x dcap = some a → s.streamOut u x = some w →
    ∃ v, a.state.streamOut u (resumeInput x a.reply.nsrc []) = some v ∧ w = a.out ++ v

/-- R243, R119: however a stream is cut into chunks and whatever room is offered, a driver that ends the stream has the output
of one command on all of it, and no input left over. -/
def Obligations.ChunkingDoesNotChangeTheOutput : Prop :=
  ∀ (s : State) (u : UnitId) (ts : List Turn) (d : Driven), s.AllIdle → turnsOk ts = true →
    s.drive u [] ts = some d → driveDone ts d = true →
    s.streamOut u (turnsInput ts) = some d.out ∧ d.rest = []

/-- R244: whatever room is offered, 0 and 1 included, what the driver has at any point is a prefix of the stream's output. -/
def Obligations.DriverOutputIsAPrefix : Prop :=
  ∀ (s : State) (u : UnitId) (ts : List Turn) (d : Driven) (w : List Byte), s.AllIdle → turnsOk ts = true →
    s.drive u [] ts = some d → s.streamOut u (turnsInput ts) = some w → d.out <+: w

/-- R242: a unit that RESET has run on gives, on any turns of the driver, what a unit in its start-of-stream condition gives,
if the tables and the replacement byte are the same; and RESET twice is RESET once. -/
def Obligations.ResetUnitIsAsFresh : Prop :=
  ∀ (s s' t : State) (u : UnitId), s.AllIdle → s'.AllIdle → s.rom = s'.rom → s.encRepl = s'.encRepl →
    s'.atStart u = true → exec (resetOf u) s = .next t →
    (∀ (pending : List Byte) (ts : List Turn),
      ((t.takeReturn u).drive u pending ts).map (fun d => (d.out, d.rest, d.replies)) =
        (s'.drive u pending ts).map (fun d => (d.out, d.rest, d.replies))) ∧
    exec (resetOf u) (t.setLink u .idle) = .next t

/-- R241: with ascending and consistent tables, decoding what the encoder made of a text of code points the round trip covers
gives the text back. -/
def Obligations.EncodeDecodeRoundTrip : Prop :=
  ∀ (s : State) (cps : List CodePoint), s.AllIdle → s.rom.ascending → s.rom.Consistent →
    (∀ cp ∈ cps, scalarValue cp = true ∧ s.rom.RoundTrips cp) →
    ∃ w, s.streamOut .enc (cps.flatMap utf8Bytes) = some w ∧
      s.streamOut .dec w = some (cps.flatMap utf8Bytes)

/-- R246: through all four units, text to octets and back, the text comes back, with the character of code 0 appended if the
encoder gave 7 modulo 8 septets. The extension codes are septets. -/
def Obligations.WholePipelineRoundTrip : Prop :=
  ∀ (s : State) (cps : List CodePoint), s.AllIdle → s.atStart .pack = true → s.atStart .unpack = true →
    s.rom.ascending → s.rom.Consistent → (∀ x ∈ s.rom.extTab, x.gsm.toNat < 0x80) →
    (∀ cp ∈ cps, scalarValue cp = true ∧ s.rom.RoundTrips cp) →
    ∃ g w h, s.streamOut .enc (cps.flatMap utf8Bytes) = some g ∧ s.streamOut .pack g = some w ∧
      s.streamOut .unpack w = some h ∧
      s.streamOut .dec h =
        some (cps.flatMap utf8Bytes ++ (if g.length % 8 = 7 then entryBytes s.rom.baseDec[0] else []))
end

