-- ==== Sys2Proof/Laws/Memory.lean ====
section
/-!
SUPPORT. The laws of the host's memory: a read after a write, bytes left alone, the canonical form kept, and equality of
canonical memories. The read laws hold for every list, canonical or not.
-/

namespace Sys2Proof.Machine

@[simp] theorem Memory.read_nil (a : Nat) : Memory.read [] a = unwritten := rfl

theorem Memory.read_cons (k : Nat) (v : Byte) (m : Memory) (a : Nat) :
    Memory.read ((k, v) :: m) a = if k = a then v else Memory.read m a := rfl

theorem Memory.read_erase_same (m : Memory) (a : Nat) : Memory.read (Memory.erase m a) a = unwritten := by
  induction m with
  | nil => rfl
  | cons x m ih =>
    obtain ⟨k, v⟩ := x
    unfold Memory.erase at *
    by_cases h : k = a <;> simp [Memory.read_cons, h, ih]

theorem Memory.read_erase_other (m : Memory) {a x : Nat} (h : x ≠ a) :
    Memory.read (Memory.erase m a) x = Memory.read m x := by
  induction m with
  | nil => rfl
  | cons y m ih =>
    obtain ⟨k, v⟩ := y
    unfold Memory.erase at *
    by_cases hk : k = a
    · simp [Memory.read_cons, hk, ih, Ne.symm h]
    · simp [Memory.read_cons, hk, ih]

theorem Memory.read_place_same (m : Memory) (a : Nat) (v : Byte) (h : ∀ x ∈ m, x.1 ≠ a) :
    Memory.read (Memory.place m a v) a = v := by
  induction m with
  | nil => simp [Memory.place, Memory.read_cons]
  | cons y m ih =>
    obtain ⟨k, w⟩ := y
    have hk : k ≠ a := h (k, w) (by simp)
    unfold Memory.place
    split
    · simp [Memory.read_cons]
    · simp [Memory.read_cons, hk, ih (fun x hx => h x (by simp [hx]))]

theorem Memory.read_place_other (m : Memory) {a x : Nat} (v : Byte) (h : x ≠ a) :
    Memory.read (Memory.place m a v) x = Memory.read m x := by
  induction m with
  | nil => simp [Memory.place, Memory.read_cons, Ne.symm h]
  | cons y m ih =>
    obtain ⟨k, w⟩ := y
    unfold Memory.place
    split
    · simp [Memory.read_cons, Ne.symm h]
    · simp [Memory.read_cons, ih]

theorem Memory.erase_absent (m : Memory) (a : Nat) : ∀ x ∈ Memory.erase m a, x.1 ≠ a := by
  intro x hx
  simpa using (List.mem_filter.mp hx).2

theorem Memory.read_write_same (m : Memory) (a : Nat) (v : Byte) : Memory.read (Memory.write m a v) a = v := by
  unfold Memory.write
  split
  · rename_i h
    rw [Memory.read_erase_same, h]
  · exact Memory.read_place_same _ _ _ (Memory.erase_absent m a)

theorem Memory.read_write_other (m : Memory) {a x : Nat} (v : Byte) (h : x ≠ a) :
    Memory.read (Memory.write m a v) x = Memory.read m x := by
  unfold Memory.write
  split
  · exact Memory.read_erase_other m h
  · rw [Memory.read_place_other _ _ h, Memory.read_erase_other m h]

theorem Memory.read_write (m : Memory) (a x : Nat) (v : Byte) :
    Memory.read (Memory.write m a v) x = if x = a then v else Memory.read m x := by
  split
  · rename_i h
    rw [h, Memory.read_write_same]
  · rename_i h
    exact Memory.read_write_other m v h

/-- What `writeBytes` leaves at every address: the byte it wrote there, or what was there. -/
theorem Memory.read_writeBytes (m : Memory) (a : Nat) (bs : List Byte) (x : Nat) :
    Memory.read (Memory.writeBytes m a bs) x =
      if a ≤ x ∧ x < a + bs.length then bs.getD (x - a) 0#8 else Memory.read m x := by
  induction bs generalizing m a with
  | nil =>
    have : ¬ (a ≤ x ∧ x < a + ([] : List Byte).length) := by simp
    simp only [Memory.writeBytes, if_neg this]
  | cons b bs ih =>
    rw [Memory.writeBytes, ih, Memory.read_write]
    by_cases h0 : x = a
    · subst h0
      simp
    · by_cases h1 : a + 1 ≤ x ∧ x < a + 1 + bs.length
      · have h2 : a ≤ x ∧ x < a + (b :: bs).length := by simp; omega
        have h3 : x - a = (x - (a + 1)) + 1 := by omega
        rw [if_pos h1, if_pos h2, h3, List.getD_cons_succ]
      · have h2 : ¬ (a ≤ x ∧ x < a + (b :: bs).length) := by simp; omega
        rw [if_neg h1, if_neg h2, if_neg h0]

theorem Memory.read_writeBytes_outside (m : Memory) (a : Nat) (bs : List Byte) (x : Nat)
    (h : x < a ∨ a + bs.length ≤ x) : Memory.read (Memory.writeBytes m a bs) x = Memory.read m x := by
  rw [Memory.read_writeBytes, if_neg (by omega)]

@[simp] theorem Memory.readBytes_length (m : Memory) (a n : Nat) : (Memory.readBytes m a n).length = n := by
  induction n generalizing a with
  | zero => rfl
  | succ n ih => simp [Memory.readBytes, ih]

theorem Memory.readBytes_congr (m m' : Memory) (a n : Nat)
    (h : ∀ x, a ≤ x → x < a + n → Memory.read m x = Memory.read m' x) :
    Memory.readBytes m a n = Memory.readBytes m' a n := by
  induction n generalizing a with
  | zero => rfl
  | succ n ih =>
    simp only [Memory.readBytes]
    rw [h a (by omega) (by omega), ih (a + 1) (fun x h1 h2 => h x (by omega) (by omega))]

/-- Bytes read back where they were written. -/
theorem Memory.readBytes_writeBytes (m : Memory) (a : Nat) (bs : List Byte) :
    Memory.readBytes (Memory.writeBytes m a bs) a bs.length = bs := by
  induction bs generalizing m a with
  | nil => rfl
  | cons b bs ih =>
    simp only [List.length_cons, Memory.readBytes, Memory.writeBytes]
    rw [ih, Memory.read_writeBytes_outside _ _ _ _ (by omega), Memory.read_write_same]

theorem Memory.wf_nil : Memory.wf [] := by simp [Memory.wf]

theorem Memory.wf_erase {m : Memory} (a : Nat) (h : Memory.wf m) : Memory.wf (Memory.erase m a) :=
  ⟨h.1.filter _, fun x hx => h.2 x (List.mem_of_mem_filter hx)⟩

theorem Memory.mem_place {m : Memory} {a : Nat} {v : Byte} {x : Host.Cell} :
    x ∈ Memory.place m a v ↔ x = (a, v) ∨ x ∈ m := by
  induction m with
  | nil => simp [Memory.place]
  | cons y m ih =>
    obtain ⟨k, w⟩ := y
    unfold Memory.place
    split
    · simp
    · simp [ih, or_left_comm]

theorem Memory.wf_place {m : Memory} {a : Nat} {v : Byte} (hv : v ≠ unwritten) (h : Memory.wf m)
    (ha : ∀ x ∈ m, x.1 ≠ a) : Memory.wf (Memory.place m a v) := by
  refine ⟨?_, fun x hx => ?_⟩
  · have hs := h.1
    clear h
    induction m with
    | nil => simp [Memory.place]
    | cons y m ih =>
      obtain ⟨k, w⟩ := y
      have hk : k ≠ a := ha (k, w) (by simp)
      rw [List.pairwise_cons] at hs
      unfold Memory.place
      split
      · rename_i hlt
        refine List.pairwise_cons.mpr ⟨fun x hx => ?_, List.pairwise_cons.mpr hs⟩
        rcases List.mem_cons.mp hx with rfl | hx
        · exact hlt
        · exact lt_trans hlt (hs.1 x hx)
      · rename_i hge
        refine List.pairwise_cons.mpr ⟨fun x hx => ?_, ih (fun x hx => ha x (by simp [hx])) hs.2⟩
        rcases Memory.mem_place.mp hx with rfl | hx
        · simp only; omega
        · exact hs.1 x hx
  · rcases Memory.mem_place.mp hx with rfl | hx
    · exact hv
    · exact h.2 x hx

/-- A write keeps the canonical form. -/
theorem Memory.wf_write {m : Memory} (a : Nat) (v : Byte) (h : Memory.wf m) : Memory.wf (Memory.write m a v) := by
  unfold Memory.write
  split
  · exact Memory.wf_erase a h
  · rename_i hv
    exact Memory.wf_place hv (Memory.wf_erase a h) (Memory.erase_absent m a)

/-- Writing a row of bytes keeps the canonical form. -/
theorem Memory.wf_writeBytes {m : Memory} (a : Nat) (bs : List Byte) (h : Memory.wf m) :
    Memory.wf (Memory.writeBytes m a bs) := by
  induction bs generalizing m a with
  | nil => exact h
  | cons b bs ih => exact ih (a + 1) (Memory.wf_write a b h)

theorem Memory.read_below {m : Memory} {a : Nat} (h : ∀ x ∈ m, a < x.1) : Memory.read m a = unwritten := by
  induction m with
  | nil => rfl
  | cons y m ih =>
    obtain ⟨k, w⟩ := y
    have hk : a < k := h (k, w) (by simp)
    rw [Memory.read_cons, if_neg (by omega), ih (fun x hx => h x (by simp [hx]))]

/-- Canonical memories that read the same are the same. -/
theorem Memory.ext_read {m m' : Memory} (h : Memory.wf m) (h' : Memory.wf m')
    (hr : ∀ a, Memory.read m a = Memory.read m' a) : m = m' := by
  induction m generalizing m' with
  | nil =>
    cases m' with
    | nil => rfl
    | cons y m' =>
      obtain ⟨k, w⟩ := y
      have := hr k
      rw [Memory.read_cons, if_pos rfl] at this
      exact absurd this.symm (h'.2 (k, w) (by simp))
  | cons x m ih =>
    obtain ⟨j, v⟩ := x
    have hs := List.pairwise_cons.mp h.1
    have hv : v ≠ unwritten := h.2 (j, v) (by simp)
    cases m' with
    | nil =>
      have := hr j
      rw [Memory.read_cons, if_pos rfl] at this
      exact absurd this hv
    | cons y m' =>
      obtain ⟨k, w⟩ := y
      have hs' := List.pairwise_cons.mp h'.1
      have hw : w ≠ unwritten := h'.2 (k, w) (by simp)
      have hjk : j = k := by
        rcases Nat.lt_trichotomy j k with hlt | heq | hlt
        · have := hr j
          rw [Memory.read_cons, if_pos rfl, Memory.read_below (a := j)] at this
          · exact absurd this hv
          · intro z hz
            rcases List.mem_cons.mp hz with rfl | hz
            · exact hlt
            · exact lt_trans hlt (hs'.1 z hz)
        · exact heq
        · have := hr k
          rw [Memory.read_cons (k := k), if_pos rfl, Memory.read_below (a := k)] at this
          · exact absurd this.symm hw
          · intro z hz
            rcases List.mem_cons.mp hz with rfl | hz
            · exact hlt
            · exact lt_trans hlt (hs.1 z hz)
      subst hjk
      have hvw : v = w := by simpa [Memory.read_cons] using hr j
      subst hvw
      have htail : m = m' := by
        refine ih ⟨hs.2, fun x hx => h.2 x (by simp [hx])⟩ ⟨hs'.2, fun x hx => h'.2 x (by simp [hx])⟩ (fun a => ?_)
        by_cases ha : j = a
        · subst ha
          rw [Memory.read_below (fun x hx => hs.1 x hx), Memory.read_below (fun x hx => hs'.1 x hx)]
        · simpa [Memory.read_cons, ha] using hr a
      rw [htail]

end Sys2Proof.Machine
end

