-- ==== Sys2Proof/Laws/State.lean ====
section
/-!
SUPPORT. What each update of State does to each field, and the command interfaces of the four units.
-/

namespace Sys2Proof.Machine

variable (s : State)

@[simp] theorem State.setPackCur_packCur (c : BitVec 3) : (s.setPackCur c).packCur = c := rfl
@[simp] theorem State.setPackCur_unpkCur (c : BitVec 3) : (s.setPackCur c).unpkCur = s.unpkCur := rfl
@[simp] theorem State.setPackCur_unpkCarry (c : BitVec 3) : (s.setPackCur c).unpkCarry = s.unpkCarry := rfl
@[simp] theorem State.setPackCur_unpkPend (c : BitVec 3) : (s.setPackCur c).unpkPend = s.unpkPend := rfl
@[simp] theorem State.setPackCur_encRepl (c : BitVec 3) : (s.setPackCur c).encRepl = s.encRepl := rfl
@[simp] theorem State.setPackCur_rom (c : BitVec 3) : (s.setPackCur c).rom = s.rom := rfl
@[simp] theorem State.setPackCur_port (c : BitVec 3) : (s.setPackCur c).port = s.port := rfl
@[simp] theorem State.setPackCur_links (c : BitVec 3) : (s.setPackCur c).links = s.links := rfl
@[simp] theorem State.setPackCur_mem (c : BitVec 3) : (s.setPackCur c).mem = s.mem := rfl
@[simp] theorem State.setPackCur_host (c : BitVec 3) : (s.setPackCur c).host = s.host := rfl
@[simp] theorem State.setPackCur_returns (c : BitVec 3) : (s.setPackCur c).returns = s.returns := rfl
@[simp] theorem State.setPackCur_choices (c : BitVec 3) : (s.setPackCur c).choices = s.choices := rfl
@[simp] theorem State.setPackCur_link (c : BitVec 3) (v : UnitId) : (s.setPackCur c).link v = s.link v := rfl

@[simp] theorem State.setUnpk_packCur (c : BitVec 3) (k : Septet) (p : Bool) : (s.setUnpk c k p).packCur = s.packCur := rfl
@[simp] theorem State.setUnpk_unpkCur (c : BitVec 3) (k : Septet) (p : Bool) : (s.setUnpk c k p).unpkCur = c := rfl
@[simp] theorem State.setUnpk_unpkCarry (c : BitVec 3) (k : Septet) (p : Bool) : (s.setUnpk c k p).unpkCarry = k := rfl
@[simp] theorem State.setUnpk_unpkPend (c : BitVec 3) (k : Septet) (p : Bool) : (s.setUnpk c k p).unpkPend = p := rfl
@[simp] theorem State.setUnpk_encRepl (c : BitVec 3) (k : Septet) (p : Bool) : (s.setUnpk c k p).encRepl = s.encRepl := rfl
@[simp] theorem State.setUnpk_rom (c : BitVec 3) (k : Septet) (p : Bool) : (s.setUnpk c k p).rom = s.rom := rfl
@[simp] theorem State.setUnpk_port (c : BitVec 3) (k : Septet) (p : Bool) : (s.setUnpk c k p).port = s.port := rfl
@[simp] theorem State.setUnpk_links (c : BitVec 3) (k : Septet) (p : Bool) : (s.setUnpk c k p).links = s.links := rfl
@[simp] theorem State.setUnpk_mem (c : BitVec 3) (k : Septet) (p : Bool) : (s.setUnpk c k p).mem = s.mem := rfl
@[simp] theorem State.setUnpk_host (c : BitVec 3) (k : Septet) (p : Bool) : (s.setUnpk c k p).host = s.host := rfl
@[simp] theorem State.setUnpk_returns (c : BitVec 3) (k : Septet) (p : Bool) : (s.setUnpk c k p).returns = s.returns := rfl
@[simp] theorem State.setUnpk_choices (c : BitVec 3) (k : Septet) (p : Bool) : (s.setUnpk c k p).choices = s.choices := rfl
@[simp] theorem State.setUnpk_link (c : BitVec 3) (k : Septet) (p : Bool) (v : UnitId) : (s.setUnpk c k p).link v = s.link v := rfl

@[simp] theorem State.setEncRepl_packCur (b : Byte) : (s.setEncRepl b).packCur = s.packCur := rfl
@[simp] theorem State.setEncRepl_unpkCur (b : Byte) : (s.setEncRepl b).unpkCur = s.unpkCur := rfl
@[simp] theorem State.setEncRepl_unpkCarry (b : Byte) : (s.setEncRepl b).unpkCarry = s.unpkCarry := rfl
@[simp] theorem State.setEncRepl_unpkPend (b : Byte) : (s.setEncRepl b).unpkPend = s.unpkPend := rfl
@[simp] theorem State.setEncRepl_encRepl (b : Byte) : (s.setEncRepl b).encRepl = b := rfl
@[simp] theorem State.setEncRepl_rom (b : Byte) : (s.setEncRepl b).rom = s.rom := rfl
@[simp] theorem State.setEncRepl_port (b : Byte) : (s.setEncRepl b).port = s.port := rfl
@[simp] theorem State.setEncRepl_links (b : Byte) : (s.setEncRepl b).links = s.links := rfl
@[simp] theorem State.setEncRepl_mem (b : Byte) : (s.setEncRepl b).mem = s.mem := rfl
@[simp] theorem State.setEncRepl_host (b : Byte) : (s.setEncRepl b).host = s.host := rfl
@[simp] theorem State.setEncRepl_returns (b : Byte) : (s.setEncRepl b).returns = s.returns := rfl
@[simp] theorem State.setEncRepl_choices (b : Byte) : (s.setEncRepl b).choices = s.choices := rfl
@[simp] theorem State.setEncRepl_link (b : Byte) (v : UnitId) : (s.setEncRepl b).link v = s.link v := rfl

@[simp] theorem State.setMem_packCur (m : Memory) : (s.setMem m).packCur = s.packCur := rfl
@[simp] theorem State.setMem_unpkCur (m : Memory) : (s.setMem m).unpkCur = s.unpkCur := rfl
@[simp] theorem State.setMem_unpkCarry (m : Memory) : (s.setMem m).unpkCarry = s.unpkCarry := rfl
@[simp] theorem State.setMem_unpkPend (m : Memory) : (s.setMem m).unpkPend = s.unpkPend := rfl
@[simp] theorem State.setMem_encRepl (m : Memory) : (s.setMem m).encRepl = s.encRepl := rfl
@[simp] theorem State.setMem_rom (m : Memory) : (s.setMem m).rom = s.rom := rfl
@[simp] theorem State.setMem_port (m : Memory) : (s.setMem m).port = s.port := rfl
@[simp] theorem State.setMem_links (m : Memory) : (s.setMem m).links = s.links := rfl
@[simp] theorem State.setMem_mem (m : Memory) : (s.setMem m).mem = m := rfl
@[simp] theorem State.setMem_host (m : Memory) : (s.setMem m).host = s.host := rfl
@[simp] theorem State.setMem_returns (m : Memory) : (s.setMem m).returns = s.returns := rfl
@[simp] theorem State.setMem_choices (m : Memory) : (s.setMem m).choices = s.choices := rfl
@[simp] theorem State.setMem_link (m : Memory) (v : UnitId) : (s.setMem m).link v = s.link v := rfl

@[simp] theorem State.setPort_packCur (o : Operands) : (s.setPort o).packCur = s.packCur := rfl
@[simp] theorem State.setPort_unpkCur (o : Operands) : (s.setPort o).unpkCur = s.unpkCur := rfl
@[simp] theorem State.setPort_unpkCarry (o : Operands) : (s.setPort o).unpkCarry = s.unpkCarry := rfl
@[simp] theorem State.setPort_unpkPend (o : Operands) : (s.setPort o).unpkPend = s.unpkPend := rfl
@[simp] theorem State.setPort_encRepl (o : Operands) : (s.setPort o).encRepl = s.encRepl := rfl
@[simp] theorem State.setPort_rom (o : Operands) : (s.setPort o).rom = s.rom := rfl
@[simp] theorem State.setPort_port (o : Operands) : (s.setPort o).port = o := rfl
@[simp] theorem State.setPort_links (o : Operands) : (s.setPort o).links = s.links := rfl
@[simp] theorem State.setPort_mem (o : Operands) : (s.setPort o).mem = s.mem := rfl
@[simp] theorem State.setPort_host (o : Operands) : (s.setPort o).host = s.host := rfl
@[simp] theorem State.setPort_returns (o : Operands) : (s.setPort o).returns = s.returns := rfl
@[simp] theorem State.setPort_choices (o : Operands) : (s.setPort o).choices = s.choices := rfl
@[simp] theorem State.setPort_link (o : Operands) (v : UnitId) : (s.setPort o).link v = s.link v := rfl

@[simp] theorem State.setHost_packCur (es : List HostEvent) : (s.setHost es).packCur = s.packCur := rfl
@[simp] theorem State.setHost_unpkCur (es : List HostEvent) : (s.setHost es).unpkCur = s.unpkCur := rfl
@[simp] theorem State.setHost_unpkCarry (es : List HostEvent) : (s.setHost es).unpkCarry = s.unpkCarry := rfl
@[simp] theorem State.setHost_unpkPend (es : List HostEvent) : (s.setHost es).unpkPend = s.unpkPend := rfl
@[simp] theorem State.setHost_encRepl (es : List HostEvent) : (s.setHost es).encRepl = s.encRepl := rfl
@[simp] theorem State.setHost_rom (es : List HostEvent) : (s.setHost es).rom = s.rom := rfl
@[simp] theorem State.setHost_port (es : List HostEvent) : (s.setHost es).port = s.port := rfl
@[simp] theorem State.setHost_links (es : List HostEvent) : (s.setHost es).links = s.links := rfl
@[simp] theorem State.setHost_mem (es : List HostEvent) : (s.setHost es).mem = s.mem := rfl
@[simp] theorem State.setHost_host (es : List HostEvent) : (s.setHost es).host = es := rfl
@[simp] theorem State.setHost_returns (es : List HostEvent) : (s.setHost es).returns = s.returns := rfl
@[simp] theorem State.setHost_choices (es : List HostEvent) : (s.setHost es).choices = s.choices := rfl
@[simp] theorem State.setHost_link (es : List HostEvent) (v : UnitId) : (s.setHost es).link v = s.link v := rfl

@[simp] theorem State.setReturns_packCur (rs : List Return) : (s.setReturns rs).packCur = s.packCur := rfl
@[simp] theorem State.setReturns_unpkCur (rs : List Return) : (s.setReturns rs).unpkCur = s.unpkCur := rfl
@[simp] theorem State.setReturns_unpkCarry (rs : List Return) : (s.setReturns rs).unpkCarry = s.unpkCarry := rfl
@[simp] theorem State.setReturns_unpkPend (rs : List Return) : (s.setReturns rs).unpkPend = s.unpkPend := rfl
@[simp] theorem State.setReturns_encRepl (rs : List Return) : (s.setReturns rs).encRepl = s.encRepl := rfl
@[simp] theorem State.setReturns_rom (rs : List Return) : (s.setReturns rs).rom = s.rom := rfl
@[simp] theorem State.setReturns_port (rs : List Return) : (s.setReturns rs).port = s.port := rfl
@[simp] theorem State.setReturns_links (rs : List Return) : (s.setReturns rs).links = s.links := rfl
@[simp] theorem State.setReturns_mem (rs : List Return) : (s.setReturns rs).mem = s.mem := rfl
@[simp] theorem State.setReturns_host (rs : List Return) : (s.setReturns rs).host = s.host := rfl
@[simp] theorem State.setReturns_returns (rs : List Return) : (s.setReturns rs).returns = rs := rfl
@[simp] theorem State.setReturns_choices (rs : List Return) : (s.setReturns rs).choices = s.choices := rfl
@[simp] theorem State.setReturns_link (rs : List Return) (v : UnitId) : (s.setReturns rs).link v = s.link v := rfl

@[simp] theorem State.setChoices_packCur (n : Nat) : (s.setChoices n).packCur = s.packCur := rfl
@[simp] theorem State.setChoices_unpkCur (n : Nat) : (s.setChoices n).unpkCur = s.unpkCur := rfl
@[simp] theorem State.setChoices_unpkCarry (n : Nat) : (s.setChoices n).unpkCarry = s.unpkCarry := rfl
@[simp] theorem State.setChoices_unpkPend (n : Nat) : (s.setChoices n).unpkPend = s.unpkPend := rfl
@[simp] theorem State.setChoices_encRepl (n : Nat) : (s.setChoices n).encRepl = s.encRepl := rfl
@[simp] theorem State.setChoices_rom (n : Nat) : (s.setChoices n).rom = s.rom := rfl
@[simp] theorem State.setChoices_port (n : Nat) : (s.setChoices n).port = s.port := rfl
@[simp] theorem State.setChoices_links (n : Nat) : (s.setChoices n).links = s.links := rfl
@[simp] theorem State.setChoices_mem (n : Nat) : (s.setChoices n).mem = s.mem := rfl
@[simp] theorem State.setChoices_host (n : Nat) : (s.setChoices n).host = s.host := rfl
@[simp] theorem State.setChoices_returns (n : Nat) : (s.setChoices n).returns = s.returns := rfl
@[simp] theorem State.setChoices_choices (n : Nat) : (s.setChoices n).choices = n := rfl
@[simp] theorem State.setChoices_link (n : Nat) (v : UnitId) : (s.setChoices n).link v = s.link v := rfl

@[simp] theorem State.setLink_packCur (u : UnitId) (k : Link) : (s.setLink u k).packCur = s.packCur := rfl
@[simp] theorem State.setLink_unpkCur (u : UnitId) (k : Link) : (s.setLink u k).unpkCur = s.unpkCur := rfl
@[simp] theorem State.setLink_unpkCarry (u : UnitId) (k : Link) : (s.setLink u k).unpkCarry = s.unpkCarry := rfl
@[simp] theorem State.setLink_unpkPend (u : UnitId) (k : Link) : (s.setLink u k).unpkPend = s.unpkPend := rfl
@[simp] theorem State.setLink_encRepl (u : UnitId) (k : Link) : (s.setLink u k).encRepl = s.encRepl := rfl
@[simp] theorem State.setLink_rom (u : UnitId) (k : Link) : (s.setLink u k).rom = s.rom := rfl
@[simp] theorem State.setLink_port (u : UnitId) (k : Link) : (s.setLink u k).port = s.port := rfl
@[simp] theorem State.setLink_links (u : UnitId) (k : Link) : (s.setLink u k).links = s.links.set u k := rfl
@[simp] theorem State.setLink_mem (u : UnitId) (k : Link) : (s.setLink u k).mem = s.mem := rfl
@[simp] theorem State.setLink_host (u : UnitId) (k : Link) : (s.setLink u k).host = s.host := rfl
@[simp] theorem State.setLink_returns (u : UnitId) (k : Link) : (s.setLink u k).returns = s.returns := rfl
@[simp] theorem State.setLink_choices (u : UnitId) (k : Link) : (s.setLink u k).choices = s.choices := rfl

@[simp] theorem State.setIdle_packCur : s.setIdle.packCur = s.packCur := rfl
@[simp] theorem State.setIdle_unpkCur : s.setIdle.unpkCur = s.unpkCur := rfl
@[simp] theorem State.setIdle_unpkCarry : s.setIdle.unpkCarry = s.unpkCarry := rfl
@[simp] theorem State.setIdle_unpkPend : s.setIdle.unpkPend = s.unpkPend := rfl
@[simp] theorem State.setIdle_encRepl : s.setIdle.encRepl = s.encRepl := rfl
@[simp] theorem State.setIdle_rom : s.setIdle.rom = s.rom := rfl
@[simp] theorem State.setIdle_port : s.setIdle.port = s.port := rfl
@[simp] theorem State.setIdle_mem : s.setIdle.mem = s.mem := rfl
@[simp] theorem State.setIdle_host : s.setIdle.host = s.host := rfl
@[simp] theorem State.setIdle_returns : s.setIdle.returns = s.returns := rfl
@[simp] theorem State.setIdle_choices : s.setIdle.choices = s.choices := rfl
@[simp] theorem State.setIdle_link (v : UnitId) : s.setIdle.link v = .idle := by cases v <;> rfl

@[simp] theorem State.endCommand_packCur (u : UnitId) (o : Operands) (w : List (List Host.Cell)) (r : Option Reply) :
    (s.endCommand u o w r).packCur = s.packCur := rfl
@[simp] theorem State.endCommand_unpkCur (u : UnitId) (o : Operands) (w : List (List Host.Cell)) (r : Option Reply) :
    (s.endCommand u o w r).unpkCur = s.unpkCur := rfl
@[simp] theorem State.endCommand_unpkCarry (u : UnitId) (o : Operands) (w : List (List Host.Cell)) (r : Option Reply) :
    (s.endCommand u o w r).unpkCarry = s.unpkCarry := rfl
@[simp] theorem State.endCommand_unpkPend (u : UnitId) (o : Operands) (w : List (List Host.Cell)) (r : Option Reply) :
    (s.endCommand u o w r).unpkPend = s.unpkPend := rfl
@[simp] theorem State.endCommand_encRepl (u : UnitId) (o : Operands) (w : List (List Host.Cell)) (r : Option Reply) :
    (s.endCommand u o w r).encRepl = s.encRepl := rfl
@[simp] theorem State.endCommand_rom (u : UnitId) (o : Operands) (w : List (List Host.Cell)) (r : Option Reply) :
    (s.endCommand u o w r).rom = s.rom := rfl
@[simp] theorem State.endCommand_port (u : UnitId) (o : Operands) (w : List (List Host.Cell)) (r : Option Reply) :
    (s.endCommand u o w r).port = s.port := rfl
@[simp] theorem State.endCommand_links (u : UnitId) (o : Operands) (w : List (List Host.Cell)) (r : Option Reply) :
    (s.endCommand u o w r).links = s.links.set u (.outstanding o w r) := rfl
@[simp] theorem State.endCommand_mem (u : UnitId) (o : Operands) (w : List (List Host.Cell)) (r : Option Reply) :
    (s.endCommand u o w r).mem = s.mem := rfl
@[simp] theorem State.endCommand_host (u : UnitId) (o : Operands) (w : List (List Host.Cell)) (r : Option Reply) :
    (s.endCommand u o w r).host = s.host := rfl
@[simp] theorem State.endCommand_returns (u : UnitId) (o : Operands) (w : List (List Host.Cell)) (r : Option Reply) :
    (s.endCommand u o w r).returns = s.returns := rfl
@[simp] theorem State.endCommand_choices (u : UnitId) (o : Operands) (w : List (List Host.Cell)) (r : Option Reply) :
    (s.endCommand u o w r).choices = s.choices := rfl

@[simp] theorem State.raiseDestinationFull_packCur (u : UnitId) (o : Operands) (w : List (List Host.Cell)) (d n : Nat) :
    (s.raiseDestinationFull u o w d n).packCur = s.packCur := rfl
@[simp] theorem State.raiseDestinationFull_unpkCur (u : UnitId) (o : Operands) (w : List (List Host.Cell)) (d n : Nat) :
    (s.raiseDestinationFull u o w d n).unpkCur = s.unpkCur := rfl
@[simp] theorem State.raiseDestinationFull_unpkCarry (u : UnitId) (o : Operands) (w : List (List Host.Cell)) (d n : Nat) :
    (s.raiseDestinationFull u o w d n).unpkCarry = s.unpkCarry := rfl
@[simp] theorem State.raiseDestinationFull_unpkPend (u : UnitId) (o : Operands) (w : List (List Host.Cell)) (d n : Nat) :
    (s.raiseDestinationFull u o w d n).unpkPend = s.unpkPend := rfl
@[simp] theorem State.raiseDestinationFull_encRepl (u : UnitId) (o : Operands) (w : List (List Host.Cell)) (d n : Nat) :
    (s.raiseDestinationFull u o w d n).encRepl = s.encRepl := rfl
@[simp] theorem State.raiseDestinationFull_rom (u : UnitId) (o : Operands) (w : List (List Host.Cell)) (d n : Nat) :
    (s.raiseDestinationFull u o w d n).rom = s.rom := rfl
@[simp] theorem State.raiseDestinationFull_port (u : UnitId) (o : Operands) (w : List (List Host.Cell)) (d n : Nat) :
    (s.raiseDestinationFull u o w d n).port = s.port := rfl
@[simp] theorem State.raiseDestinationFull_links (u : UnitId) (o : Operands) (w : List (List Host.Cell)) (d n : Nat) :
    (s.raiseDestinationFull u o w d n).links = s.links.set u (.outstanding o w (some ⟨d, n, .destinationFull⟩)) := rfl
@[simp] theorem State.raiseDestinationFull_mem (u : UnitId) (o : Operands) (w : List (List Host.Cell)) (d n : Nat) :
    (s.raiseDestinationFull u o w d n).mem = s.mem := rfl
@[simp] theorem State.raiseDestinationFull_host (u : UnitId) (o : Operands) (w : List (List Host.Cell)) (d n : Nat) :
    (s.raiseDestinationFull u o w d n).host = s.host := rfl
@[simp] theorem State.raiseDestinationFull_returns (u : UnitId) (o : Operands) (w : List (List Host.Cell)) (d n : Nat) :
    (s.raiseDestinationFull u o w d n).returns = s.returns := rfl
@[simp] theorem State.raiseDestinationFull_choices (u : UnitId) (o : Operands) (w : List (List Host.Cell)) (d n : Nat) :
    (s.raiseDestinationFull u o w d n).choices = s.choices := rfl

@[simp] theorem State.putUnpk_packCur (r : UnpkRegs) : (s.putUnpk r).packCur = s.packCur := rfl
@[simp] theorem State.putUnpk_unpkCur (r : UnpkRegs) : (s.putUnpk r).unpkCur = r.cur := rfl
@[simp] theorem State.putUnpk_unpkCarry (r : UnpkRegs) : (s.putUnpk r).unpkCarry = r.carry := rfl
@[simp] theorem State.putUnpk_unpkPend (r : UnpkRegs) : (s.putUnpk r).unpkPend = r.pend := rfl
@[simp] theorem State.putUnpk_encRepl (r : UnpkRegs) : (s.putUnpk r).encRepl = s.encRepl := rfl
@[simp] theorem State.putUnpk_rom (r : UnpkRegs) : (s.putUnpk r).rom = s.rom := rfl
@[simp] theorem State.putUnpk_port (r : UnpkRegs) : (s.putUnpk r).port = s.port := rfl
@[simp] theorem State.putUnpk_links (r : UnpkRegs) : (s.putUnpk r).links = s.links := rfl
@[simp] theorem State.putUnpk_mem (r : UnpkRegs) : (s.putUnpk r).mem = s.mem := rfl
@[simp] theorem State.putUnpk_host (r : UnpkRegs) : (s.putUnpk r).host = s.host := rfl
@[simp] theorem State.putUnpk_returns (r : UnpkRegs) : (s.putUnpk r).returns = s.returns := rfl
@[simp] theorem State.putUnpk_choices (r : UnpkRegs) : (s.putUnpk r).choices = s.choices := rfl
@[simp] theorem State.putUnpk_link (r : UnpkRegs) (v : UnitId) : (s.putUnpk r).link v = s.link v := rfl

@[simp] theorem Links.get_set_same (l : Links) (u : UnitId) (k : Link) : (l.set u k).get u = k := by
  cases u <;> rfl

theorem Links.get_set_other (l : Links) (k : Link) {u v : UnitId} (h : v ≠ u) :
    (l.set u k).get v = l.get v := by
  cases u <;> cases v <;> first | rfl | exact absurd rfl h

@[simp] theorem Links.set_set_same (l : Links) (u : UnitId) (k k' : Link) : (l.set u k).set u k' = l.set u k' := by
  cases u <;> rfl

theorem Links.set_comm (l : Links) (k k' : Link) {u v : UnitId} (h : u ≠ v) :
    (l.set u k).set v k' = (l.set v k').set u k := by
  cases u <;> cases v <;> first | rfl | exact absurd rfl h

theorem Links.ext_get {l l' : Links} (h : ∀ u, l.get u = l'.get u) : l = l' := by
  cases l; cases l'
  have hd := h .dec
  have he := h .enc
  have hp := h .pack
  have hu := h .unpack
  simp only [Links.get] at hd he hp hu
  simp [hd, he, hp, hu]

@[simp] theorem State.setLink_link_same (u : UnitId) (k : Link) : (s.setLink u k).link u = k := by
  simp [State.link]

theorem State.setLink_link_other (k : Link) {u v : UnitId} (h : v ≠ u) : (s.setLink u k).link v = s.link v := by
  simp [State.link, Links.get_set_other _ _ h]

@[simp] theorem State.endCommand_link_same (u : UnitId) (o : Operands) (w : List (List Host.Cell)) (r : Option Reply) :
    (s.endCommand u o w r).link u = .outstanding o w r := by simp [State.link]

theorem State.endCommand_link_other (o : Operands) (w : List (List Host.Cell)) (r : Option Reply) {u v : UnitId} (h : v ≠ u) :
    (s.endCommand u o w r).link v = s.link v := by
  simp [State.link, Links.get_set_other _ _ h]

theorem State.raiseDestinationFull_eq (u : UnitId) (o : Operands) (w : List (List Host.Cell)) (d n : Nat) :
    s.raiseDestinationFull u o w d n = s.endCommand u o w (some ⟨d, n, .destinationFull⟩) := rfl

@[simp] theorem mem_allUnits (u : UnitId) : u ∈ allUnits := by cases u <;> decide

theorem State.reset_link (u : UnitId) : State.reset.link u = .idle := by cases u <;> rfl

end Sys2Proof.Machine
end

