-- ==== Sys2Proof/Laws/Landing.lean ====
section
/-!
SUPPORT. What the writes of outstanding commands do to the host's memory while they wait: each unit's land step by step in
their order, and they land before another write only where the order can be seen.
-/

namespace Sys2Proof.Machine

@[simp] theorem Link.rest_args (l : Link) : l.rest.args = l.args := by cases l <;> rfl
@[simp] theorem Link.rest_busy (l : Link) : l.rest.busy = l.busy := by cases l <;> rfl
@[simp] theorem Link.rest_reply (l : Link) : l.rest.reply = l.reply := by cases l <;> rfl
@[simp] theorem Link.rest_steps (l : Link) : l.rest.steps = l.steps.tail := by cases l <;> rfl
@[simp] theorem Link.writes_idle : Link.writes .idle = [] := rfl
@[simp] theorem Link.writes_outstanding (args : Operands) (steps : List (List Host.Cell)) (reply : Option Reply) :
    Link.writes (.outstanding args steps reply) = steps.flatten := rfl

theorem Link.not_busy {l : Link} (h : l.busy = false) : l = .idle := by
  cases l with
  | idle => rfl
  | outstanding args w r => cases h

theorem Memory.writeCells_append (m : Memory) (xs ys : List Host.Cell) :
    Memory.writeCells m (xs ++ ys) = Memory.writeCells (Memory.writeCells m xs) ys :=
  List.foldl_append

theorem stepsOf_append (xs ys : List (UnitId × List Host.Cell)) (u : UnitId) :
    stepsOf (xs ++ ys) u = stepsOf xs u ++ stepsOf ys u := by
  simp [stepsOf]

theorem mem_stepsOf {done : List (UnitId × List Host.Cell)} {u : UnitId} {w : List Host.Cell} :
    w ∈ stepsOf done u ↔ (u, w) ∈ done := by
  simp [stepsOf]

theorem State.Progress.refl (s : State) : State.Progress [] s s :=
  ⟨rfl, fun _ => rfl, fun _ => rfl, fun _ => rfl, fun _ => rfl⟩

theorem State.Progress.trans {d e : List (UnitId × List Host.Cell)} {s t v : State} (h : State.Progress d s t)
    (h' : State.Progress e t v) : State.Progress (d ++ e) s v where
  rest := by
    have h1 := h.rest
    rw [h'.rest]
    rw [h1, List.flatMap_append, Memory.writeCells_append]
  order u := by rw [h.order, h'.order, stepsOf_append, List.append_assoc]
  args u := (h'.args u).trans (h.args u)
  busy u := (h'.busy u).trans (h.busy u)
  reply u := (h'.reply u).trans (h.reply u)

theorem State.Progress.setChoices {d : List (UnitId × List Host.Cell)} {s t : State} (h : State.Progress d s t) (n : Nat) :
    State.Progress d s (t.setChoices n) where
  rest := by
    have h1 := h.rest
    exact congrArg (State.setChoices · n) h1
  order := h.order
  args := h.args
  busy := h.busy
  reply := h.reply

/-- One step's writes more: those of the next of unit `u`, if it has one. -/
theorem State.advance_spec (s : State) (u : UnitId) : ∃ done, State.Progress done s (s.advance u) := by
  unfold State.advance
  split
  · exact ⟨[], .refl s⟩
  · rename_i w ws hw
    refine ⟨[(u, w)], by simp [State.setMem], fun v => ?_, fun v => ?_, fun v => ?_, fun v => ?_⟩
    · by_cases h : v = u
      · subst h
        simp [hw, stepsOf]
      · have : (u == v) = false := by simpa using fun he => h he.symm
        simp [State.setLink_link_other _ _ h, stepsOf, this]
    all_goals
      by_cases h : v = u
      · subst h; simp
      · simp [State.setLink_link_other _ _ h]

theorem State.advances_spec (us : List UnitId) (s : State) : ∃ done, State.Progress done s (us.foldl State.advance s) := by
  induction us generalizing s with
  | nil => exact ⟨[], .refl s⟩
  | cons u us ih =>
    obtain ⟨d, hd⟩ := s.advance_spec u
    obtain ⟨e, he⟩ := ih (s.advance u)
    exact ⟨d ++ e, hd.trans he⟩

/-- All that the units can do by themselves: the writes of some of their steps, each unit's in its order. -/
theorem State.progress_spec (s : State) : ∃ done, State.Progress done s s.progress := by
  obtain ⟨d, hd⟩ := s.advances_spec (Config.writeOrder s.choices)
  exact ⟨d, hd.setChoices _⟩

section
variable {done : List (UnitId × List Host.Cell)} {s t : State}

theorem State.Progress.packCur (h : State.Progress done s t) : t.packCur = s.packCur := by rw [h.rest]
theorem State.Progress.unpk (h : State.Progress done s t) : t.unpk = s.unpk := by rw [h.rest]; rfl
theorem State.Progress.encRepl (h : State.Progress done s t) : t.encRepl = s.encRepl := by rw [h.rest]
theorem State.Progress.rom (h : State.Progress done s t) : t.rom = s.rom := by rw [h.rest]
theorem State.Progress.port (h : State.Progress done s t) : t.port = s.port := by rw [h.rest]
theorem State.Progress.host (h : State.Progress done s t) : t.host = s.host := by rw [h.rest]
theorem State.Progress.returns (h : State.Progress done s t) : t.returns = s.returns := by rw [h.rest]
theorem State.Progress.mem (h : State.Progress done s t) : t.mem = Memory.writeCells s.mem (done.flatMap Prod.snd) := by
  rw [h.rest]

theorem State.Progress.idle (h : State.Progress done s t) {u : UnitId} (hu : s.link u = .idle) : t.link u = .idle :=
  Link.not_busy (by rw [h.busy, hu]; rfl)

/-- The writes done and those left are the unit's own, in their order. -/
theorem State.Progress.writes (h : State.Progress done s t) (u : UnitId) :
    (s.link u).writes = (stepsOf done u).flatten ++ (t.link u).writes := by
  simp only [Link.writes, h.order, List.flatten_append]

/-- Every step done was one of the unit's own, all its writes. -/
theorem State.Progress.done_mem (h : State.Progress done s t) {u : UnitId} {w : List Host.Cell} (hw : (u, w) ∈ done) :
    w ∈ (s.link u).steps := by
  rw [h.order]
  exact List.mem_append_left _ (mem_stepsOf.mpr hw)

theorem State.Progress.done_writes (h : State.Progress done s t) {u : UnitId} {w : List Host.Cell} {x : Host.Cell}
    (hw : (u, w) ∈ done) (hx : x ∈ w) : x ∈ (s.link u).writes :=
  List.mem_flatten.mpr ⟨w, h.done_mem hw, hx⟩

/-- Every write left was there before. -/
theorem State.Progress.left_mem (h : State.Progress done s t) {u : UnitId} {x : Host.Cell} (hx : x ∈ (t.link u).writes) :
    x ∈ (s.link u).writes := by
  rw [h.writes]
  exact List.mem_append_right _ hx

/-- A command outstanding keeps its operands and results. -/
theorem State.Progress.outstanding (h : State.Progress done s t) {u : UnitId} {args : Operands} {steps : List (List Host.Cell)}
    {reply : Option Reply} (hu : s.link u = .outstanding args steps reply) :
    t.link u = .outstanding args (t.link u).steps reply := by
  have h1 := h.args u
  have h2 := h.busy u
  have h3 := h.reply u
  rw [hu] at h1 h2 h3
  cases hl : t.link u with
  | idle => rw [hl] at h2; cases h2
  | outstanding a w r =>
    rw [hl] at h1 h3
    cases h1; cases h3; rfl
end

/-- Nothing outstanding has a write at the addresses. -/
theorem State.contends_false {s : State} {cells : List Host.Cell} :
    s.contends cells = false ↔ ∀ u, ∀ x ∈ (s.link u).writes, ∀ y ∈ cells, x.1 ≠ y.1 := by
  constructor
  · intro h u x hx y hy he
    have : s.contends cells = true := by
      simp only [State.contends, List.any_eq_true, beq_iff_eq]
      exact ⟨u, mem_allUnits u, x, hx, y, hy, he.symm⟩
    rw [h] at this
    cases this
  · intro h
    rw [Bool.eq_false_iff]
    intro hc
    simp only [State.contends, List.any_eq_true, beq_iff_eq] at hc
    obtain ⟨u, -, x, hx, y, hy, he⟩ := hc
    exact h u x hx y hy he.symm

@[simp] theorem Memory.writeCells_cellsFrom (m : Memory) (a : Nat) (bs : List Byte) :
    Memory.writeCells m (cellsFrom a bs) = Memory.writeBytes m a bs := by
  induction bs generalizing m a with
  | nil => rfl
  | cons b bs ih => exact ih _ _

theorem Memory.wf_writeCells {m : Memory} (cells : List Host.Cell) (h : Memory.wf m) :
    Memory.wf (Memory.writeCells m cells) := by
  induction cells generalizing m with
  | nil => exact h
  | cons x xs ih => exact ih (Memory.wf_write _ _ h)

theorem Memory.read_writeCells_outside (m : Memory) (cells : List Host.Cell) {a : Nat} (h : ∀ x ∈ cells, x.1 ≠ a) :
    Memory.read (Memory.writeCells m cells) a = Memory.read m a := by
  induction cells generalizing m with
  | nil => rfl
  | cons x xs ih =>
    have hx : a ≠ x.1 := fun he => h x (by simp) he.symm
    have := ih (Memory.write m x.1 x.2) fun y hy => h y (List.mem_cons_of_mem _ hy)
    rw [Memory.read_write_other _ _ hx] at this
    exact this

/-- A byte after writes is as before or as one of them leaves it. -/
theorem Memory.read_writeCells_cases (m : Memory) (cells : List Host.Cell) (a : Nat) :
    Memory.read (Memory.writeCells m cells) a = Memory.read m a ∨
      (a, Memory.read (Memory.writeCells m cells) a) ∈ cells := by
  induction cells generalizing m with
  | nil => exact .inl rfl
  | cons x xs ih =>
    rcases ih (Memory.write m x.1 x.2) with h | h
    · by_cases ha : a = x.1
      · subst ha
        rw [Memory.read_write_same] at h
        exact .inr (by
          change (x.1, Memory.read (Memory.writeCells (Memory.write m x.1 x.2) xs) x.1) ∈ x :: xs
          rw [h]
          exact List.mem_cons_self)
      · rw [Memory.read_write_other _ _ ha] at h
        exact .inl h
    · exact .inr (List.mem_cons_of_mem _ h)

/-- A byte that is written is as one of the writes to it leaves it. -/
theorem Memory.read_writeCells_written (m : Memory) {cells : List Host.Cell} {a : Nat} (h : ∃ x ∈ cells, x.1 = a) :
    (a, Memory.read (Memory.writeCells m cells) a) ∈ cells := by
  induction cells generalizing m with
  | nil =>
    obtain ⟨x, h, -⟩ := h
    cases h
  | cons y ys ih =>
    by_cases hy : ∃ x ∈ ys, x.1 = a
    · exact List.mem_cons_of_mem _ (ih _ hy)
    · obtain ⟨x, hx, rfl⟩ := h
      rcases List.mem_cons.mp hx with rfl | hx
      · have := Memory.read_writeCells_outside (Memory.write m x.1 x.2) ys (a := x.1) fun z hz he => hy ⟨z, hz, he⟩
        rw [Memory.read_write_same] at this
        change (x.1, Memory.read (Memory.writeCells (Memory.write m x.1 x.2) ys) x.1) ∈ _
        rw [this]
        exact List.mem_cons_self
      · exact absurd ⟨x, hx, rfl⟩ hy

@[simp] theorem cellsFrom_length (a : Nat) (bs : List Byte) : (cellsFrom a bs).length = bs.length := by
  induction bs generalizing a with
  | nil => rfl
  | cons b bs ih => simp [cellsFrom, ih]

@[simp] theorem cellsFrom_bytes (a : Nat) (bs : List Byte) : (cellsFrom a bs).map Prod.snd = bs := by
  induction bs generalizing a with
  | nil => rfl
  | cons b bs ih => simp [cellsFrom, ih]

theorem cellsFrom_range {a : Nat} {bs : List Byte} {x : Host.Cell} (h : x ∈ cellsFrom a bs) :
    a ≤ x.1 ∧ x.1 < a + bs.length := by
  induction bs generalizing a with
  | nil => cases h
  | cons b bs ih =>
    rcases List.mem_cons.mp h with rfl | h
    · simp
    · have := ih h
      simp only [List.length_cons]
      omega

theorem cellsFrom_append (a : Nat) (bs cs : List Byte) :
    cellsFrom a (bs ++ cs) = cellsFrom a bs ++ cellsFrom (a + bs.length) cs := by
  induction bs generalizing a with
  | nil => rfl
  | cons b bs ih => simp [cellsFrom, ih, Nat.add_assoc, Nat.add_comm 1]

/-- Each byte of the output has its write. -/
theorem cellsFrom_covers {a k : Nat} {bs : List Byte} (h : k < bs.length) : ∃ x ∈ cellsFrom a bs, x.1 = a + k := by
  induction bs generalizing a k with
  | nil => simp at h
  | cons c cs ih =>
    cases k with
    | zero => exact ⟨_, List.mem_cons_self, rfl⟩
    | succ j =>
      obtain ⟨x, hx, he⟩ := ih (a := a + 1) (k := j) (by simpa using h)
      exact ⟨x, List.mem_cons_of_mem _ hx, by omega⟩

/-- The write at index `k` is that of the output's byte `k`. -/
theorem cellsFrom_value {a k : Nat} {bs : List Byte} {b : Byte} (h : (a + k, b) ∈ cellsFrom a bs) : b = bs.getD k 0#8 := by
  induction bs generalizing a k with
  | nil => cases h
  | cons c cs ih =>
    rcases List.mem_cons.mp h with h | h
    · have : k = 0 := by simpa using congrArg Prod.fst h
      subst this
      exact congrArg Prod.snd h
    · have := (cellsFrom_range h).1
      obtain ⟨j, rfl⟩ : ∃ j, k = j + 1 := ⟨k - 1, by simp only at this; omega⟩
      exact ih (a := a + 1) (by rwa [show a + 1 + j = a + (j + 1) by omega])

/-- Step by step or all together, the writes of a command's output are the same. -/
@[simp] theorem stepCells_flatten (a : Nat) (outs : List (List Byte)) :
    (stepCells a outs).flatten = cellsFrom a outs.flatten := by
  induction outs generalizing a with
  | nil => rfl
  | cons bs outs ih => simp [stepCells, ih, cellsFrom_append]

@[simp] theorem dstSteps_flatten (o : Operands) (outs : List (List Byte)) :
    (dstSteps o outs).flatten = dstCells o outs.flatten := stepCells_flatten _ _

end Sys2Proof.Machine
end

