-- ==== Sys2Proof/Laws/Loop.lean ====
section
/-!
SUPPORT. The shared loop: what a unit's `Pick` function must keep to for R112, R117 and R122 to hold of the whole command, and
what then holds of every run.
-/

namespace Sys2Proof.Machine

variable {σ : Type} {pick : σ → Nat → List Byte → Pick σ}

/-- The contract of a step (R112, R122): it consumes no more than there is, writes no more than fits, and does one or the
other. -/
def PickBounded (pick : σ → Nat → List Byte → Pick σ) : Prop :=
  ∀ r room src used out r', pick r room src = .commit used out r' →
    used ≤ src.length ∧ out.length ≤ room ∧ 1 ≤ used + out.length

@[simp] theorem Run.out_nil (used : Nat) (r : σ) (stop : Stop) : (Run.mk used [] r stop).out = [] := rfl

@[simp] theorem Run.out_cons (used : Nat) (out : List Byte) (outs : List (List Byte)) (r : σ) (stop : Stop) :
    (Run.mk used (out :: outs) r stop).out = out ++ outs.flatten := rfl

theorem Run.outs_flatten (q : Run σ) : q.outs.flatten = q.out := rfl

theorem runSteps_zero (r : σ) (room : Nat) (src : List Byte) : runSteps pick 0 r room src = ⟨0, [], r, .bound⟩ := rfl

theorem runSteps_idle {n : Nat} {r : σ} {room : Nat} {src : List Byte} (h : pick r room src = .idle) :
    runSteps pick (n + 1) r room src = ⟨0, [], r, .ok⟩ := by simp [runSteps, h]

theorem runSteps_full {n : Nat} {r : σ} {room : Nat} {src : List Byte} (h : pick r room src = .full) :
    runSteps pick (n + 1) r room src = ⟨0, [], r, .destinationFull⟩ := by simp [runSteps, h]

theorem runSteps_refuse {n : Nat} {r : σ} {room : Nat} {src : List Byte} (h : pick r room src = .refuse) :
    runSteps pick (n + 1) r room src = ⟨0, [], r, .refuse⟩ := by simp [runSteps, h]

theorem runSteps_commit {n : Nat} {r r' : σ} {room used : Nat} {src out : List Byte}
    (h : pick r room src = .commit used out r') :
    runSteps pick (n + 1) r room src =
      ⟨used + (runSteps pick n r' (room - out.length) (src.drop used)).used,
        out :: (runSteps pick n r' (room - out.length) (src.drop used)).outs,
        (runSteps pick n r' (room - out.length) (src.drop used)).reg,
        (runSteps pick n r' (room - out.length) (src.drop used)).stop⟩ := by simp [runSteps, h]

/-- Iterations beyond the bound of R117 change nothing: every command ends within it. -/
theorem runSteps_enough (hp : PickBounded pick) (n k : Nat) (r : σ) (room : Nat) (src : List Byte)
    (hn : src.length + room + 1 ≤ n) : runSteps pick (n + k) r room src = runSteps pick n r room src := by
  induction n generalizing r room src with
  | zero => omega
  | succ n ih =>
    rw [Nat.add_right_comm]
    cases h : pick r room src with
    | idle => rw [runSteps_idle h, runSteps_idle h]
    | full => rw [runSteps_full h, runSteps_full h]
    | refuse => rw [runSteps_refuse h, runSteps_refuse h]
    | commit used out r' =>
      obtain ⟨h1, h2, h3⟩ := hp _ _ _ _ _ _ h
      rw [runSteps_commit h, runSteps_commit h,
        ih r' (room - out.length) (src.drop used) (by simp only [List.length_drop]; omega)]

theorem runSteps_bounds (hp : PickBounded pick) (n : Nat) (r : σ) (room : Nat) (src : List Byte) :
    (runSteps pick n r room src).used ≤ src.length ∧ (runSteps pick n r room src).out.length ≤ room := by
  induction n generalizing r room src with
  | zero => simp [runSteps_zero]
  | succ n ih =>
    cases h : pick r room src with
    | idle => simp [runSteps_idle h]
    | full => simp [runSteps_full h]
    | refuse => simp [runSteps_refuse h]
    | commit used out r' =>
      obtain ⟨h1, h2, h3⟩ := hp _ _ _ _ _ _ h
      have := ih r' (room - out.length) (src.drop used)
      simp only [List.length_drop] at this
      rw [runSteps_commit h]
      simp only [Run.out_cons, Run.outs_flatten, List.length_append]
      omega

theorem runSteps_not_bound (hp : PickBounded pick) (n : Nat) (r : σ) (room : Nat) (src : List Byte)
    (hn : src.length + room + 1 ≤ n) : (runSteps pick n r room src).stop ≠ .bound := by
  induction n generalizing r room src with
  | zero => omega
  | succ n ih =>
    cases h : pick r room src with
    | idle => simp [runSteps_idle h]
    | full => simp [runSteps_full h]
    | refuse => simp [runSteps_refuse h]
    | commit used out r' =>
      obtain ⟨h1, h2, h3⟩ := hp _ _ _ _ _ _ h
      rw [runSteps_commit h]
      exact ih r' (room - out.length) (src.drop used) (by simp only [List.length_drop]; omega)

/-- A whole command's run never reaches the bound (R117), consumes no more than SLEN and writes no more than DCAP (R122). -/
theorem runUnit_bounds (hp : PickBounded pick) (r : σ) (dcap : Nat) (src : List Byte) :
    (runUnit pick r dcap src).used ≤ src.length ∧ (runUnit pick r dcap src).out.length ≤ dcap ∧
      (runUnit pick r dcap src).stop ≠ .bound :=
  ⟨(runSteps_bounds hp _ r dcap src).1, (runSteps_bounds hp _ r dcap src).2,
    runSteps_not_bound hp _ r dcap src (le_refl _)⟩

theorem runUnit_idle {r : σ} {dcap : Nat} {src : List Byte} (h : pick r dcap src = .idle) :
    runUnit pick r dcap src = ⟨0, [], r, .ok⟩ := runSteps_idle h

theorem runUnit_full {r : σ} {dcap : Nat} {src : List Byte} (h : pick r dcap src = .full) :
    runUnit pick r dcap src = ⟨0, [], r, .destinationFull⟩ := runSteps_full h

theorem runUnit_refuse {r : σ} {dcap : Nat} {src : List Byte} (h : pick r dcap src = .refuse) :
    runUnit pick r dcap src = ⟨0, [], r, .refuse⟩ := runSteps_refuse h

/-- A whole command's run, one step at a time: after a committed step it goes on as a command on what is left would. -/
theorem runUnit_commit (hp : PickBounded pick) {r r' : σ} {dcap used : Nat} {src out : List Byte}
    (h : pick r dcap src = .commit used out r') :
    runUnit pick r dcap src =
      ⟨used + (runUnit pick r' (dcap - out.length) (src.drop used)).used,
        out :: (runUnit pick r' (dcap - out.length) (src.drop used)).outs,
        (runUnit pick r' (dcap - out.length) (src.drop used)).reg,
        (runUnit pick r' (dcap - out.length) (src.drop used)).stop⟩ := by
  obtain ⟨h1, h2, h3⟩ := hp _ _ _ _ _ _ h
  have hfuel : runSteps pick (src.length + dcap) r' (dcap - out.length) (src.drop used) =
      runUnit pick r' (dcap - out.length) (src.drop used) := by
    have hk : src.length + dcap = ((src.drop used).length + (dcap - out.length) + 1) + (used + out.length - 1) := by
      simp only [List.length_drop]; omega
    rw [hk, runSteps_enough hp _ _ _ _ _ (le_refl _)]
    rfl
  unfold runUnit
  rw [runSteps_commit h, hfuel]
  rfl

end Sys2Proof.Machine
end

