-- ==== Sys2Proof/Laws/Units.lean ====
section
/-!
SUPPORT. The four units' steps keep to the contract of the shared loop.
-/

namespace Sys2Proof.Machine

theorem packPick_bounded (final : Bool) : PickBounded (packPick final) := by
  intro r room src used out r' h
  unfold packPick at h
  split at h
  · cases h
  · split at h
    · split at h
      · cases h
      · cases h; simp; omega
    · cases h
  · split at h
    · cases h
    · cases h
      simp only [List.length_cons, List.length_nil]
      split <;> omega

theorem unpackPick_bounded : PickBounded unpackPick := by
  intro r room src used out r' h
  unfold unpackPick at h
  split at h
  · split at h
    · cases h
    · cases h; simp; omega
  · split at h
    · cases h
    · split at h
      · cases h
      · cases h; simp; omega

theorem entryBytes_length (e : DecodeEntry) : 1 ≤ (entryBytes e).length ∧ (entryBytes e).length ≤ 3 := by
  cases e <;> simp [entryBytes]

/-- What a selected decoder step can do: it does not fit, or it commits the whole entry. -/
theorem emitEntry_commit {e : DecodeEntry} {adv room used : Nat} {out : List Byte} {r' : Unit}
    (h : emitEntry e adv room = .commit used out r') : used = adv ∧ out = entryBytes e ∧ out.length ≤ room := by
  unfold emitEntry at h
  split at h
  · cases h
  · cases h; exact ⟨rfl, rfl, by omega⟩

theorem decPick_bounded (t : Tables) (final : Bool) : PickBounded (decPick t final) := by
  intro r room src used out r' h
  have key : ∀ e adv, emitEntry e adv room = .commit used out r' → adv ≤ src.length →
      used ≤ src.length ∧ out.length ≤ room ∧ 1 ≤ used + out.length := by
    intro e adv he ha
    obtain ⟨rfl, ho, hl⟩ := emitEntry_commit he
    have := (entryBytes_length e).1
    rw [← ho] at this
    omega
  unfold decPick at h
  split at h
  · cases h
  · split at h
    · split at h
      · split at h
        · exact key _ _ h (by simp)
        · exact key _ _ h (by simp)
      · split at h
        · exact key _ _ h (by simp)
        · cases h
    · split at h
      · cases h
      · exact key _ _ h (by simp)

/-- A VALID result consumes at least one byte and no more than there are (R88). -/
theorem utf8Tail_size {ranges : List (Byte × Byte)} {acc cp : CodePoint} {n size : Nat} {r : List Byte}
    (h : utf8Tail ranges acc n r = .valid cp size) : n ≤ size ∧ size ≤ n + r.length := by
  induction ranges generalizing acc n r with
  | nil => cases r <;> (simp only [utf8Tail] at h; cases h; simp)
  | cons q ranges ih =>
    obtain ⟨lo, hi⟩ := q
    cases r with
    | nil => simp [utf8Tail] at h
    | cons b r =>
      simp only [utf8Tail] at h
      split at h
      · have := ih h
        simp only [List.length_cons]
        omega
      · cases h

theorem utf8Decode_size {cp : CodePoint} {size : Nat} {r : List Byte} (h : utf8Decode r = .valid cp size) :
    1 ≤ size ∧ size ≤ r.length := by
  cases r with
  | nil => simp [utf8Decode] at h
  | cons b r =>
    simp only [utf8Decode] at h
    split at h
    · cases h
    · have := utf8Tail_size h
      simp only [List.length_cons]
      omega

/-- A unit of input yields one or two bytes (R87). -/
theorem encodeUnit_length (t : Tables) (repl : Byte) (cp : CodePoint) :
    1 ≤ (encodeUnit t repl cp).length ∧ (encodeUnit t repl cp).length ≤ 2 := by
  unfold encodeUnit
  split
  · split <;> simp
  · split <;> simp

theorem encPick_bounded (t : Tables) (repl : Byte) (final : Bool) : PickBounded (encPick t repl final) := by
  intro r room src used out r' h
  unfold encPick at h
  split at h
  · cases h
  · split at h
    · cases h
    · split at h
      · split at h
        · cases h; simp; omega
        · cases h
      · cases h; simp; omega
      · rename_i cp size hd
        cases h
        have h1 := utf8Decode_size hd
        have h2 := encodeUnit_length t repl cp
        omega

end Sys2Proof.Machine
end

