-- ==== Sys2Proof/Laws/Exec.lean ====
section
/-!
SUPPORT. What the shared operations of the commands can do: the region checks, an XFORM command, a command without regions,
and a command sent by the driver.
-/

namespace Sys2Proof.Machine

/-- Two ranges overlap exactly if some address is in both. -/
theorem rangesOverlap_iff {a n b m : Nat} :
    rangesOverlap a n b m = true ↔ ∃ x, a ≤ x ∧ x < a + n ∧ b ≤ x ∧ x < b + m := by
  simp only [rangesOverlap, Bool.and_eq_true, decide_eq_true_eq]
  constructor
  · rintro ⟨⟨⟨h1, h2⟩, h3⟩, h4⟩
    exact ⟨max a b, by omega, by omega, by omega, by omega⟩
  · rintro ⟨x, h1, h2, h3, h4⟩
    omega

theorem rangesOverlap_false {a n b m : Nat} (h : rangesOverlap a n b m = false) (x : Nat) :
    ¬ (a ≤ x ∧ x < a + n ∧ b ≤ x ∧ x < b + m) := by
  intro hx
  have := rangesOverlap_iff.mpr ⟨x, hx⟩
  simp [h] at this

/-- An XFORM command may start on its regions (R58, log 8). -/
theorem State.regionRefusal_none {s : State} {o : Operands} :
    s.regionRefusal o = none ↔ o.disjoint = true ∧ ∀ u, changesSrc s.mem o (s.link u).writes = false := by
  unfold State.regionRefusal
  constructor
  · intro h
    split at h
    · cases h
    · rename_i h1
      split at h
      · cases h
      · rename_i h2
        simp only [List.any_eq_true, mem_allUnits, true_and, not_exists, Bool.not_eq_true] at h2
        exact ⟨by simpa using h1, h2⟩
  · rintro ⟨h1, h2⟩
    simp [h1, h2]

theorem State.Accepts.regions {s : State} {u : UnitId} (h : s.Accepts u) : s.regionRefusal s.port = none :=
  State.regionRefusal_none.mpr ⟨h.own, h.src⟩

/-- An idle block accepts every command whose own regions are apart. -/
theorem State.accepts_of_allIdle {s : State} (u : UnitId) (h : s.AllIdle) (ho : s.port.disjoint = true) : s.Accepts u where
  idle := h u
  own := ho
  src := fun v => by rw [h v]; rfl

/-- Writes that reach no byte of SRC, or leave each as it is, change none. -/
theorem changesSrc_false {m : Memory} {o : Operands} {cells : List Host.Cell} :
    changesSrc m o cells = false ↔
      ∀ x ∈ cells, o.srcAt ≤ x.1 → x.1 < o.srcAt + o.slen → Memory.read m x.1 = x.2 := by
  simp [changesSrc, inRange]

@[simp] theorem changesSrc_nil (m : Memory) (o : Operands) : changesSrc m o [] = false := rfl

theorem State.keepsSrc_iff {s : State} {cells : List Host.Cell} :
    s.KeepsSrc cells ↔ s.changesOutstandingSrc cells = false := by
  simp [State.KeepsSrc, State.changesOutstandingSrc]

theorem State.keepsSrc_nil (s : State) : s.KeepsSrc [] := fun _ => rfl

/-- On an idle block there is no SRC to keep. -/
theorem State.keepsSrc_of_allIdle {s : State} (cells : List Host.Cell) (h : s.AllIdle) : s.KeepsSrc cells := fun v =>
  changesSrc_false.mpr fun x _ h1 h2 => by
    rw [h v] at h1 h2
    simp only [Link.args, Operands.none] at h1 h2
    omega

@[simp] theorem State.srcBytes_length (s : State) : s.srcBytes.length = s.port.slen := by simp [State.srcBytes]

section xform
variable {σ : Type} {pick : σ → Nat → List Byte → Pick σ} {s t : State} {u : UnitId} {r : σ} {put : State → σ → State}

/-- The state an XFORM command ends in. -/
def State.afterXform (s : State) (u : UnitId) (put : State → σ → State) (q : Run σ) : State :=
  (put s q.reg).endCommand u s.port (dstSteps s.port q.outs) (some (replyOf q))

/-- What an accepted XFORM command whose input is not refused answers: it ends with OK or DestinationFull, unless its output
would change SRC of a command outstanding. -/
theorem State.xform_run (hp : PickBounded pick) (ha : s.Accepts u)
    (hr : (runUnit pick r s.port.dcap s.srcBytes).stop ≠ .refuse) :
    s.xform u pick r put =
      if s.changesOutstandingSrc (dstCells s.port (runUnit pick r s.port.dcap s.srcBytes).out) then .refused .regions
      else .next (s.afterXform u put (runUnit pick r s.port.dcap s.srcBytes)) := by
  have hb := (runUnit_bounds hp r s.port.dcap s.srcBytes).2.2
  unfold State.xform
  rw [if_neg (by simp [ha.idle, Link.busy]), ha.regions]
  simp only [State.afterXform, replyOf]
  cases hq : (runUnit pick r s.port.dcap s.srcBytes).stop with
  | ok => simp
  | destinationFull => simp [State.raiseDestinationFull_eq]
  | refuse => exact absurd hq hr
  | bound => exact absurd hq hb

theorem State.xform_accepted (hp : PickBounded pick) (ha : s.Accepts u)
    (hr : (runUnit pick r s.port.dcap s.srcBytes).stop ≠ .refuse)
    (hk : s.KeepsSrc (dstCells s.port (runUnit pick r s.port.dcap s.srcBytes).out)) :
    s.xform u pick r put = .next (s.afterXform u put (runUnit pick r s.port.dcap s.srcBytes)) := by
  rw [State.xform_run hp ha hr, State.keepsSrc_iff.mp hk]
  rfl

/-- An accepted XFORM command whose output would change SRC of a command outstanding is refused. -/
theorem State.xform_changes_src (hp : PickBounded pick) (ha : s.Accepts u)
    (hr : (runUnit pick r s.port.dcap s.srcBytes).stop ≠ .refuse)
    (hk : ¬ s.KeepsSrc (dstCells s.port (runUnit pick r s.port.dcap s.srcBytes).out)) :
    s.xform u pick r put = .refused .regions := by
  rw [State.xform_run hp ha hr, if_pos (by simpa [State.keepsSrc_iff] using hk)]

/-- An accepted XFORM command whose input is refused has no next state. -/
theorem State.xform_refused (ha : s.Accepts u) (hr : (runUnit pick r s.port.dcap s.srcBytes).stop = .refuse) :
    s.xform u pick r put = .refused .decoderInput := by
  unfold State.xform
  rw [if_neg (by simp [ha.idle, Link.busy]), ha.regions]
  simp [hr]

/-- If an XFORM command answers a next state, then it was accepted, its run ended with OK or DestinationFull, its output
changes no SRC of a command outstanding, and the next state is the one that run leaves. -/
theorem State.xform_next (h : s.xform u pick r put = .next t) :
    s.Accepts u ∧ ((runUnit pick r s.port.dcap s.srcBytes).stop = .ok ∨
        (runUnit pick r s.port.dcap s.srcBytes).stop = .destinationFull) ∧
      s.KeepsSrc (dstCells s.port (runUnit pick r s.port.dcap s.srcBytes).out) ∧
      t = s.afterXform u put (runUnit pick r s.port.dcap s.srcBytes) := by
  unfold State.xform at h
  split at h
  · cases h
  · rename_i hi
    split at h
    · cases h
    · rename_i hg
      obtain ⟨h1, h2⟩ := State.regionRefusal_none.mp hg
      refine ⟨⟨Link.not_busy (by simpa using hi), h1, h2⟩, ?_⟩
      simp only at h
      split at h
      · cases h
      · cases h
      · rename_i hq
        split at h
        · cases h
        · rename_i hk
          cases h
          exact ⟨.inl hq, State.keepsSrc_iff.mpr (by simpa using hk), by simp [State.afterXform, replyOf, hq]⟩
      · rename_i hq
        split at h
        · cases h
        · rename_i hk
          cases h
          exact ⟨.inr hq, State.keepsSrc_iff.mpr (by simpa using hk),
            by simp [State.afterXform, replyOf, hq, State.raiseDestinationFull_eq]⟩

/-- An XFORM command never faults (R117, R263). -/
theorem State.xform_no_fault (hp : PickBounded pick) (f : Fault) : s.xform u pick r put ≠ .fault f := by
  have hb := (runUnit_bounds hp r s.port.dcap s.srcBytes).2.2
  unfold State.xform
  split
  · exact fun h => by cases h
  · split
    · exact fun h => by cases h
    · simp only
      split
      · exact fun h => by cases h
      · rename_i hq; exact absurd hq hb
      all_goals split <;> exact fun h => by cases h

end xform

/-- A command without regions runs exactly if its unit has none outstanding. -/
theorem State.control_idle {s : State} {u : UnitId} {f : State → State} (h : s.link u = .idle) :
    s.control u f = .next ((f s).endCommand u Operands.none [] none) := by
  simp [State.control, h, Link.busy]

theorem State.control_next {s t : State} {u : UnitId} {f : State → State} (h : s.control u f = .next t) :
    s.link u = .idle ∧ t = (f s).endCommand u Operands.none [] none := by
  unfold State.control at h
  split at h
  · cases h
  · rename_i hi
    cases h
    exact ⟨Link.not_busy (by simpa using hi), rfl⟩

end Sys2Proof.Machine
end

