-- ==== Sys2Proof/Laws/PerInstr.lean ====
section
/-!
SUPPORT. The family EncodedForm: every command is written as one defined command word, with one more byte for SETREPL only.
-/

namespace Sys2Proof.Laws

/-- The bytes of the command are a defined command word (R83), followed by IMM8 if the command is SETREPL (R80, R85). -/
def EncodedForm.Statement (i : Instr) : Prop :=
  ∃ w imm, encode i = w :: imm ∧ commandWordOk w = true ∧
    imm = (match i with | .setRepl b => [b] | _ => [])

theorem EncodedForm.xformDec (final : Bool) : EncodedForm.Statement (.xformDec final) := by
  cases final <;> exact ⟨_, _, rfl, by decide, rfl⟩

theorem EncodedForm.xformEnc (final : Bool) : EncodedForm.Statement (.xformEnc final) := by
  cases final <;> exact ⟨_, _, rfl, by decide, rfl⟩

theorem EncodedForm.xformPack (final : Bool) : EncodedForm.Statement (.xformPack final) := by
  cases final <;> exact ⟨_, _, rfl, by decide, rfl⟩

theorem EncodedForm.xformUnpack (final : Bool) : EncodedForm.Statement (.xformUnpack final) := by
  cases final <;> exact ⟨_, _, rfl, by decide, rfl⟩

theorem EncodedForm.resetDec : EncodedForm.Statement .resetDec := ⟨_, _, rfl, by decide, rfl⟩

theorem EncodedForm.resetEnc : EncodedForm.Statement .resetEnc := ⟨_, _, rfl, by decide, rfl⟩

theorem EncodedForm.resetPack : EncodedForm.Statement .resetPack := ⟨_, _, rfl, by decide, rfl⟩

theorem EncodedForm.resetUnpack : EncodedForm.Statement .resetUnpack := ⟨_, _, rfl, by decide, rfl⟩

theorem EncodedForm.setRepl (imm8 : Byte) : EncodedForm.Statement (.setRepl imm8) := ⟨_, _, rfl, by decide, rfl⟩

end Sys2Proof.Laws
end

