-- ==== Sys2Proof/Laws/Step.lean ====
section
/-!
SUPPORT. What a step can do, what the host's events can do, and what the driver gets from one command.
-/

namespace Sys2Proof.Machine

/-- The state before a write of the host or a return in which the order of the writes outstanding can be seen: some of them
done; else the state itself. -/
theorem State.settled_spec (s : State) (c : Bool) : ∃ done, State.Progress done s (if c then s.progress else s) := by
  cases c with
  | true => exact s.progress_spec
  | false => exact ⟨[], .refl s⟩

theorem State.takeReturn_idle {s : State} {u : UnitId} (h : s.link u = .idle) : s.takeReturn u = s := by
  simp [State.takeReturn, h]

/-- A return: some writes outstanding may be done first; then the unit is idle, all its writes are in memory, and the host has
operands and results. -/
theorem State.takeReturn_spec {s : State} {u : UnitId} {args : Operands} {steps : List (List Host.Cell)}
    {reply : Option Reply} (h : s.link u = .outstanding args steps reply) :
    ∃ done t, State.Progress done s t ∧
      s.takeReturn u = ((t.setLink u .idle).setMem (Memory.writeCells t.mem (t.link u).writes)).setReturns
        (s.returns ++ [⟨u, args, reply⟩]) := by
  obtain ⟨d, hd⟩ := s.settled_spec ((s.setLink u .idle).contends steps.flatten)
  exact ⟨d, _, hd, by simp only [State.takeReturn, h]⟩

/-- Where no other command outstanding writes the same addresses, a return uses no free value. -/
theorem State.takeReturn_apart {s : State} {u : UnitId} {args : Operands} {steps : List (List Host.Cell)}
    {reply : Option Reply} (h : s.link u = .outstanding args steps reply)
    (ha : ∀ v, v ≠ u → ∀ x ∈ (s.link v).writes, ∀ y ∈ steps.flatten, x.1 ≠ y.1) :
    s.takeReturn u =
      ((s.setLink u .idle).setMem (Memory.writeCells s.mem steps.flatten)).setReturns (s.returns ++ [⟨u, args, reply⟩]) := by
  have hc : (s.setLink u .idle).contends steps.flatten = false := by
    refine State.contends_false.mpr fun v x hx y hy => ?_
    by_cases hv : v = u
    · subst hv
      simp at hx
    · rw [State.setLink_link_other _ _ hv] at hx
      exact ha v hv x hx y hy
  simp [State.takeReturn, h, hc]

/-- So on a block with no other command outstanding. -/
theorem State.takeReturn_alone {s : State} {u : UnitId} {args : Operands} {steps : List (List Host.Cell)}
    {reply : Option Reply} (h : s.link u = .outstanding args steps reply) (ho : ∀ v, v ≠ u → s.link v = .idle) :
    s.takeReturn u =
      ((s.setLink u .idle).setMem (Memory.writeCells s.mem steps.flatten)).setReturns (s.returns ++ [⟨u, args, reply⟩]) :=
  State.takeReturn_apart h fun v hv x hx => by simp [ho v hv] at hx

/-- A return never changes a register, a table, the port or the host's events. -/
theorem State.takeReturn_keeps (s : State) (u : UnitId) :
    (s.takeReturn u).packCur = s.packCur ∧ (s.takeReturn u).unpk = s.unpk ∧ (s.takeReturn u).encRepl = s.encRepl ∧
      (s.takeReturn u).rom = s.rom ∧ (s.takeReturn u).port = s.port ∧ (s.takeReturn u).host = s.host := by
  cases h : s.link u with
  | idle => rw [State.takeReturn_idle h]; exact ⟨rfl, rfl, rfl, rfl, rfl, rfl⟩
  | outstanding args steps reply =>
    obtain ⟨_, t, ht, he⟩ := State.takeReturn_spec h
    rw [he]
    exact ⟨ht.packCur, ht.unpk, ht.encRepl, ht.rom, ht.port, ht.host⟩

/-- A write of the host that changes no SRC of a command outstanding: some writes outstanding may be done first; then the byte
is in memory. -/
theorem State.hostWrite_spec {s : State} {a : Nat} {b : Byte} (h : s.KeepsSrc [(a, b)]) :
    ∃ done t, State.Progress done s t ∧ s.hostWrite a b = .next (t.setMem (Memory.write t.mem a b)) := by
  obtain ⟨d, hd⟩ := s.settled_spec (s.contends [(a, b)])
  exact ⟨d, _, hd, by simp only [State.hostWrite, State.keepsSrc_iff.mp h, Bool.false_eq_true, if_false]⟩

theorem State.hostWrite_next {s t : State} {a : Nat} {b : Byte} (h : s.hostWrite a b = .next t) :
    s.KeepsSrc [(a, b)] ∧ ∃ done p, State.Progress done s p ∧ t = p.setMem (Memory.write p.mem a b) := by
  have hk : s.KeepsSrc [(a, b)] := by
    unfold State.hostWrite at h
    split at h
    · cases h
    · rename_i hk
      exact State.keepsSrc_iff.mpr (by simpa using hk)
  obtain ⟨d, p, hp, he⟩ := State.hostWrite_spec hk
  rw [he] at h
  cases h
  exact ⟨hk, d, p, hp, rfl⟩

/-- Power-on: some writes outstanding are done; then every unit is idle and every register at its reset value. -/
theorem State.powerOn_spec (s : State) :
    ∃ done t, State.Progress done s t ∧
      s.powerOn = ((t.setIdle.setPackCur 1#3).setUnpk 1#3 0#7 false).setEncRepl Config.replDefault := by
  obtain ⟨d, hd⟩ := s.settled_spec (allUnits.any (fun u => !(s.link u).writes.isEmpty))
  exact ⟨d, _, hd, rfl⟩

/-- With no write outstanding power-on uses no free value. -/
theorem State.powerOn_quiet {s : State} (h : ∀ u, (s.link u).writes = []) :
    s.powerOn = ((s.setIdle.setPackCur 1#3).setUnpk 1#3 0#7 false).setEncRepl Config.replDefault := by
  simp [State.powerOn, h]

/-- What a step can do when it answers a next state: nothing, run a decoded command, take a return, write the host's memory,
or power on. -/
theorem step_next {s t : State} (h : step s = .next t) :
    (s.host = [] ∧ t = s) ∨
    (∃ c es i rest, s.host = .issue c :: es ∧ decode c.bytes = .ok (i, rest) ∧
      exec i ((s.setHost es).setPort c.args) = .next t) ∨
    (∃ u es, s.host = .ret u :: es ∧ t = (s.setHost es).takeReturn u) ∨
    (∃ a b es, s.host = .write a b :: es ∧ (s.setHost es).hostWrite a b = .next t) ∨
    (∃ es, s.host = .powerOn :: es ∧ t = (s.setHost es).powerOn) := by
  unfold step at h
  split at h
  · rename_i hh
    cases h
    exact .inl ⟨hh, rfl⟩
  · rename_i e es hh
    cases e with
    | issue c =>
      simp only [State.handle, State.issue] at h
      split at h
      · cases h
      · rename_i i rest hd
        exact .inr (.inl ⟨c, es, i, rest, hh, hd, h⟩)
    | ret u =>
      simp only [State.handle] at h
      cases h
      exact .inr (.inr (.inl ⟨u, es, hh, rfl⟩))
    | write a b =>
      exact .inr (.inr (.inr (.inl ⟨a, b, es, hh, h⟩)))
    | powerOn =>
      simp only [State.handle] at h
      cases h
      exact .inr (.inr (.inr (.inr ⟨es, hh, rfl⟩)))

section send
variable {σ : Type} {pick : σ → Nat → List Byte → Pick σ} {put : State → σ → State}

/-- The state an XFORM command sent by the driver runs at. -/
def State.sendState (s : State) (u : UnitId) (src : List Byte) (dcap : Nat) : State :=
  ((s.setMem (Memory.writeBytes s.mem 0 src)).setHost [.ret u]).setPort ⟨0, src.length, src.length, dcap⟩

theorem State.sendState_srcBytes (s : State) (u : UnitId) (src : List Byte) (dcap : Nat) :
    (s.sendState u src dcap).srcBytes = src :=
  Memory.readBytes_writeBytes s.mem 0 src

/-- Writing a unit's registers keeps everything that is not a register. -/
def PutKeeps (put : State → σ → State) : Prop :=
  ∀ t r, (put t r).mem = t.mem ∧ (put t r).links = t.links ∧ (put t r).returns = t.returns ∧
    (put t r).host = t.host ∧ (put t r).port = t.port ∧ (put t r).rom = t.rom

theorem putKeeps_setPackCur : PutKeeps State.setPackCur := fun _ _ => ⟨rfl, rfl, rfl, rfl, rfl, rfl⟩
theorem putKeeps_putUnpk : PutKeeps State.putUnpk := fun _ _ => ⟨rfl, rfl, rfl, rfl, rfl, rfl⟩
theorem putKeeps_none : PutKeeps (fun (t : State) (_ : Unit) => t) := fun _ _ => ⟨rfl, rfl, rfl, rfl, rfl, rfl⟩

theorem State.sendState_accepts {s : State} (u v : UnitId) (src : List Byte) (dcap : Nat) (h : s.AllIdle) :
    (s.sendState u src dcap).Accepts v :=
  State.accepts_of_allIdle v (fun w => h w) (by simp [State.sendState, Operands.disjoint, rangesOverlap])

/-- What the driver gets from one XFORM command on an idle block: the run's bytes and results, and the state after the
command's return. -/
theorem State.send_eq {s : State} {i : Instr} {r : σ} {src : List Byte} {dcap : Nat} {rest : List Byte}
    (hp : PickBounded pick) (hput : PutKeeps put) (hidle : s.AllIdle) (hdec : decode (encode i) = .ok (i, rest))
    (hex : exec i (s.sendState i.unit src dcap) = (s.sendState i.unit src dcap).xform i.unit pick r put)
    (hr : (runUnit pick r dcap src).stop ≠ .refuse) :
    s.send i src dcap =
      some ⟨(((s.sendState i.unit src dcap).afterXform i.unit put (runUnit pick r dcap src)).setHost []).takeReturn i.unit,
        (runUnit pick r dcap src).out, replyOf (runUnit pick r dcap src)⟩ := by
  have hsrc := s.sendState_srcBytes i.unit src dcap
  have hport : (s.sendState i.unit src dcap).port.dcap = dcap := rfl
  have hx : exec i (s.sendState i.unit src dcap) =
      .next ((s.sendState i.unit src dcap).afterXform i.unit put (runUnit pick r dcap src)) := by
    have := State.xform_accepted (put := put) (r := r) hp (s.sendState_accepts i.unit i.unit src dcap hidle)
      (by rw [hsrc, hport]; exact hr) (State.keepsSrc_of_allIdle _ (show (s.sendState i.unit src dcap).AllIdle from hidle))
    rw [hsrc, hport] at this
    rw [hex, this]
  have h1 : step ((s.setMem (Memory.writeBytes s.mem 0 src)).setHost
      [.issue ⟨encode i, ⟨0, src.length, src.length, dcap⟩⟩, .ret i.unit]) =
      .next ((s.sendState i.unit src dcap).afterXform i.unit put (runUnit pick r dcap src)) := by
    simp only [step, State.setHost_host, State.handle, State.issue, hdec]
    exact hx
  obtain ⟨hm, hl, hret, hh, -, -⟩ := hput (s.sendState i.unit src dcap) (runUnit pick r dcap src).reg
  have h2 : step ((s.sendState i.unit src dcap).afterXform i.unit put (runUnit pick r dcap src)) =
      .next ((((s.sendState i.unit src dcap).afterXform i.unit put (runUnit pick r dcap src)).setHost []).takeReturn
        i.unit) := by
    have : ((s.sendState i.unit src dcap).afterXform i.unit put (runUnit pick r dcap src)).host = [.ret i.unit] := by
      simp only [State.afterXform, State.endCommand_host, hh]
      rfl
    simp [step, this, State.handle]
  have hlink : (((s.sendState i.unit src dcap).afterXform i.unit put (runUnit pick r dcap src)).setHost []).link i.unit =
      .outstanding (s.sendState i.unit src dcap).port (stepCells src.length (runUnit pick r dcap src).outs)
        (some (replyOf (runUnit pick r dcap src))) := by
    simp [State.afterXform, dstSteps, State.sendState]
  have hother : ∀ v, v ≠ i.unit →
      (((s.sendState i.unit src dcap).afterXform i.unit put (runUnit pick r dcap src)).setHost []).link v = .idle := by
    intro v hv
    simp only [State.setHost_link, State.afterXform, State.endCommand_link_other _ _ _ _ hv]
    rw [State.link, hl]
    exact hidle v
  have hret := State.takeReturn_alone hlink hother
  have hmem : Memory.readBytes
      ((((s.sendState i.unit src dcap).afterXform i.unit put (runUnit pick r dcap src)).setHost []).takeReturn
        i.unit).mem src.length (runUnit pick r dcap src).out.length = (runUnit pick r dcap src).out := by
    rw [hret]
    simp only [State.setReturns_mem, State.setMem_mem, stepCells_flatten, Run.outs_flatten, Memory.writeCells_cellsFrom]
    exact Memory.readBytes_writeBytes _ _ _
  have hlast : ((((s.sendState i.unit src dcap).afterXform i.unit put (runUnit pick r dcap src)).setHost []).takeReturn
      i.unit).returns.getLast? =
      some ⟨i.unit, (s.sendState i.unit src dcap).port, some (replyOf (runUnit pick r dcap src))⟩ := by
    rw [hret]
    simp
  simp only [State.send, h1, h2, hlast]
  simp only [show (replyOf (runUnit pick r dcap src)).ndst = (runUnit pick r dcap src).out.length from rfl, hmem]

/-- A command whose input is refused gives the driver nothing. -/
theorem State.send_refused {s : State} {i : Instr} {r : σ} {src : List Byte} {dcap : Nat} {rest : List Byte}
    (hidle : s.AllIdle) (hdec : decode (encode i) = .ok (i, rest))
    (hex : exec i (s.sendState i.unit src dcap) = (s.sendState i.unit src dcap).xform i.unit pick r put)
    (hr : (runUnit pick r dcap src).stop = .refuse) : s.send i src dcap = none := by
  have hsrc := s.sendState_srcBytes i.unit src dcap
  have hport : (s.sendState i.unit src dcap).port.dcap = dcap := rfl
  have h1 : step ((s.setMem (Memory.writeBytes s.mem 0 src)).setHost
      [.issue ⟨encode i, ⟨0, src.length, src.length, dcap⟩⟩, .ret i.unit]) = .refused .decoderInput := by
    simp only [step, State.setHost_host, State.handle, State.issue, hdec]
    have := State.xform_refused (put := put) (r := r) (s.sendState_accepts i.unit i.unit src dcap hidle)
      (by rw [hsrc, hport]; exact hr)
    exact hex.trans this
  simp only [State.send, h1]

end send

end Sys2Proof.Machine
end

