-- ==== Sys2Proof/Machine/Flags.lean ====
section
/-!
DEFINITION. The block's only flag, STATUS (spec/10_state.md R29, spec/30_encoding.md R82): its numeric code, and what the
host reads off it together with the counts (spec/40_commands.md R114, spec/00_scope.md R12).
-/

namespace Sys2Proof.Machine

/-- The STATUS bit: 0 = OK, 1 = DestinationFull (R82). -/
def Status.code (st : Status) : BitVec 1 :=
  match st with
  | .ok => 0#1
  | .destinationFull => 1#1

/-- OK with NSRC < SLEN: the sign that the unit wants more input (R114). -/
def Reply.wantsInput (r : Reply) (slen : Nat) : Bool :=
  r.status == .ok && decide (r.nsrc < slen)

/-- The command ended the stream (R12): FINAL = 1, OK, all input consumed. For the unpacker nothing is then pending, since a
pending septet without room makes the status DestinationFull (R224). -/
def Reply.endsStream (r : Reply) (final : Bool) (slen : Nat) : Bool :=
  final && r.status == .ok && r.nsrc == slen

end Sys2Proof.Machine
end

