-- ==== Sys2Proof/Tests/Slice0.lean ====
section
/-!
SUPPORT. The model's own tests: the checks of WellFormed refuse ill-formed terms, every command's word decodes, single commands
give what the spec's worked examples and vectors (spec/95_test_vectors.md) say, and every statement with hypotheses has a
state and operands that meet them (`wit_…`).
-/

namespace Sys2Proof.Tests

open Sys2Proof.Machine

/-! ### The checks of WellFormed (R83, R58, R32, R294) -/

theorem test_wf_reserved_op : commandWordOk 0x40#8 = false := by decide
theorem test_wf_reserved_z : commandWordOk 0x18#8 = false := by decide
theorem test_wf_reset_final : commandWordOk 0x24#8 = false := by decide
theorem test_wf_setrepl_unit : commandWordOk 0x30#8 = false := by decide
theorem test_wf_overlap : Operands.disjoint ⟨0, 4, 3, 1⟩ = false := by decide
theorem test_wf_adjacent_regions : Operands.disjoint ⟨0, 4, 4, 1⟩ = true := by decide
theorem test_wf_empty_region : Operands.disjoint ⟨1, 0, 0, 4⟩ = true := by decide

/-- Tables with the given encode tables and one-byte decode entries. -/
def tablesOf (enc : List EncPair) (ext : List ExtTriple) : Tables :=
  ⟨Vector.replicate 128 (.one 0x3F#8), [], enc, ext⟩

theorem test_wf_not_ascending : ¬ (tablesOf [⟨1#8, 5#21⟩, ⟨2#8, 5#21⟩] []).wf := by decide
theorem test_wf_too_long : ¬ (tablesOf (List.replicate 129 ⟨1#8, 5#21⟩) []).wf := by simp [tablesOf]
theorem test_wf_enc_cp_too_big : ¬ (tablesOf [⟨1#8, 0x110000#21⟩] []).wf := by decide
theorem test_wf_ext_cp_too_big : ¬ (tablesOf [] [⟨0x1B#8, 1#8, 0x110000#21⟩]).wf := by decide

/-! ### Decoding words written out from the table of R80, and the reserved words of spec/95_test_vectors.md section 6 -/

theorem test_decode_xform_dec : decode [0b00010000#8] = .ok (.xformDec false, []) := by decide
theorem test_decode_xform_dec_final : decode [0b00010100#8] = .ok (.xformDec true, []) := by decide
theorem test_decode_xform_enc : decode [0b00010001#8] = .ok (.xformEnc false, []) := by decide
theorem test_decode_xform_enc_final : decode [0b00010101#8] = .ok (.xformEnc true, []) := by decide
theorem test_decode_xform_pack : decode [0b00010010#8] = .ok (.xformPack false, []) := by decide
theorem test_decode_xform_pack_final : decode [0b00010110#8] = .ok (.xformPack true, []) := by decide
theorem test_decode_xform_unpack : decode [0b00010011#8] = .ok (.xformUnpack false, []) := by decide
theorem test_decode_xform_unpack_final : decode [0b00010111#8] = .ok (.xformUnpack true, []) := by decide
theorem test_decode_reset_dec : decode [0b00100000#8] = .ok (.resetDec, []) := by decide
theorem test_decode_reset_enc : decode [0b00100001#8] = .ok (.resetEnc, []) := by decide
theorem test_decode_reset_pack : decode [0b00100010#8] = .ok (.resetPack, []) := by decide
theorem test_decode_reset_unpack : decode [0b00100011#8] = .ok (.resetUnpack, []) := by decide
theorem test_decode_setrepl : decode [0b00110001#8, 0xA5#8, 7#8] = .ok (.setRepl 0xA5#8, [7#8]) := by decide

theorem test_decode_reserved : [0x00#8, 0x0F#8, 0x40#8, 0xFF#8].map (fun w => decode [w, 0#8]) =
    List.replicate 4 (.error .reservedOp) := by decide
theorem test_decode_reserved_z : [0x18#8, 0x1F#8, 0x28#8, 0x39#8].map (fun w => decode [w, 0#8]) =
    List.replicate 4 (.error .reservedZ) := by decide
theorem test_decode_reserved_final : [0x24#8, 0x27#8, 0x35#8].map (fun w => decode [w, 0#8]) =
    List.replicate 3 (.error .reservedFinal) := by decide
theorem test_decode_reserved_unit : [0x30#8, 0x32#8].map (fun w => decode [w, 0#8]) =
    List.replicate 2 (.error .reservedUnit) := by decide
theorem test_decode_cut_short : decode [] = .error .noWord ∧ decode [0x31#8] = .error .noImm8 := by decide
theorem test_table_word_imm : decodeTableWord 16 0x2031 = some (.setRepl 0x20#8) ∧
    decodeTableWord 8 0x2031 = some (.setRepl 0#8) := by decide

/-! ### Single commands -/

/-- The tables of the small tests: the entries the source's examples reveal for U+0061, U+00E8 and U+20AC, and every other
code one byte. -/
def smallTables : Tables where
  baseDec := ((Vector.replicate 128 (.one 0x3F#8)).set 0x61 (.one 0x61#8)).set 0x04 (.two 0xC3#8 0xA8#8)
  escDec := [(0x65#8, .three 0xE2#8 0x82#8 0xAC#8)]
  encTab := [⟨0x61#8, 0x61#21⟩, ⟨0x04#8, 0xE8#21⟩]
  extTab := [⟨0x1B#8, 0x65#8, 0x20AC#21⟩]

/-- The state after reset with the small tables. -/
def start : State := { State.reset with rom := smallTables }

/-- NSRC, STATUS and the bytes written. -/
def answer (s : State) (i : Instr) (src : List Byte) (dcap : Nat) : Option (List Byte × Nat × Status) :=
  (s.send i src dcap).map (fun a => (a.out, a.reply.nsrc, a.reply.status))

/-- S1. -/
theorem test_pack_two : answer start (.xformPack true) [0x31#8, 0x32#8] 8 = some ([0x31#8, 0x19#8], 2, .ok) := by decide
/-- The cursor 7 step of PK12: both septets consumed. -/
theorem test_pack_pair7 : answer (start.setPackCur 7#3) (.xformPack true) [0x41#8, 0x41#8] 8 =
    some ([0x83#8], 2, .ok) := by decide
/-- UP5. -/
theorem test_unpack_three : answer start (.xformUnpack false) [0xAA#8, 0x55#8, 0xC3#8] 8 =
    some ([0x2A#8, 0x2B#8, 0x0D#8], 3, .ok) := by decide
/-- UP2, second part: no room for the pending septet. -/
theorem test_unpack_owed : answer (start.setUnpk 7#3 0x7F#7 true) (.xformUnpack false) [] 0 =
    some ([], 0, .destinationFull) := by decide
/-- The example of R140, and the escape pair of R142. -/
theorem test_dec_escape : answer start (.xformDec true) [0x04#8, 0x1B#8, 0x65#8] 8 =
    some ([0xC3#8, 0xA8#8, 0xE2#8, 0x82#8, 0xAC#8], 3, .ok) := by decide
/-- DE7: both bytes of an escape pair stay if its entry does not fit. -/
theorem test_dec_full : answer start (.xformDec true) [0x61#8, 0x1B#8, 0x65#8] 3 =
    some ([0x61#8], 1, .destinationFull) := by decide
/-- S4, S5 in part, and EN6: a base code, an extension pair, an invalid byte. -/
theorem test_enc_mixed : answer start (.xformEnc true) [0xC3#8, 0xA8#8, 0xE2#8, 0x82#8, 0xAC#8, 0xFF#8] 8 =
    some ([0x04#8, 0x1B#8, 0x65#8, 0x3F#8], 6, .ok) := by decide
/-- EN7, last line: the room test comes before the hold. -/
theorem test_enc_room_first : answer start (.xformEnc false) [0xE2#8, 0x82#8] 1 = some ([], 0, .destinationFull) := by
  decide

/-- The next state, if there is one, meets a condition. -/
def nextWith (o : Host.Outcome State Fault Refusal) (p : State → Bool) : Bool :=
  match o with
  | .next t => p t
  | .fault _ => false
  | .refused _ => false

/-- R207, R172: RESET.PACK sets the cursor; RESET.ENC keeps ENC.REPL. -/
theorem test_reset_pack : nextWith (exec .resetPack (start.setPackCur 5#3)) (fun t => t.packCur == 1#3) = true := by decide
theorem test_reset_unpack : nextWith (exec .resetUnpack (start.setUnpk 7#3 5#7 true))
    (fun t => t.unpk == ⟨1#3, 0#7, false⟩) = true := by decide
theorem test_reset_enc : nextWith (exec .resetEnc (start.setEncRepl 0x1B#8)) (fun t => t.encRepl == 0x1B#8) = true := by
  decide
theorem test_reset_dec : nextWith (exec .resetDec start) (fun t => t.packCur == 1#3) = true := by decide
/-- EN9. -/
theorem test_setrepl_zero : nextWith (exec (.setRepl 0#8) (start.setEncRepl 0x20#8)) (fun t => t.encRepl == 0x3F#8) = true := by
  decide
theorem test_setrepl : nextWith (exec (.setRepl 0x80#8) start) (fun t => t.encRepl == 0x80#8) = true := by decide
/-- The first command after reset, as a table word. -/
theorem test_first_step : nextWith (step (State.reset.withFetchWord 8 0x12))
    (fun t => t.links.pack == .outstanding Operands.none [] (some ⟨0, 0, .ok⟩)) = true := by decide

/-- R61: a command's bytes stand in memory when it has returned. -/
theorem test_return_lands : nextWith (core.run 2 ((start.setMem (Memory.writeBytes [] 0 [0x31#8, 0x32#8])).setHost
    [.issue ⟨[0x16#8], ⟨0, 2, 2, 2⟩⟩, .ret .pack])) (fun t => Memory.readBytes t.mem 2 2 == [0x31#8, 0x19#8]) = true := by
  decide
/-- R112: the three bytes of an escape pair are the writes of one step, and reach memory all at once. -/
theorem test_step_lands_whole : nextWith (exec (.xformDec true)
    ((start.setMem (Memory.writeBytes [] 0 [0x61#8, 0x1B#8, 0x65#8])).setPort ⟨0, 3, 3, 4⟩))
    (fun t => (t.link .dec).steps == [[(3, 0x61#8)], [(4, 0xE2#8), (5, 0x82#8), (6, 0xAC#8)]] &&
      Memory.readBytes ((t.advance .dec).advance .dec).mem 3 4 == [0x61#8, 0xE2#8, 0x82#8, 0xAC#8] &&
      Memory.readBytes (t.advance .dec).mem 3 4 == [0x61#8, 0#8, 0#8, 0#8]) = true := by decide
/-- R291: power-on over an outstanding SETREPL sets ENC.REPL to its reset value and leaves the encoder idle. -/
theorem test_power_on_cuts_setrepl : nextWith (core.run 2 (start.setHost [.issue ⟨[0x31#8, 0x20#8], Operands.none⟩, .powerOn]))
    (fun t => t.encRepl == 0x3F#8 && t.links.enc == .idle) = true := by decide

/-! ### Witnesses: a state and operands that meet the hypotheses of each statement, every clause of it -/

theorem exists_next {o : Host.Outcome State Fault Refusal} {p : State → Bool} (h : nextWith o p = true) :
    ∃ t, o = .next t ∧ p t = true := by
  cases o with
  | next t => exact ⟨t, rfl, h⟩
  | fault f => cases h
  | refused r => cases h

theorem exists_some {α : Type} {o : Option α} {p : α → Bool} (h : o.any p = true) : ∃ a, o = some a ∧ p a = true := by
  cases o with
  | none => cases h
  | some a => exact ⟨a, rfl, h⟩

/-- The start state with these bytes from address 0 on as SRC, and DST of this room right behind it. -/
def loaded (src : List Byte) (dcap : Nat) : State :=
  (start.setMem (Memory.writeBytes [] 0 src)).setPort ⟨0, src.length, src.length, dcap⟩

theorem start_allIdle : start.AllIdle := fun u => by cases u <;> rfl

theorem loaded_allIdle (src : List Byte) (dcap : Nat) : (loaded src dcap).AllIdle := fun u => by cases u <;> rfl

theorem loaded_accepts (src : List Byte) (dcap : Nat) (u : UnitId) : (loaded src dcap).Accepts u :=
  State.accepts_of_allIdle u (loaded_allIdle src dcap) (by
    simp [loaded, Operands.disjoint, rangesOverlap])

/-- The start state with a command of unit `u` outstanding on SRC at 0 to 3 and DST at 4 to 7, two bytes of it to be written. -/
def waiting (u : UnitId) : State :=
  start.setLink u (.outstanding ⟨0, 4, 4, 4⟩ [[(4, 0x31#8)], [(5, 0x32#8)]] (some ⟨2, 2, .ok⟩))

theorem wit_DecodedBytesAreTheEncoding : ∃ bs i rest, decode bs = .ok (i, rest) := ⟨[0x31#8, 9#8], _, _, rfl⟩

theorem wit_ReservedWordIsRefused : ∃ (s : State) (w : Byte) (rest : List Byte) (args : Operands) (es : List HostEvent),
    s.host = .issue ⟨w :: rest, args⟩ :: es ∧
    ¬ ((0x10 ≤ w.toNat ∧ w.toNat ≤ 0x17) ∨ (0x20 ≤ w.toNat ∧ w.toNat ≤ 0x23) ∨ w.toNat = 0x31) :=
  ⟨start.setHost [.issue ⟨[0x18#8], Operands.none⟩], 0x18#8, [], _, [], rfl, by decide⟩

theorem wit_StepRunsTheIssuedCommand : ∃ (s : State) (c : Command) (es : List HostEvent) (i : Instr) (rest : List Byte),
    s.host = .issue c :: es ∧ decode c.bytes = .ok (i, rest) :=
  ⟨start.setHost [.issue ⟨[0x22#8], Operands.none⟩], _, [], .resetPack, [], rfl, rfl⟩

theorem wit_IdleAndReturnSteps_idle : ∃ s : State, s.host = [] := ⟨start, rfl⟩

theorem wit_IdleAndReturnSteps_return : ∃ (s : State) (u : UnitId) (es : List HostEvent) (args : Operands)
    (steps : List (List Host.Cell)) (reply : Option Reply), s.host = .ret u :: es ∧ s.link u = .outstanding args steps reply ∧
    steps.flatten ≠ [] ∧ ∀ v, v ≠ u → ∀ x ∈ (s.link v).writes, ∀ y ∈ steps.flatten, x.1 ≠ y.1 :=
  ⟨(waiting .pack).setHost [.ret .pack], .pack, [], _, _, _, rfl, rfl, by decide,
    fun v hv x hx => by cases v <;> first | exact absurd rfl hv | cases hx⟩

theorem wit_PowerOnSetsEveryRegister_busy : ∃ (s : State) (es : List HostEvent) (u : UnitId), s.host = .powerOn :: es ∧
    (s.link u).writes ≠ [] := ⟨(waiting .unpack).setHost [.powerOn], [], .unpack, rfl, by decide⟩

theorem wit_PowerOnSetsEveryRegister_quiet : ∃ (s : State) (es : List HostEvent), s.host = .powerOn :: es ∧
    (∀ u, (s.link u).writes = []) ∧ s.link .enc ≠ .idle :=
  ⟨(start.setLink .enc (.outstanding Operands.none [] none)).setHost [.powerOn], [], rfl, fun u => by cases u <;> rfl,
    by decide⟩

theorem wit_ResetCommandsComplete : ∀ u : UnitId, ∃ s : State, s.link u = .idle := fun u => ⟨start, start_allIdle u⟩

theorem wit_SetReplCompletes : ∃ (s : State), s.link .enc = .idle := ⟨start, rfl⟩

theorem wit_BusyUnitRefusesEveryCommand : ∃ (i : Instr) (s : State) (args : Operands) (steps : List (List Host.Cell))
    (reply : Option Reply), s.link i.unit = .outstanding args steps reply := ⟨.setRepl 1#8, waiting .enc, _, _, _, rfl⟩

theorem wit_OverlapAndChangedSrcAreRefused_own : ∃ (s : State) (u : UnitId) (x : Nat), s.link u = .idle ∧
    s.port.srcAt ≤ x ∧ x < s.port.srcAt + s.port.slen ∧ s.port.dstAt ≤ x ∧ x < s.port.dstAt + s.port.dcap :=
  ⟨start.setPort ⟨0, 4, 3, 1⟩, .pack, 3, rfl, by decide⟩

theorem wit_OverlapAndChangedSrcAreRefused_write : ∃ (s : State) (es : List HostEvent) (a : Nat) (b : Byte) (u : UnitId)
    (args : Operands) (steps : List (List Host.Cell)) (reply : Option Reply), s.host = .write a b :: es ∧
    s.link u = .outstanding args steps reply ∧ args.srcAt ≤ a ∧ a < args.srcAt + args.slen ∧ Memory.read s.mem a ≠ b :=
  ⟨(waiting .dec).setHost [.write 3 1#8], [], 3, 1#8, .dec, _, _, _, rfl, rfl, by decide⟩

theorem wit_OutstandingWritesIntoSrcAreRefused_src : ∃ (s : State) (u v : UnitId), s.link u = .idle ∧ s.port.disjoint = true ∧
    changesSrc s.mem s.port (s.link v).writes = true :=
  ⟨(waiting .enc).setPort ⟨5, 1, 8, 1⟩, .pack, .enc, rfl, rfl, by decide⟩

theorem wit_OutstandingWritesIntoSrcAreRefused_dst : ∃ (s : State) (u v : UnitId), s.Accepts u ∧ u ≠ .dec ∧
    (∀ w x, s.port.dstAt ≤ x → x < s.port.dstAt + s.port.dcap →
      ¬ ((s.link w).args.srcAt ≤ x ∧ x < (s.link w).args.srcAt + (s.link w).args.slen)) ∧
    dstClash s.port (s.link v).args = true := by
  refine ⟨(waiting .enc).setPort ⟨8, 1, 5, 1⟩, .pack, .enc, ⟨rfl, rfl, fun w => by cases w <;> rfl⟩, by decide,
    fun w x h1 h2 h3 => ?_, rfl⟩
  cases w <;> simp [waiting, State.link, Links.get, Links.set, Link.args, start, State.reset, Operands.none] at h1 h2 h3
  omega

/-- The whole DST region offered to a packer's hold is the SRC of the command outstanding. -/
def holding : State := (waiting .enc).setPort ⟨8, 1, 0, 4⟩

theorem holding_accepts : holding.Accepts .pack := ⟨rfl, rfl, fun w => by cases w <;> rfl⟩

theorem wit_OutstandingWritesIntoSrcAreRefused_hold : ∃ s : State, s.Accepts .pack ∧ s.port.slen = 1 ∧
    rangesOverlap s.port.dstAt s.port.dcap (s.link .enc).args.srcAt (s.link .enc).args.slen = true :=
  ⟨holding, holding_accepts, rfl, rfl⟩

/-- R56, R58: the hold writes no byte, so the SRC it is offered as DST does not change, and it runs. -/
theorem test_hold_over_outstanding_src : nextWith (exec (.xformPack false) holding)
    (fun t => t.links.pack == .outstanding ⟨8, 1, 0, 4⟩ [] (some ⟨0, 0, .ok⟩)) = true := by decide

theorem wit_WritesLandUnderOutstandingCommands_write : ∃ (s : State) (es : List HostEvent) (a : Nat) (b : Byte)
    (u : UnitId), s.host = .write a b :: es ∧ s.KeepsSrc [(a, b)] ∧ ∃ x ∈ (s.link u).writes, x.1 = a :=
  ⟨(waiting .dec).setHost [.write 4 1#8], [], 4, 1#8, .dec, rfl, fun v => by cases v <;> rfl, (4, 0x31#8), by decide, rfl⟩

theorem wit_WritesLandUnderOutstandingCommands_apart : ∃ (s : State) (es : List HostEvent) (a : Nat) (b : Byte),
    s.host = .write a b :: es ∧ s.KeepsSrc [(a, b)] ∧ (∀ u, ∀ x ∈ (s.link u).writes, x.1 ≠ a) ∧ ¬ s.AllIdle :=
  ⟨(waiting .dec).setHost [.write 6 1#8], [], 6, 1#8, rfl, fun v => by cases v <;> rfl,
    fun u => by cases u <;> decide, fun h => by have := h .dec; revert this; decide⟩

theorem wit_WritesLandUnderOutstandingCommands_return : ∃ (s : State) (es : List HostEvent) (u v : UnitId) (args : Operands)
    (steps : List (List Host.Cell)) (reply : Option Reply), s.host = .ret u :: es ∧ s.link u = .outstanding args steps reply ∧
    v ≠ u ∧ ∃ x ∈ (s.link v).writes, ∃ y ∈ steps.flatten, x.1 = y.1 :=
  ⟨((waiting .pack).setLink .enc (.outstanding ⟨8, 1, 5, 1⟩ [[(5, 0x33#8)]] (some ⟨1, 1, .ok⟩))).setHost [.ret .pack], [], .pack,
    .enc, _, _, _, rfl, rfl, by decide, (5, 0x33#8), by decide, (5, 0x32#8), by decide, rfl⟩

theorem wit_DecoderRefusesByteAtBaseLookup_base : ∃ (s : State) (pre post : List Byte) (c : Byte), s.Accepts .dec ∧
    (∀ b ∈ pre, b.toNat < 0x80 ∧ b ≠ 0x1B#8) ∧ 0x80 ≤ c.toNat ∧ s.srcBytes = pre ++ c :: post ∧
    3 * pre.length ≤ s.port.dcap :=
  ⟨loaded [0x61#8, 0x80#8] 3, [0x61#8], [], 0x80#8, loaded_accepts _ _ _, by decide, by decide, by decide, by decide⟩

theorem wit_DecoderRefusesByteAtBaseLookup_escape : ∃ (s : State) (pre post : List Byte) (c : Byte), s.Accepts .dec ∧
    (∀ b ∈ pre, b.toNat < 0x80 ∧ b ≠ 0x1B#8) ∧ 0x80 ≤ c.toNat ∧ s.srcBytes = pre ++ 0x1B#8 :: c :: post ∧
    escDecAt s.rom c = none ∧ 3 * pre.length + 3 ≤ s.port.dcap :=
  ⟨loaded [0x1B#8, 0x80#8] 3, [], [], 0x80#8, loaded_accepts _ _ _, by decide, by decide, by decide, by decide, by decide⟩

/-- The writes that the run of a command leaves, of unit `u`. -/
def runCells (u : UnitId) (s : State) : List Host.Cell :=
  dstCells s.port <| match u with
    | .dec => (runUnit (decPick s.rom true) () s.port.dcap s.srcBytes).out
    | .enc => (runUnit (encPick s.rom s.encRepl true) () s.port.dcap s.srcBytes).out
    | .pack => (runUnit (packPick true) s.packCur s.port.dcap s.srcBytes).out
    | .unpack => (runUnit unpackPick s.unpk s.port.dcap s.srcBytes).out

theorem wit_XformCompletes : ∀ u : UnitId, (loaded [0x61#8] 2).Accepts u ∧
    (loaded [0x61#8] 2).KeepsSrc (runCells u (loaded [0x61#8] 2)) :=
  fun u => ⟨loaded_accepts _ _ u, State.keepsSrc_of_allIdle _ (loaded_allIdle _ _)⟩

/-- A command of unit `u` outstanding has as SRC the byte at address 1, the first of DST. -/
def watched (u : UnitId) : State := (loaded [0x61#8] 2).setLink u (.outstanding ⟨1, 1, 8, 0⟩ [] (some ⟨0, 0, .ok⟩))

theorem watched_keeps_not (v : UnitId) (cells : List Host.Cell)
    (h : changesSrc (watched v).mem ⟨1, 1, 8, 0⟩ cells = true) : ¬ (watched v).KeepsSrc cells := fun hk => by
  have := hk v
  simp only [watched, State.setLink_link_same, Link.args] at this h
  rw [h] at this
  cases this

theorem wit_XformCompletes_changes_src : ∀ u : UnitId, ∃ s : State, s.Accepts u ∧ ¬ s.KeepsSrc (runCells u s) := by
  intro u
  cases u
  · exact ⟨watched .enc, ⟨rfl, rfl, fun w => by cases w <;> rfl⟩, watched_keeps_not .enc _ (by decide)⟩
  · exact ⟨watched .dec, ⟨rfl, rfl, fun w => by cases w <;> rfl⟩, watched_keeps_not .dec _ (by decide)⟩
  · exact ⟨watched .dec, ⟨rfl, rfl, fun w => by cases w <;> rfl⟩, watched_keeps_not .dec _ (by decide)⟩
  · exact ⟨watched .dec, ⟨rfl, rfl, fun w => by cases w <;> rfl⟩, watched_keeps_not .dec _ (by decide)⟩

/-- R58: a byte written into the SRC of a command outstanding is refused. -/
theorem test_output_over_outstanding_src : exec (.xformPack true) (watched .dec) = .refused .regions := rfl

theorem wit_XformDecCompletes : (loaded [0x61#8] 2).Accepts .dec ∧ (loaded [0x61#8] 2).KeepsSrc (runCells .dec (loaded [0x61#8] 2)) ∧
    ∀ b ∈ (loaded [0x61#8] 2).srcBytes, b.toNat < 0x80 :=
  ⟨(wit_XformCompletes .dec).1, (wit_XformCompletes .dec).2, by decide⟩

theorem wit_XformDecCompletes_changes_src : ∃ s : State, s.Accepts .dec ∧ ¬ s.KeepsSrc (runCells .dec s) ∧
    (runUnit (decPick s.rom true) () s.port.dcap s.srcBytes).stop ≠ .refuse :=
  ⟨watched .enc, ⟨rfl, rfl, fun w => by cases w <;> rfl⟩, watched_keeps_not .enc _ (by decide), by decide⟩

/-- The byte 0x85 after an escape code hits in ESCDEC, so the run meets no byte at the base lookup that stops it. -/
def highHit (src : List Byte) : State := { loaded src 2 with rom := { smallTables with escDec := [(0x85#8, .one 0x2A#8)] } }

theorem wit_XformDecCompletes_hit : ∃ s : State, s.Accepts .dec ∧ s.KeepsSrc (runCells .dec s) ∧ 0x85#8 ∈ s.srcBytes ∧
    (runUnit (decPick s.rom true) () s.port.dcap s.srcBytes).stop ≠ .refuse :=
  ⟨highHit [0x1B#8, 0x85#8], State.accepts_of_allIdle .dec (fun u => by cases u <;> rfl) (by decide),
    State.keepsSrc_of_allIdle _ (fun u => by cases u <;> rfl), by decide, by decide⟩

theorem wit_XformDecCompletes_refused : ∃ s : State, s.Accepts .dec ∧
    (runUnit (decPick s.rom true) () s.port.dcap s.srcBytes).stop = .refuse :=
  ⟨highHit [0x85#8], State.accepts_of_allIdle .dec (fun u => by cases u <;> rfl) (by decide), by decide⟩

theorem wit_PackPairStep : ∃ (c : BitVec 3) (dcap : Nat), 1 ≤ c.toNat ∧ c.toNat ≤ 6 ∧ 0 < dcap := ⟨6#3, 1, by decide⟩

theorem wit_PackPair7Step : ∃ dcap : Nat, 0 < dcap := ⟨1, by decide⟩

theorem wit_PackTailStep : ∃ (c : BitVec 3) (dcap : Nat), 1 ≤ c.toNat ∧ 0 < dcap := ⟨7#3, 1, by decide⟩

theorem wit_UnpackByteStep : ∃ (c : BitVec 3) (dcap : Nat), 1 ≤ c.toNat ∧ 0 < dcap := ⟨7#3, 1, by decide⟩

theorem wit_UnpackFlushStep : ∃ dcap : Nat, 0 < dcap := ⟨1, by decide⟩

theorem wit_DecodeBaseStep : ∃ (t : Tables) (dcap : Nat) (c : Septet),
    c.setWidth 8 ≠ 0x1B#8 ∧ (entryBytes t.baseDec[c.toNat]).length ≤ dcap := ⟨smallTables, 2, 0x04#7, by decide, by decide⟩

theorem wit_DecodeEscapeHitStep : ∃ (t : Tables) (dcap : Nat) (b : Byte) (e : DecodeEntry),
    escDecAt t b = some e ∧ (entryBytes e).length ≤ dcap := ⟨smallTables, 3, 0x65#8, _, rfl, by decide⟩

theorem wit_DecodeEscapeMissStep : ∃ (t : Tables) (dcap : Nat) (b : Byte),
    escDecAt t b = none ∧ (entryBytes t.baseDec[0x1B]).length ≤ dcap := ⟨smallTables, 1, 0x1B#8, by decide, by decide⟩

theorem wit_DecodeTrailingEscape : ∃ (t : Tables) (dcap : Nat), (entryBytes t.baseDec[0x1B]).length ≤ dcap :=
  ⟨smallTables, 1, by decide⟩

theorem wit_DecodeStops_base : ∃ (t : Tables) (dcap : Nat) (c : Septet),
    c.setWidth 8 ≠ 0x1B#8 ∧ dcap < (entryBytes t.baseDec[c.toNat]).length := ⟨smallTables, 1, 0x04#7, by decide, by decide⟩

theorem wit_DecodeStops_hit : ∃ (t : Tables) (dcap : Nat) (b : Byte) (e : DecodeEntry),
    escDecAt t b = some e ∧ dcap < (entryBytes e).length := ⟨smallTables, 2, 0x65#8, _, rfl, by decide⟩

theorem wit_DecodeStops_miss : ∃ (t : Tables) (dcap : Nat) (b : Byte),
    escDecAt t b = none ∧ dcap < (entryBytes t.baseDec[0x1B]).length := ⟨smallTables, 0, 0x41#8, by decide, by decide⟩

theorem wit_DecodeStops_last : ∃ (t : Tables) (dcap : Nat), dcap < (entryBytes t.baseDec[0x1B]).length :=
  ⟨smallTables, 0, by decide⟩

theorem wit_EncodeInvalidStep_invalid : ∃ (dcap : Nat) (b : Byte) (rest : List Byte),
    2 ≤ dcap ∧ utf8Decode (b :: rest) = .invalid := ⟨2, 0xED#8, [0xA0#8, 0x80#8], by decide⟩

theorem wit_EncodeInvalidStep_incomplete : ∃ (dcap : Nat) (b : Byte) (rest : List Byte),
    2 ≤ dcap ∧ utf8Decode (b :: rest) = .incomplete := ⟨2, 0xE2#8, [0x82#8], by decide⟩

theorem wit_EncodeTableStep : ∃ (t : Tables) (dcap size k : Nat) (src : List Byte) (p : EncPair), 2 ≤ dcap ∧
    binSearch t.encTab p.cp = some k ∧ t.encTab[k]? = some p ∧ utf8Decode src = .valid p.cp size ∧ p.gsm ≠ 0x1B#8 :=
  ⟨smallTables, 2, 2, 1, [0xC3#8, 0xA8#8], ⟨0x04#8, 0xE8#21⟩, by decide, by decide, by decide, by decide, by decide⟩

theorem wit_EncodeTableStep_escape : ∃ (t : Tables) (dcap size k : Nat) (src : List Byte) (p : EncPair), 2 ≤ dcap ∧
    binSearch t.encTab p.cp = some k ∧ t.encTab[k]? = some p ∧ utf8Decode src = .valid p.cp size ∧ p.gsm = 0x1B#8 :=
  ⟨tablesOf [⟨0x1B#8, 0x1B#21⟩] [], 2, 1, 0, [0x1B#8], ⟨0x1B#8, 0x1B#21⟩, by decide, by decide, by decide, by decide, rfl⟩

theorem wit_EncodeExtensionStep : ∃ (t : Tables) (dcap size : Nat) (src : List Byte) (before after : List ExtTriple)
    (x : ExtTriple), 2 ≤ dcap ∧ t.extTab = before ++ x :: after ∧ (∀ y ∈ before, y.cp ≠ x.cp) ∧
    binSearch t.encTab x.cp = none ∧ utf8Decode src = .valid x.cp size :=
  ⟨smallTables, 2, 3, [0xE2#8, 0x82#8, 0xAC#8], [], [], ⟨0x1B#8, 0x65#8, 0x20AC#21⟩, by decide, rfl, by decide, by decide,
    by decide⟩

theorem wit_EncodeReplacementStep : ∃ (t : Tables) (dcap size : Nat) (src : List Byte) (cp : CodePoint), 2 ≤ dcap ∧
    binSearch t.encTab cp = none ∧ (∀ x ∈ t.extTab, x.cp ≠ cp) ∧ utf8Decode src = .valid cp size :=
  ⟨smallTables, 2, 3, [0xE4#8, 0xB8#8, 0xAD#8], 0x4E2D#21, by decide, by decide, by decide, by decide⟩

theorem wit_EncodeStops : (∃ dcap : Nat, dcap < 2) ∧ ∃ (dcap : Nat) (b : Byte) (rest : List Byte), 2 ≤ dcap ∧
    utf8Decode (b :: rest) = .incomplete := ⟨⟨1, by decide⟩, 2, 0xF4#8, [0x8F#8, 0xBF#8], by decide⟩

theorem wit_BinarySearchIsExact_ascending : ∃ (t : Tables) (cp : CodePoint) (k : Nat), t.ascending ∧
    binSearch t.encTab cp = some k := ⟨smallTables, 0xE8#21, 1, by decide, by decide⟩

theorem wit_BinarySearchIsExact_probes : ∃ (tab : List EncPair) (n : Nat), tab.length < 2 ^ n ∧ 0 < tab.length :=
  ⟨smallTables.encTab, 3, by decide⟩

theorem wit_Utf8IncompleteIsProperPrefix : ∃ r : List Byte, r ≠ [] ∧ utf8Decode r = .incomplete :=
  ⟨[0xE2#8], by decide⟩

theorem wit_EmptySourceCommands_ok : ∀ u : UnitId, ∃ s : State, s.Accepts u ∧ s.port.slen = 0 ∧
    (u = .unpack → s.unpkPend = false) := fun u => ⟨loaded [] 0, loaded_accepts _ _ u, rfl, fun _ => rfl⟩

/-- The start state with a septet pending, no input, and this room. -/
def owing (dcap : Nat) : State := (loaded [] dcap).setUnpk 7#3 0x7F#7 true

theorem owing_allIdle (dcap : Nat) : (owing dcap).AllIdle := fun u => by cases u <;> rfl

theorem owing_accepts (dcap : Nat) : (owing dcap).Accepts .unpack :=
  State.accepts_of_allIdle _ (owing_allIdle dcap) rfl

theorem wit_EmptySourceCommands_full : ∃ s : State, s.Accepts .unpack ∧ s.port.slen = 0 ∧ s.unpkPend = true ∧
    s.port.dcap = 0 := ⟨owing 0, owing_accepts 0, rfl, rfl, rfl⟩

theorem wit_EmptySourceCommands_flush : ∃ s : State, s.Accepts .unpack ∧ s.port.slen = 0 ∧ s.unpkPend = true ∧
    0 < s.port.dcap ∧ s.KeepsSrc [(s.port.dstAt, BitVec.ofNat 8 s.unpkCarry.toNat)] :=
  ⟨owing 1, owing_accepts 1, rfl, rfl, by decide, State.keepsSrc_of_allIdle _ (owing_allIdle 1)⟩

/-- The results a unit's outstanding command waits with are these. -/
def hasReply (u : UnitId) (s t : State) (r : Reply) : Bool :=
  t.link u == .outstanding s.port (t.link u).steps (some r)

theorem wit_FinalOnlyReleasesHolds_full : ∃ (s t : State) (u : UnitId) (w : List (List Host.Cell)) (r : Reply),
    exec (xformOf u false) s = .next t ∧ t.link u = .outstanding s.port w (some r) ∧ r.status = .destinationFull := by
  obtain ⟨t, h, hp⟩ := exists_next (o := exec (xformOf .pack false) (loaded [1#8, 2#8] 0))
    (p := fun t => hasReply .pack (loaded [1#8, 2#8] 0) t ⟨0, 0, .destinationFull⟩) (by decide)
  exact ⟨_, t, .pack, _, _, h, by simpa [hasReply] using hp, rfl⟩

theorem wit_FinalOnlyReleasesHolds_all : ∃ (s t : State) (u : UnitId) (w : List (List Host.Cell)) (r : Reply),
    exec (xformOf u false) s = .next t ∧ t.link u = .outstanding s.port w (some r) ∧ r.nsrc = s.port.slen := by
  obtain ⟨t, h, hp⟩ := exists_next (o := exec (xformOf .enc false) (loaded [0x61#8] 2))
    (p := fun t => hasReply .enc (loaded [0x61#8] 2) t ⟨1, 1, .ok⟩) (by decide)
  exact ⟨_, t, .enc, _, _, h, by simpa [hasReply] using hp, rfl⟩

theorem wit_EnoughRoomMakesProgress : ∃ (s t : State) (u : UnitId) (final : Bool) (w : List (List Host.Cell)) (r : Reply),
    exec (xformOf u final) s = .next t ∧ t.link u = .outstanding s.port w (some r) ∧ roomToAdvance u ≤ s.port.dcap ∧
    r.status = .destinationFull := by
  obtain ⟨t, h, hp⟩ := exists_next (o := exec (xformOf .enc true) (loaded [0x61#8, 0x61#8] 2))
    (p := fun t => hasReply .enc (loaded [0x61#8, 0x61#8] 2) t ⟨1, 1, .destinationFull⟩) (by decide)
  exact ⟨_, t, .enc, true, _, _, h, by simpa [hasReply] using hp, by decide, rfl⟩

theorem wit_EncoderOutputBound : ∃ (s t : State) (final : Bool) (w : List (List Host.Cell)) (r : Reply),
    exec (.xformEnc final) s = .next t ∧ t.link .enc = .outstanding s.port w (some r) ∧ 2 * s.port.slen ≤ s.port.dcap := by
  obtain ⟨t, h, hp⟩ := exists_next (o := exec (.xformEnc true) (loaded [0xE2#8] 2))
    (p := fun t => hasReply .enc (loaded [0xE2#8] 2) t ⟨1, 1, .ok⟩) (by decide)
  exact ⟨_, t, true, _, _, h, by simpa [hasReply] using hp, by decide⟩

theorem wit_CommandsKeepOtherState : ∀ i : Instr, ∃ t, exec i (loaded [] 0) = .next t := by
  intro i
  cases i <;> exact ⟨_, rfl⟩

/-- A command of another unit outstanding, with writes apart from DST of the packer's. -/
theorem wit_CommandsWriteOnlyTheirOutput_apart : ∃ (s t : State), exec (xformOf .pack true) s = .next t ∧
    (∀ v, v ≠ .pack → ∀ x ∈ (s.link v).writes, x.1 < s.port.dstAt ∨ s.port.dstAt + s.port.dcap ≤ x.1) ∧
    (s.link .enc).writes ≠ [] ∧ t.link .pack ≠ .outstanding s.port [] (some ⟨0, 0, .ok⟩) := by
  obtain ⟨t, h, hp⟩ := exists_next (o := exec (xformOf .pack true) ((waiting .enc).setPort ⟨8, 1, 9, 1⟩))
    (p := fun t => t.link .pack != .outstanding ⟨8, 1, 9, 1⟩ [] (some ⟨0, 0, .ok⟩)) (by decide)
  exact ⟨_, t, h, fun v _ => by cases v <;> decide, by decide, by simpa using hp⟩

theorem wit_CommandsWriteOnlyTheirOutput : (∀ (u : UnitId) (final : Bool), ∃ t, exec (xformOf u final) (loaded [] 0) = .next t) ∧
    (∀ u : UnitId, ∃ t, exec (resetOf u) start = .next t) ∧ ∀ b : Byte, ∃ t, exec (.setRepl b) start = .next t :=
  ⟨fun u final => by cases u <;> exact ⟨_, rfl⟩, fun u => by cases u <;> exact ⟨_, rfl⟩, fun _ => ⟨_, rfl⟩⟩

/-- The loaded state with its regions one address further up, after another history: other registers of another unit. -/
def moved : State :=
  ((start.setMem (Memory.writeBytes [] 1 [0x61#8, 0x62#8])).setPort ⟨1, 2, 9, 4⟩).setUnpk 7#3 5#7 true

theorem wit_ResultsDependOnOwnUnitOnly : ∃ (s s' t t' : State) (u : UnitId) (final : Bool)
    (w w' : List (List Host.Cell)) (r r' : Reply), sameUnit u s s' ∧ s.port.dcap = s'.port.dcap ∧ s.srcBytes = s'.srcBytes ∧ exec (xformOf u final) s = .next t ∧
    exec (xformOf u final) s' = .next t' ∧ t.link u = .outstanding s.port w (some r) ∧
    t'.link u = .outstanding s'.port w' (some r') ∧ s.port ≠ s'.port := by
  obtain ⟨t, h, hp⟩ := exists_next (o := exec (xformOf .pack true) (loaded [0x61#8, 0x62#8] 4))
    (p := fun t => hasReply .pack (loaded [0x61#8, 0x62#8] 4) t ⟨2, 2, .ok⟩) (by decide)
  obtain ⟨t', h', hp'⟩ := exists_next (o := exec (xformOf .pack true) moved)
    (p := fun t => hasReply .pack moved t ⟨2, 2, .ok⟩) (by decide)
  exact ⟨loaded [0x61#8, 0x62#8] 4, moved, t, t', .pack, true, _, _, _, _, rfl, rfl, by decide, h, h', by simpa [hasReply] using hp,
    by simpa [hasReply] using hp', by decide⟩

theorem wit_StepKeepsTheInvariant : ∃ s t : State, s.Inv ∧ step s = .next t ∧ t.packCur ≠ s.packCur := by
  obtain ⟨t, h, hp⟩ := exists_next
    (o := step ((loaded [0x31#8, 0x32#8] 2).setHost [.issue ⟨[0x16#8], ⟨0, 2, 2, 2⟩⟩]))
    (p := fun t => t.packCur == 3#3) (by decide)
  refine ⟨_, t, ⟨by decide, by decide, fun u => by cases u <;> rfl, fun r hr => by cases hr⟩, h, ?_⟩
  have : t.packCur = 3#3 := by simpa using hp
  rw [this]
  decide

/-- The packer and the unpacker on one SRC, with DST regions apart. -/
def packing : Command := ⟨[0x16#8], ⟨0, 2, 2, 2⟩⟩
def unpacking : Command := ⟨[0x17#8], ⟨0, 2, 4, 2⟩⟩

theorem wit_CommandsToDifferentUnitsCommute_issue : ∃ (s t t' : State) (c d : Command) (es : List HostEvent) (i j : Instr)
    (ri rj : List Byte), decode c.bytes = .ok (i, ri) ∧ decode d.bytes = .ok (j, rj) ∧
    i.unit ≠ j.unit ∧ s.host = .issue c :: .issue d :: es ∧ step s = .next t ∧ step t = .next t' := by
  obtain ⟨t, h, hp⟩ := exists_next
    (o := step ((loaded [0x31#8, 0x32#8] 0).setHost [.issue packing, .issue unpacking]))
    (p := fun t => nextWith (step t) (fun _ => true)) (by decide)
  obtain ⟨t', h', -⟩ := exists_next hp
  exact ⟨_, t, t', packing, unpacking, [], .xformPack true, .xformUnpack true, [], [], rfl, rfl, by decide, rfl, h, h'⟩

theorem wit_CommandsToDifferentUnitsCommute_return : ∃ (s t : State) (c d : Command) (es : List HostEvent) (i j : Instr)
    (ri rj : List Byte), s.Inv ∧ decode c.bytes = .ok (i, ri) ∧ decode d.bytes = .ok (j, rj) ∧ i.unit ≠ j.unit ∧
    dstClash c.args d.args = false ∧
    (∀ u, dstClash c.args (s.link u).args = false ∧ dstClash d.args (s.link u).args = false) ∧
    core.run 4 { s with host := .issue c :: .issue d :: .ret i.unit :: .ret j.unit :: es } = .next t := by
  obtain ⟨t, h, -⟩ := exists_next
    (o := core.run 4 { loaded [0x31#8, 0x32#8] 0 with
      host := [.issue packing, .issue unpacking, .ret .pack, .ret .unpack] }) (p := fun _ => true) (by decide)
  exact ⟨loaded [0x31#8, 0x32#8] 0, t, packing, unpacking, [], .xformPack true, .xformUnpack true, [], [],
    ⟨by decide, by decide, fun u => by cases u <;> rfl, fun r hr => by cases hr⟩, rfl, rfl, by decide, by decide,
    fun u => by cases u <;> decide, h⟩

theorem wit_stream_starts : start.AllIdle ∧ start.atStart .pack = true ∧ start.atStart .unpack = true :=
  ⟨start_allIdle, rfl, rfl⟩

theorem wit_PackCursorCountsSeptets : start.AllIdle ∧ start.atStart .pack = true ∧
    ∃ a, start.send (.xformPack false) [1#8, 2#8, 3#8] 9 = some a := by
  obtain ⟨a, h, -⟩ := exists_some (o := start.send (.xformPack false) [1#8, 2#8, 3#8] 9) (p := fun _ => true) (by decide)
  exact ⟨start_allIdle, rfl, a, h⟩

theorem wit_RestContinuesTheStream : start.AllIdle ∧ (∃ a, start.send (xformOf .pack false) [1#8, 2#8, 3#8] 1 = some a) ∧
    ∃ w, start.streamOut .pack [1#8, 2#8, 3#8] = some w := by
  obtain ⟨a, h, -⟩ := exists_some (o := start.send (xformOf .pack false) [1#8, 2#8, 3#8] 1) (p := fun _ => true) (by decide)
  obtain ⟨w, hw, -⟩ := exists_some (o := start.streamOut .pack [1#8, 2#8, 3#8]) (p := fun _ => true) (by decide)
  exact ⟨start_allIdle, ⟨a, h⟩, w, hw⟩

/-- Three turns that cut a stream in two chunks and offer one byte of room. -/
def someTurns : List Turn := [⟨[1#8, 2#8], false, 1⟩, ⟨[3#8], true, 1⟩, ⟨[], true, 1⟩]

theorem wit_ChunkingDoesNotChangeTheOutput : start.AllIdle ∧ turnsOk someTurns = true ∧
    ∃ d, start.drive .pack [] someTurns = some d ∧ driveDone someTurns d = true := by
  obtain ⟨d, h, hp⟩ := exists_some (o := start.drive .pack [] someTurns) (p := driveDone someTurns) (by decide)
  exact ⟨start_allIdle, by decide, d, h, hp⟩

theorem wit_DriverOutputIsAPrefix : start.AllIdle ∧ turnsOk someTurns = true ∧
    (∃ d, start.drive .pack [] someTurns = some d) ∧ ∃ w, start.streamOut .pack (turnsInput someTurns) = some w := by
  obtain ⟨d, h, -⟩ := exists_some (o := start.drive .pack [] someTurns) (p := driveDone someTurns) (by decide)
  obtain ⟨w, hw, -⟩ := exists_some (o := start.streamOut .pack (turnsInput someTurns)) (p := fun _ => true) (by decide)
  exact ⟨start_allIdle, by decide, ⟨d, h⟩, w, hw⟩

theorem wit_ResetUnitIsAsFresh : ∃ s s' t : State, s.AllIdle ∧ s'.AllIdle ∧ s.rom = s'.rom ∧ s.encRepl = s'.encRepl ∧
    s'.atStart .unpack = true ∧ exec (resetOf .unpack) s = .next t ∧ s.atStart .unpack = false :=
  ⟨owing 0, start, _, owing_allIdle 0, start_allIdle, rfl, rfl, rfl, rfl, rfl⟩

theorem smallTables_consistent : smallTables.Consistent where
  base := by decide
  ext := by
    intro x h _
    have hx : x ∈ smallTables.extTab := List.mem_of_find?_eq_some h
    simp only [smallTables, List.mem_singleton] at hx
    subst hx
    exact ⟨rfl, _, rfl, by decide⟩

/-- The text "a", "è", the Euro sign. -/
def someText : List CodePoint := [0x61#21, 0xE8#21, 0x20AC#21]

theorem wit_EncodeDecodeRoundTrip : start.AllIdle ∧ start.rom.ascending ∧ start.rom.Consistent ∧
    ∀ cp ∈ someText, scalarValue cp = true ∧ start.rom.RoundTrips cp := by
  refine ⟨start_allIdle, by decide, smallTables_consistent, fun cp h => ?_⟩
  simp only [someText, List.mem_cons, List.not_mem_nil, or_false] at h
  rcases h with rfl | rfl | rfl
  · exact ⟨by decide, .inl (by decide)⟩
  · exact ⟨by decide, .inl (by decide)⟩
  · exact ⟨by decide, .inr (by decide)⟩

theorem wit_WholePipelineRoundTrip : start.AllIdle ∧ start.atStart .pack = true ∧ start.atStart .unpack = true ∧
    start.rom.ascending ∧ start.rom.Consistent ∧ (∀ x ∈ start.rom.extTab, x.gsm.toNat < 0x80) ∧
    ∀ cp ∈ someText, scalarValue cp = true ∧ start.rom.RoundTrips cp :=
  ⟨start_allIdle, rfl, rfl, wit_EncodeDecodeRoundTrip.2.1, smallTables_consistent, by decide,
    wit_EncodeDecodeRoundTrip.2.2.2⟩

end Sys2Proof.Tests
end

section
/-!
The effect of a command as data: which registers it writes, and what stands in its unit's command interface when it has run.
XFORM, RESET and SETREPL are one form here, so the frame, the invariant and the commutation are each proved once for all of
them; `exec_next_iff` ties the form to `exec`.
-/

namespace Sys2Proof.Machine

/-- The registers a command writes: none, or those of one unit. -/
inductive RegWrite where
  | none
  | packCur (c : BitVec 3)
  | unpk (r : UnpkRegs)
  | encRepl (b : Byte)

/-- The unit whose registers are written. -/
def RegWrite.unit : RegWrite → Option UnitId
  | .none => Option.none
  | .packCur _ => some .pack
  | .unpk _ => some .unpack
  | .encRepl _ => some .enc

/-- The registers written. -/
def State.putRegs (s : State) : RegWrite → State
  | .none => s
  | .packCur c => s.setPackCur c
  | .unpk r => s.putUnpk r
  | .encRepl b => s.setEncRepl b

section putRegs
variable (s : State) (w : RegWrite)

@[simp] theorem State.putRegs_rom : (s.putRegs w).rom = s.rom := by cases w <;> rfl
@[simp] theorem State.putRegs_port : (s.putRegs w).port = s.port := by cases w <;> rfl
@[simp] theorem State.putRegs_links : (s.putRegs w).links = s.links := by cases w <;> rfl
@[simp] theorem State.putRegs_mem : (s.putRegs w).mem = s.mem := by cases w <;> rfl
@[simp] theorem State.putRegs_host : (s.putRegs w).host = s.host := by cases w <;> rfl
@[simp] theorem State.putRegs_returns : (s.putRegs w).returns = s.returns := by cases w <;> rfl
@[simp] theorem State.putRegs_choices : (s.putRegs w).choices = s.choices := by cases w <;> rfl
@[simp] theorem State.putRegs_link (v : UnitId) : (s.putRegs w).link v = s.link v := by cases w <;> rfl

theorem State.putRegs_setPort (o : Operands) : (s.setPort o).putRegs w = (s.putRegs w).setPort o := by cases w <;> rfl
theorem State.putRegs_setHost (es : List HostEvent) : (s.setHost es).putRegs w = (s.putRegs w).setHost es := by
  cases w <;> rfl
theorem State.putRegs_setLink (u : UnitId) (k : Link) : (s.setLink u k).putRegs w = (s.putRegs w).setLink u k := by
  cases w <;> rfl
end putRegs

/-- A unit whose registers are not written keeps them. -/
theorem State.putRegs_sameRegs (s : State) {w : RegWrite} {v : UnitId} (h : w.unit ≠ some v) :
    sameRegs v (s.putRegs w) s := by
  cases w <;> cases v <;> trivial

/-- Writes to the registers of different units commute. -/
theorem State.putRegs_comm (s : State) {w w' : RegWrite} {u v : UnitId} (hw : ∀ x ∈ w.unit, x = u)
    (hw' : ∀ x ∈ w'.unit, x = v) (h : u ≠ v) : (s.putRegs w).putRegs w' = (s.putRegs w').putRegs w := by
  have hne : ∀ x, w.unit = some x → w'.unit ≠ some x := fun x hx hx' => h ((hw x hx).symm.trans (hw' x hx'))
  cases w with
  | none => rfl
  | packCur c =>
    cases w' with
    | packCur _ => exact absurd rfl (hne _ rfl)
    | _ => rfl
  | unpk r =>
    cases w' with
    | unpk _ => exact absurd rfl (hne _ rfl)
    | _ => rfl
  | encRepl b =>
    cases w' with
    | encRepl _ => exact absurd rfl (hne _ rfl)
    | _ => rfl

/-- What a command does: the registers it writes; the operands, the steps' writes and the results that stand in its unit's
interface afterwards; and why its loop ended. -/
structure Effect where
  regs  : RegWrite
  args  : Operands
  steps : List (List Host.Cell)
  reply : Option Reply
  stop  : Stop

/-- The effect of an XFORM command from its run (R111, R112). -/
def Effect.ofRun {σ : Type} (s : State) (regs : σ → RegWrite) (q : Run σ) : Effect :=
  ⟨regs q.reg, s.port, dstSteps s.port q.outs, some (replyOf q), q.stop⟩

/-- The effect of a command that reaches no region (R50). -/
def Effect.control (w : RegWrite) : Effect := ⟨w, Operands.none, [], none, .ok⟩

/-- The effect of each command in a state. -/
def effectOf (i : Instr) (s : State) : Effect :=
  match i with
  | .xformDec final => .ofRun s (fun _ => .none) (runUnit (decPick s.rom final) () s.port.dcap s.srcBytes)
  | .xformEnc final => .ofRun s (fun _ => .none) (runUnit (encPick s.rom s.encRepl final) () s.port.dcap s.srcBytes)
  | .xformPack final => .ofRun s .packCur (runUnit (packPick final) s.packCur s.port.dcap s.srcBytes)
  | .xformUnpack _ => .ofRun s .unpk (runUnit unpackPick s.unpk s.port.dcap s.srcBytes)
  | .resetDec => .control .none
  | .resetEnc => .control .none
  | .resetPack => .control (.packCur 1#3)
  | .resetUnpack => .control (.unpk ⟨1#3, 0#7, false⟩)
  | .setRepl imm8 => .control (.encRepl (replacementOf imm8))

/-- A state lets a command with this effect run on unit `u`: the unit is idle (R65), the regions and the writes change no SRC
(R58, log 8), and the input has a meaning (R146). -/
structure State.Admits (s : State) (u : UnitId) (e : Effect) : Prop where
  idle  : s.link u = .idle
  own   : e.args.disjoint = true
  src   : ∀ v, changesSrc s.mem e.args (s.link v).writes = false
  keeps : s.KeepsSrc e.steps.flatten
  meant : e.stop ≠ .refuse

/-- The state after a command with this effect on unit `u`. -/
def State.afterEffect (s : State) (u : UnitId) (e : Effect) : State :=
  (s.putRegs e.regs).endCommand u e.args e.steps e.reply

/-- Operands without a region have no SRC to change. -/
@[simp] theorem changesSrc_none (m : Memory) (cells : List Host.Cell) : changesSrc m Operands.none cells = false :=
  changesSrc_false.mpr fun x _ h1 h2 => by
    simp only [Operands.none] at h1 h2
    omega

/-- An XFORM command answers a next state exactly if its effect is admitted. -/
theorem State.xform_next_iff {σ : Type} {pick : σ → Nat → List Byte → Pick σ} {s t : State} {u : UnitId} {r : σ}
    {put : State → σ → State} {regs : σ → RegWrite} (hp : PickBounded pick) (hput : ∀ x, put s x = s.putRegs (regs x)) :
    s.xform u pick r put = .next t ↔
      s.Admits u (.ofRun s regs (runUnit pick r s.port.dcap s.srcBytes)) ∧
        t = s.afterEffect u (.ofRun s regs (runUnit pick r s.port.dcap s.srcBytes)) := by
  have hafter : ∀ q : Run σ, s.afterXform u put q = s.afterEffect u (.ofRun s regs q) := fun q => by
    simp only [State.afterXform, State.afterEffect, Effect.ofRun, hput]
  constructor
  · intro h
    obtain ⟨ha, hstop, hk, rfl⟩ := State.xform_next h
    refine ⟨⟨ha.idle, ha.own, ha.src, ?_, ?_⟩, hafter _⟩
    · simpa only [Effect.ofRun, dstSteps_flatten, Run.outs_flatten] using hk
    · rcases hstop with hq | hq <;> simp [Effect.ofRun, hq]
  · rintro ⟨⟨hidle, hown, hsrc, hk, hstop⟩, rfl⟩
    rw [← hafter]
    refine State.xform_accepted hp ⟨hidle, hown, hsrc⟩ hstop ?_
    simpa only [Effect.ofRun, dstSteps_flatten, Run.outs_flatten] using hk

/-- A command without regions answers a next state exactly if its unit is idle. -/
theorem State.control_next_iff {s t : State} {u : UnitId} {f : State → State} {w : RegWrite} (hf : f s = s.putRegs w) :
    s.control u f = .next t ↔ s.Admits u (.control w) ∧ t = s.afterEffect u (.control w) := by
  have hafter : (f s).endCommand u Operands.none [] Option.none = s.afterEffect u (.control w) := by
    rw [hf]; rfl
  constructor
  · intro h
    obtain ⟨hidle, rfl⟩ := State.control_next h
    exact ⟨⟨hidle, rfl, fun v => changesSrc_none _ _, s.keepsSrc_nil, nofun⟩, hafter⟩
  · rintro ⟨ha, rfl⟩
    rw [State.control_idle ha.idle, hafter]

/-- What every command does: it answers a next state exactly if the state admits its effect, and then that effect is all that
happens. -/
theorem exec_next_iff {i : Instr} {s t : State} :
    exec i s = .next t ↔ s.Admits i.unit (effectOf i s) ∧ t = s.afterEffect i.unit (effectOf i s) := by
  cases i with
  | xformDec final =>
    exact State.xform_next_iff (put := fun t _ => t) (regs := fun _ => .none) (decPick_bounded _ _) fun _ => rfl
  | xformEnc final =>
    exact State.xform_next_iff (put := fun t _ => t) (regs := fun _ => .none) (encPick_bounded _ _ _) fun _ => rfl
  | xformPack final => exact State.xform_next_iff (put := .setPackCur) (packPick_bounded _) fun _ => rfl
  | xformUnpack final => exact State.xform_next_iff (put := .putUnpk) unpackPick_bounded fun _ => rfl
  | resetDec => exact State.control_next_iff (f := id) (w := .none) rfl
  | resetEnc => exact State.control_next_iff (f := id) (w := .none) rfl
  | resetPack => exact State.control_next_iff (f := (State.setPackCur · 1#3)) (w := .packCur 1#3) rfl
  | resetUnpack =>
    exact State.control_next_iff (f := (State.setUnpk · 1#3 0#7 false)) (w := .unpk ⟨1#3, 0#7, false⟩) rfl
  | setRepl imm8 =>
    exact State.control_next_iff (f := (State.setEncRepl · (replacementOf imm8)))
      (w := .encRepl (replacementOf imm8)) rfl

/-- An effect is a command's without regions, or comes from a run within the operands (R122). -/
theorem effectOf_shape (i : Instr) (s : State) :
    (∃ w, effectOf i s = .control w) ∨
    ∃ (σ : Type) (regs : σ → RegWrite) (q : Run σ), effectOf i s = .ofRun s regs q ∧
      q.used ≤ s.port.slen ∧ q.out.length ≤ s.port.dcap := by
  have run : ∀ {σ : Type} {pick : σ → Nat → List Byte → Pick σ} (r : σ) (regs : σ → RegWrite), PickBounded pick →
      ∃ (σ' : Type) (regs' : σ' → RegWrite) (q : Run σ'),
        Effect.ofRun s regs (runUnit pick r s.port.dcap s.srcBytes) = .ofRun s regs' q ∧
          q.used ≤ s.port.slen ∧ q.out.length ≤ s.port.dcap := by
    intro σ pick r regs hp
    obtain ⟨hused, hout, -⟩ := runUnit_bounds hp r s.port.dcap s.srcBytes
    exact ⟨σ, regs, _, rfl, by simpa using hused, hout⟩
  cases i with
  | xformDec final => exact .inr (run _ (fun _ => .none) (decPick_bounded _ _))
  | xformEnc final => exact .inr (run _ (fun _ => .none) (encPick_bounded _ _ _))
  | xformPack final => exact .inr (run _ _ (packPick_bounded _))
  | xformUnpack final => exact .inr (run _ _ unpackPick_bounded)
  | resetDec => exact .inl ⟨_, rfl⟩
  | resetEnc => exact .inl ⟨_, rfl⟩
  | resetPack => exact .inl ⟨_, rfl⟩
  | resetUnpack => exact .inl ⟨_, rfl⟩
  | setRepl imm8 => exact .inl ⟨_, rfl⟩

/-- A command writes no registers but its own unit's (R39). -/
theorem effectOf_regs_unit (i : Instr) (s : State) : ∀ u ∈ (effectOf i s).regs.unit, u = i.unit := by
  cases i <;> simp [effectOf, Effect.ofRun, Effect.control, RegWrite.unit, Instr.unit]

/-- Only SETREPL writes ENC.REPL (R25). -/
theorem effectOf_regs_enc {i : Instr} {s : State} (h : (effectOf i s).regs.unit = some .enc) : ∃ b, i = .setRepl b := by
  cases i <;> simp_all [effectOf, Effect.ofRun, Effect.control, RegWrite.unit]

/-- A command's effect depends on its own unit, its operands and the bytes of SRC only (R39). -/
theorem effectOf_congr {i : Instr} {s s' : State} (hu : sameUnit i.unit s s') (hp : s.port = s'.port)
    (hs : s.srcBytes = s'.srcBytes) : effectOf i s = effectOf i s' := by
  cases i <;> simp_all [effectOf, Effect.ofRun, sameUnit, Instr.unit]

section afterEffect
variable (s : State) (u : UnitId) (e : Effect)

@[simp] theorem State.afterEffect_rom : (s.afterEffect u e).rom = s.rom := by simp [State.afterEffect]
@[simp] theorem State.afterEffect_port : (s.afterEffect u e).port = s.port := by simp [State.afterEffect]
@[simp] theorem State.afterEffect_mem : (s.afterEffect u e).mem = s.mem := by simp [State.afterEffect]
@[simp] theorem State.afterEffect_host : (s.afterEffect u e).host = s.host := by simp [State.afterEffect]
@[simp] theorem State.afterEffect_returns : (s.afterEffect u e).returns = s.returns := by simp [State.afterEffect]
@[simp] theorem State.afterEffect_choices : (s.afterEffect u e).choices = s.choices := by simp [State.afterEffect]
@[simp] theorem State.afterEffect_link_same : (s.afterEffect u e).link u = .outstanding e.args e.steps e.reply := by
  simp [State.afterEffect]

theorem State.afterEffect_link_other {u v : UnitId} (h : v ≠ u) : (s.afterEffect u e).link v = s.link v := by
  simp [State.afterEffect, State.endCommand_link_other _ _ _ _ h]

theorem State.afterEffect_setPort (o : Operands) : (s.setPort o).afterEffect u e = (s.afterEffect u e).setPort o := by
  simp only [State.afterEffect, State.putRegs_setPort]; rfl

theorem State.afterEffect_setHost (es : List HostEvent) :
    (s.setHost es).afterEffect u e = (s.afterEffect u e).setHost es := by
  simp only [State.afterEffect, State.putRegs_setHost]; rfl
end afterEffect

/-- A command leaves the registers it does not write. -/
theorem State.afterEffect_sameRegs (s : State) (u : UnitId) {e : Effect} {v : UnitId} (h : e.regs.unit ≠ some v) :
    sameRegs v (s.afterEffect u e) s := by
  have hkeep := s.putRegs_sameRegs h
  cases v <;> exact hkeep

/-! ### The frame of a command -/

/-- Settles O44: the effect of a command names the registers of one unit at most. -/
theorem commandsKeepOtherState : Obligations.CommandsKeepOtherState := by
  intro i s t h
  obtain ⟨-, rfl⟩ := exec_next_iff.mp h
  have other : ∀ v, i.unit ≠ v → sameRegs v (s.afterEffect i.unit (effectOf i s)) s := fun v hv =>
    s.afterEffect_sameRegs i.unit fun hw => hv (effectOf_regs_unit i s v hw).symm
  have repl : (∀ b, i ≠ .setRepl b) → sameRegs .enc (s.afterEffect i.unit (effectOf i s)) s := fun hi =>
    s.afterEffect_sameRegs i.unit fun hw => by
      obtain ⟨b, hb⟩ := effectOf_regs_enc hw
      exact hi b hb
  refine ⟨other .pack, fun hu => ?_, repl, by simp, by simp, by simp, by simp, by simp,
    fun v hv => s.afterEffect_link_other _ hv⟩
  simpa [sameRegs, State.unpk] using other .unpack hu

end Sys2Proof.Machine
end

section
/-!
The invariant of the machine: it holds after reset, the effect of every command keeps it, and so does every other event of the
host.
-/

namespace Sys2Proof.Machine

/-! ### Legal registers -/

/-- The unpacker's part of the legal register values (R35). -/
def UnpkRegs.Legal (r : UnpkRegs) : Prop :=
  1 ≤ r.cur.toNat ∧ (r.pend = false → r.carry.toNat < 2 ^ (r.cur.toNat - 1)) ∧ (r.pend = true → r.cur = 7#3)

/-- The values written are legal (R35, R25). -/
def RegWrite.Legal : RegWrite → Prop
  | .none => True
  | .packCur c => 1 ≤ c.toNat
  | .unpk r => r.Legal
  | .encRepl b => b ≠ 0#8

theorem State.regsLegal_iff {s : State} : s.regsLegal ↔ 1 ≤ s.packCur.toNat ∧ s.unpk.Legal ∧ s.encRepl ≠ 0#8 := by
  simp only [State.regsLegal, State.unpk, UnpkRegs.Legal, and_assoc]

theorem State.putRegs_regsLegal {s : State} {w : RegWrite} (h : s.regsLegal) (hw : w.Legal) :
    (s.putRegs w).regsLegal := by
  obtain ⟨hpack, hunpk, hrepl⟩ := State.regsLegal_iff.mp h
  refine State.regsLegal_iff.mpr ?_
  cases w with
  | none => exact ⟨hpack, hunpk, hrepl⟩
  | packCur c => exact ⟨hw, hunpk, hrepl⟩
  | unpk r => exact ⟨hpack, hw, hrepl⟩
  | encRepl b => exact ⟨hpack, hunpk, hw⟩

/-- The start-of-stream values of the unpacker's registers (R20). -/
theorem UnpkRegs.legal_start : UnpkRegs.Legal ⟨1#3, 0#7, false⟩ := ⟨by decide, by decide, nofun⟩

/-- The reset values are legal (R20, R35). -/
theorem State.reset_regsLegal : State.reset.regsLegal :=
  State.regsLegal_iff.mpr ⟨by decide, UnpkRegs.legal_start, by decide⟩

/-- What every committed step keeps of the registers, a whole run keeps. -/
theorem runSteps_reg_of_commit {σ : Type} {pick : σ → Nat → List Byte → Pick σ} {P : σ → Prop}
    (hstep : ∀ r room src used out r', P r → pick r room src = .commit used out r' → P r')
    (n : Nat) (r : σ) (room : Nat) (src : List Byte) (h : P r) : P (runSteps pick n r room src).reg := by
  induction n generalizing r room src with
  | zero => exact h
  | succ n ih =>
    cases hpick : pick r room src with
    | idle => rwa [runSteps_idle hpick]
    | full => rwa [runSteps_full hpick]
    | refuse => rwa [runSteps_refuse hpick]
    | commit used out r' =>
      rw [runSteps_commit hpick]
      exact ih r' _ _ (hstep r room src used out r' h hpick)

theorem nextCursor_pos {c : BitVec 3} (h : 1 ≤ c.toNat) : 1 ≤ (nextCursor c).toNat := by
  decide +revert

/-- A packer step moves the cursor to the next one or does not commit (R202, R203, R209). -/
theorem packPick_commit_reg {final : Bool} {c c' : BitVec 3} {room used : Nat} {src out : List Byte}
    (h : packPick final c room src = .commit used out c') : c' = nextCursor c := by
  unfold packPick at h
  split at h
  · cases h
  · split at h
    · split at h
      · cases h
      · cases h; rfl
    · cases h
  · split at h
    · cases h
    · cases h; rfl

/-- The carry of a byte step at cursor `c` holds `c` bits (R221). -/
theorem byteCarry_lt {c : Nat} (hc : c ≤ 8) (b : Byte) : (byteCarry c b).toNat < 2 ^ c := by
  have hshift : b.toNat / 2 ^ (8 - c) < 2 ^ c := by
    refine Nat.div_lt_of_lt_mul ?_
    rw [← Nat.pow_add, show 8 - c + c = 8 by omega]
    exact b.isLt
  unfold byteCarry
  rw [BitVec.toNat_setWidth, BitVec.toNat_ushiftRight, Nat.shiftRight_eq_div_pow]
  exact lt_of_le_of_lt (Nat.mod_le _ _) hshift

/-- An unpacker step leaves the start-of-stream values after a flush; after a byte it owes a septet at cursor 7 and goes to the
next cursor elsewhere (R221, R222). -/
theorem unpackPick_commit_reg {r r' : UnpkRegs} {room used : Nat} {src out : List Byte}
    (h : unpackPick r room src = .commit used out r') :
    r' = ⟨1#3, 0#7, false⟩ ∨ (r.cur = 7#3 ∧ ∃ k, r' = ⟨7#3, k, true⟩) ∨
      (r.cur ≠ 7#3 ∧ ∃ b, r' = ⟨r.cur + 1#3, byteCarry r.cur.toNat b, false⟩) := by
  unfold unpackPick at h
  split at h
  · split at h
    · cases h
    · cases h; exact .inl rfl
  · split at h
    · cases h
    · split at h
      · cases h
      · cases h
        split
        · rename_i hc
          exact .inr (.inl ⟨hc, _, by rw [hc]⟩)
        · rename_i hc
          exact .inr (.inr ⟨hc, _, rfl⟩)

theorem unpackPick_commit_legal {r r' : UnpkRegs} {room used : Nat} {src out : List Byte}
    (h : unpackPick r room src = .commit used out r') : r'.Legal := by
  rcases unpackPick_commit_reg h with rfl | ⟨-, k, rfl⟩ | ⟨hc, b, rfl⟩
  · exact UnpkRegs.legal_start
  · exact ⟨(by decide : 1 ≤ (7#3).toNat), nofun, fun _ => rfl⟩
  · have hlt : r.cur.toNat < 7 := by
      have := r.cur.isLt
      have : r.cur.toNat ≠ 7 := fun he => hc (BitVec.eq_of_toNat_eq he)
      omega
    have hnext : (r.cur + 1#3).toNat = r.cur.toNat + 1 := by
      rw [BitVec.toNat_add]
      exact Nat.mod_eq_of_lt (by simp; omega)
    refine ⟨by simp [hnext], fun _ => ?_, nofun⟩
    simpa only [hnext, Nat.add_sub_cancel] using byteCarry_lt (by omega) b

theorem replacementOf_ne_zero (imm8 : Byte) : replacementOf imm8 ≠ 0#8 := by
  unfold replacementOf
  split
  · decide
  · assumption

/-- From legal registers every command writes legal values (R25, R35). -/
theorem effectOf_regs_legal (i : Instr) {s : State} (h : s.regsLegal) : (effectOf i s).regs.Legal := by
  obtain ⟨hpack, hunpk, -⟩ := State.regsLegal_iff.mp h
  cases i with
  | xformDec _ => trivial
  | xformEnc _ => trivial
  | xformPack final =>
    refine runSteps_reg_of_commit (P := fun c : BitVec 3 => 1 ≤ c.toNat) (fun r room src used out r' hr hc => ?_) _ _ _ _ hpack
    rw [packPick_commit_reg hc]
    exact nextCursor_pos hr
  | xformUnpack _ =>
    exact runSteps_reg_of_commit (fun _ _ _ _ _ _ _ hc => unpackPick_commit_legal hc) _ _ _ _ hunpk
  | resetDec => trivial
  | resetEnc => trivial
  | resetPack => exact le_refl 1
  | resetUnpack => exact UnpkRegs.legal_start
  | setRepl imm8 => exact replacementOf_ne_zero imm8

/-! ### Bounded counts -/

/-- A command outstanding is within its operands, and its writes lie in dst[0..NDST) (R56, R122). -/
theorem Link.bounded_outstanding {args : Operands} {steps : List (List Host.Cell)} {reply : Option Reply} :
    (Link.outstanding args steps reply).bounded = true ↔ replyBounded args reply = true ∧
      ∀ x ∈ steps.flatten, args.dstAt ≤ x.1 ∧ x.1 < args.dstAt + writtenCount reply := by
  simp only [Link.bounded, Bool.and_eq_true, List.all_eq_true, decide_eq_true_eq]

theorem writtenCount_le {args : Operands} {reply : Option Reply} (h : replyBounded args reply = true) :
    writtenCount reply ≤ args.dcap := by
  cases reply with
  | none => exact Nat.zero_le _
  | some r =>
    simp only [replyBounded, Bool.and_eq_true, decide_eq_true_eq] at h
    exact h.1

/-- The writes of a command outstanding lie in its DST region. -/
theorem Link.bounded_writes {l : Link} (h : l.bounded = true) {x : Host.Cell} (hx : x ∈ l.writes) :
    l.args.dstAt ≤ x.1 ∧ x.1 < l.args.dstAt + l.args.dcap := by
  cases l with
  | idle => cases hx
  | outstanding args steps reply =>
    obtain ⟨hreply, hcells⟩ := Link.bounded_outstanding.mp h
    obtain ⟨hlo, hhi⟩ := hcells x hx
    exact ⟨hlo, lt_of_lt_of_le hhi (Nat.add_le_add_left (writtenCount_le hreply) _)⟩

/-- What a command leaves in its unit's interface is bounded. -/
theorem effectOf_bounded (i : Instr) (s : State) :
    (Link.outstanding (effectOf i s).args (effectOf i s).steps (effectOf i s).reply).bounded = true := by
  rcases effectOf_shape i s with ⟨w, he⟩ | ⟨σ, regs, q, he, hused, hout⟩
  · rw [he]; rfl
  · rw [he]
    refine Link.bounded_outstanding.mpr ⟨by simp [Effect.ofRun, replyBounded, replyOf, hused, hout], fun x hx => ?_⟩
    exact cellsFrom_range (stepCells_flatten _ _ ▸ hx)

/-- Writes that are done leave the others within the bounds of the command. -/
theorem State.Progress.bounded {done : List (UnitId × List Host.Cell)} {s t : State} (h : State.Progress done s t)
    {u : UnitId} (hs : (s.link u).bounded = true) : (t.link u).bounded = true := by
  cases hu : s.link u with
  | idle => rw [h.idle hu]; rfl
  | outstanding args steps reply =>
    have hleft : ∀ x ∈ (t.link u).writes, x ∈ steps.flatten := fun x hx => by
      simpa [hu] using h.left_mem hx
    rw [hu] at hs
    obtain ⟨hreply, hcells⟩ := Link.bounded_outstanding.mp hs
    rw [h.outstanding hu]
    exact Link.bounded_outstanding.mpr ⟨hreply, fun x hx => hcells x (hleft x hx)⟩

/-! ### Every event keeps the invariant -/

theorem State.Inv.setHost {s : State} (h : s.Inv) (es : List HostEvent) : (s.setHost es).Inv :=
  ⟨h.regs, h.mem, h.outstanding, h.returned⟩

theorem State.Inv.setPort {s : State} (h : s.Inv) (o : Operands) : (s.setPort o).Inv :=
  ⟨h.regs, h.mem, h.outstanding, h.returned⟩

theorem State.Inv.setMem {s : State} (h : s.Inv) {m : Memory} (hm : Memory.wf m) : (s.setMem m).Inv :=
  ⟨h.regs, hm, h.outstanding, h.returned⟩

theorem State.Inv.setLink {s : State} (h : s.Inv) (u : UnitId) {k : Link} (hk : k.bounded = true) : (s.setLink u k).Inv where
  regs := h.regs
  mem := h.mem
  outstanding v := by
    by_cases hv : v = u
    · subst hv
      rwa [State.setLink_link_same]
    · rw [State.setLink_link_other _ _ hv]
      exact h.outstanding v
  returned := h.returned

theorem State.Inv.progress {done : List (UnitId × List Host.Cell)} {s t : State} (h : s.Inv)
    (hp : State.Progress done s t) : t.Inv where
  regs := by
    rw [State.regsLegal_iff, hp.packCur, hp.unpk, hp.encRepl]
    exact State.regsLegal_iff.mp h.regs
  mem := by
    rw [hp.mem]
    exact Memory.wf_writeCells _ h.mem
  outstanding u := hp.bounded (h.outstanding u)
  returned := by
    rw [hp.returns]
    exact h.returned

/-- A command keeps the invariant (R25, R35, R122). -/
theorem State.Inv.exec {i : Instr} {s t : State} (h : s.Inv) (he : exec i s = .next t) : t.Inv := by
  obtain ⟨-, rfl⟩ := exec_next_iff.mp he
  have hregs : (s.putRegs (effectOf i s).regs).Inv :=
    ⟨State.putRegs_regsLegal h.regs (effectOf_regs_legal i h.regs), by simpa using h.mem, by simpa using h.outstanding,
      by simpa using h.returned⟩
  exact hregs.setLink i.unit (effectOf_bounded i s)

/-- A return keeps the invariant: the results that go to the host were bounded while they waited. -/
theorem State.Inv.takeReturn {s : State} (h : s.Inv) (u : UnitId) : (s.takeReturn u).Inv := by
  cases hu : s.link u with
  | idle => rwa [State.takeReturn_idle hu]
  | outstanding args steps reply =>
    obtain ⟨done, t, hp, he⟩ := State.takeReturn_spec hu
    have ht := h.progress hp
    have hland : ((t.setLink u .idle).setMem (Memory.writeCells t.mem (t.link u).writes)).Inv :=
      (ht.setLink u rfl).setMem (Memory.wf_writeCells _ ht.mem)
    have hb := h.outstanding u
    rw [hu] at hb
    rw [he]
    refine ⟨hland.regs, hland.mem, hland.outstanding, fun r hr => ?_⟩
    rcases List.mem_append.mp hr with hr | hr
    · exact h.returned r hr
    · rw [List.mem_singleton.mp hr]
      exact (Link.bounded_outstanding.mp hb).1

/-- Power-on leaves the reset values and no command outstanding (R291). -/
theorem State.Inv.powerOn {s : State} (h : s.Inv) : s.powerOn.Inv := by
  obtain ⟨done, t, hp, he⟩ := s.powerOn_spec
  have ht := h.progress hp
  rw [he]
  exact ⟨State.reset_regsLegal, ht.mem, fun u => by simp [Link.bounded], ht.returned⟩

/-- Settles O49: each of the host's events keeps the invariant. -/
theorem stepKeepsTheInvariant : Obligations.StepKeepsTheInvariant := by
  intro s t h hstep
  rcases step_next hstep with ⟨-, rfl⟩ | ⟨c, es, i, rest, -, -, he⟩ | ⟨u, es, -, rfl⟩ | ⟨a, b, es, -, hw⟩ | ⟨es, -, rfl⟩
  · exact h
  · exact ((h.setHost es).setPort c.args).exec he
  · exact (h.setHost es).takeReturn u
  · obtain ⟨-, done, p, hp, rfl⟩ := State.hostWrite_next hw
    have hpi := (h.setHost es).progress hp
    exact hpi.setMem (Memory.wf_write a b hpi.mem)
  · exact (h.setHost es).powerOn

/-! ### Reset -/

/-- Settles O7: reset by its definition. -/
theorem resetStateHoldsTheResetValues : Obligations.ResetStateHoldsTheResetValues :=
  ⟨rfl, rfl, rfl, rfl, rfl, rfl, State.reset_link⟩

/-- Settles O48: the reset values are legal, memory is empty and no command is outstanding or has returned. -/
theorem resetMeetsTheInvariant : Obligations.ResetMeetsTheInvariant where
  regs := State.reset_regsLegal
  mem := Memory.wf_nil
  outstanding u := by rw [State.reset_link]; rfl
  returned := nofun

end Sys2Proof.Machine
end

section
/-!
Commands to different units commute: each admits the other's effect, the effects write different parts of the state, and the
returns write different bytes of the host's memory.
-/

namespace Sys2Proof.Machine

/-! ### Two effects in either order -/

/-- Whether an effect is admitted depends on the command interfaces and the host's memory only. -/
theorem State.Admits.congr {s s' : State} {u : UnitId} {e : Effect} (hlinks : s'.links = s.links) (hmem : s'.mem = s.mem)
    (h : s.Admits u e) : s'.Admits u e := by
  have hlink : s'.link = s.link := by
    unfold State.link
    rw [hlinks]
  refine ⟨hlink ▸ h.idle, h.own, ?_, ?_, h.meant⟩
  · rw [hlink, hmem]
    exact h.src
  · unfold State.KeepsSrc
    rw [hlink, hmem]
    exact h.keeps

theorem State.admits_setPort {s : State} {o : Operands} {u : UnitId} {e : Effect} :
    (s.setPort o).Admits u e ↔ s.Admits u e := ⟨.congr rfl rfl, .congr rfl rfl⟩

theorem State.admits_setHost {s : State} {es : List HostEvent} {u : UnitId} {e : Effect} :
    (s.setHost es).Admits u e ↔ s.Admits u e := ⟨.congr rfl rfl, .congr rfl rfl⟩

/-- Effects on different units commute. -/
theorem State.afterEffect_comm (s : State) {u v : UnitId} {e f : Effect} (huv : u ≠ v) (he : ∀ x ∈ e.regs.unit, x = u)
    (hf : ∀ x ∈ f.regs.unit, x = v) : (s.afterEffect u e).afterEffect v f = (s.afterEffect v f).afterEffect u e := by
  simp only [State.afterEffect, State.endCommand, State.putRegs_setLink]
  rw [State.putRegs_comm s he hf huv]
  simp only [State.setLink, Links.set_comm _ _ _ huv]

/-- What holds of an idle interface holds of all interfaces after a command exactly if it held of all before and holds of the
one the command waits in. -/
theorem State.forall_link_afterEffect {s : State} {u : UnitId} {e : Effect} {P : Link → Prop} (hu : s.link u = .idle)
    (hidle : P .idle) :
    (∀ k, P ((s.afterEffect u e).link k)) ↔ (∀ k, P (s.link k)) ∧ P (.outstanding e.args e.steps e.reply) := by
  constructor
  · intro h
    refine ⟨fun k => ?_, s.afterEffect_link_same u e ▸ h u⟩
    by_cases hk : k = u
    · rwa [hk, hu]
    · exact s.afterEffect_link_other e hk ▸ h k
  · rintro ⟨hbefore, hnew⟩ k
    by_cases hk : k = u
    · rwa [hk, s.afterEffect_link_same]
    · rw [s.afterEffect_link_other e hk]
      exact hbefore k

/-- A command is admitted after another on a different unit exactly if it is before, and neither one's writes change SRC of the
other (R58, log 8): a condition that is the same in either order. -/
theorem State.admits_afterEffect_iff {s : State} {u v : UnitId} {e f : Effect} (huv : u ≠ v) (hu : s.link u = .idle) :
    (s.afterEffect u e).Admits v f ↔
      s.Admits v f ∧ changesSrc s.mem f.args e.steps.flatten = false ∧ changesSrc s.mem e.args f.steps.flatten = false := by
  have hidle := s.afterEffect_link_other e huv.symm
  have hsrc := State.forall_link_afterEffect (e := e) (P := fun l => changesSrc s.mem f.args l.writes = false) hu rfl
  have hkeeps := State.forall_link_afterEffect (e := e) (P := fun l => changesSrc s.mem l.args f.steps.flatten = false) hu
    (changesSrc_none _ _)
  have hmem := s.afterEffect_mem u e
  constructor
  · intro h
    obtain ⟨hsrc', he⟩ := hsrc.mp (hmem ▸ h.src)
    obtain ⟨hkeeps', hf⟩ := hkeeps.mp (hmem ▸ h.keeps)
    exact ⟨⟨hidle ▸ h.idle, h.own, hsrc', hkeeps', h.meant⟩, he, hf⟩
  · rintro ⟨h, he, hf⟩
    refine ⟨hidle.trans h.idle, h.own, ?_, ?_, h.meant⟩
    · rw [hmem]
      exact hsrc.mpr ⟨h.src, he⟩
    · unfold State.KeepsSrc
      rw [hmem]
      exact hkeeps.mpr ⟨h.keeps, hf⟩

/-- Commands of different units that are admitted one after the other are admitted in the other order (R60). -/
theorem State.Admits.swap {s : State} {u v : UnitId} {e f : Effect} (huv : u ≠ v) (he : s.Admits u e)
    (hf : (s.afterEffect u e).Admits v f) : s.Admits v f ∧ (s.afterEffect v f).Admits u e := by
  obtain ⟨hf', hfe, hef⟩ := (State.admits_afterEffect_iff huv he.idle).mp hf
  exact ⟨hf', (State.admits_afterEffect_iff huv.symm hf'.idle).mpr ⟨he, hef, hfe⟩⟩

/-- The tables and the unit's registers are all that its commands depend on besides their operands (R39). -/
theorem sameUnit_of_sameRegs {u : UnitId} {s s' : State} (hrom : s.rom = s'.rom) (h : sameRegs u s s') :
    sameUnit u s s' := by
  cases u with
  | dec => exact hrom
  | enc => exact ⟨hrom, h⟩
  | pack => exact h
  | unpack => exact h

/-- The effect of a command is the same after a command of another unit (R39). -/
theorem effectOf_afterEffect (s : State) {u : UnitId} {e : Effect} {j : Instr} (he : ∀ x ∈ e.regs.unit, x = u)
    (huj : u ≠ j.unit) : effectOf j (s.afterEffect u e) = effectOf j s := by
  have hregs : sameRegs j.unit (s.afterEffect u e) s := s.afterEffect_sameRegs u fun h => huj (he _ h).symm
  exact effectOf_congr (sameUnit_of_sameRegs (by simp) hregs) (by simp) (by simp [State.srcBytes])

/-! ### Issuing two commands -/

/-- A step whose event issues a command: its effect, if that is admitted, with the operands at the port. -/
theorem step_issue_iff {s t : State} {c : Command} {es : List HostEvent} {i : Instr} {rest : List Byte}
    (hd : decode c.bytes = .ok (i, rest)) :
    step (s.setHost (.issue c :: es)) = .next t ↔
      s.Admits i.unit (effectOf i (s.setPort c.args)) ∧
        t = ((s.afterEffect i.unit (effectOf i (s.setPort c.args))).setPort c.args).setHost es := by
  have hstep : step (s.setHost (.issue c :: es)) = exec i ((s.setHost es).setPort c.args) := by
    simp only [step, State.setHost_host, State.handle, State.issue, hd]
    rfl
  have heff : effectOf i ((s.setHost es).setPort c.args) = effectOf i (s.setPort c.args) :=
    effectOf_congr (sameUnit_of_sameRegs rfl (by cases i.unit <;> trivial)) rfl rfl
  rw [hstep, exec_next_iff, heff, State.admits_setPort, State.admits_setHost, State.afterEffect_setPort,
    State.afterEffect_setHost]
  rfl

/-- Two commands of different units issued one after the other: both effects, each as at the first state. -/
theorem steps_issue_iff {s t : State} {c d : Command} {es : List HostEvent} {i j : Instr} {ri rj : List Byte}
    (hc : decode c.bytes = .ok (i, ri)) (hd : decode d.bytes = .ok (j, rj)) (hij : i.unit ≠ j.unit) :
    (∃ v, step (s.setHost (.issue c :: .issue d :: es)) = .next v ∧ step v = .next t) ↔
      s.Admits i.unit (effectOf i (s.setPort c.args)) ∧
      (s.afterEffect i.unit (effectOf i (s.setPort c.args))).Admits j.unit (effectOf j (s.setPort d.args)) ∧
      t = (((s.afterEffect i.unit (effectOf i (s.setPort c.args))).afterEffect j.unit
        (effectOf j (s.setPort d.args))).setPort d.args).setHost es := by
  have heff : effectOf j (((s.afterEffect i.unit (effectOf i (s.setPort c.args))).setPort c.args).setPort d.args) =
      effectOf j (s.setPort d.args) := by
    refine .trans ?_ (effectOf_afterEffect (s.setPort d.args) (effectOf_regs_unit i (s.setPort c.args)) hij)
    rw [State.afterEffect_setPort]
    rfl
  simp only [step_issue_iff hc, and_assoc, exists_and_left, exists_eq_left, step_issue_iff hd, heff,
    State.admits_setPort, State.afterEffect_setPort]
  rfl

/-! ### The two returns -/

theorem Memory.read_writeCells_congr {m m' : Memory} (cells : List Host.Cell) {a : Nat}
    (h : Memory.read m a = Memory.read m' a) :
    Memory.read (Memory.writeCells m cells) a = Memory.read (Memory.writeCells m' cells) a := by
  induction cells generalizing m m' with
  | nil => exact h
  | cons x xs ih =>
    refine ih ?_
    rw [Memory.read_write, Memory.read_write, h]

/-- Writes at different addresses commute. -/
theorem Memory.writeCells_comm {m : Memory} (hm : Memory.wf m) {xs ys : List Host.Cell}
    (h : ∀ x ∈ xs, ∀ y ∈ ys, x.1 ≠ y.1) :
    Memory.writeCells (Memory.writeCells m xs) ys = Memory.writeCells (Memory.writeCells m ys) xs := by
  refine Memory.ext_read (Memory.wf_writeCells _ (Memory.wf_writeCells _ hm))
    (Memory.wf_writeCells _ (Memory.wf_writeCells _ hm)) fun a => ?_
  by_cases ha : ∃ x ∈ xs, x.1 = a
  · obtain ⟨x, hx, rfl⟩ := ha
    have hys : ∀ y ∈ ys, y.1 ≠ x.1 := fun y hy => (h x hx y hy).symm
    rw [Memory.read_writeCells_outside _ ys hys]
    exact Memory.read_writeCells_congr xs (Memory.read_writeCells_outside m ys hys).symm
  · have hxs : ∀ x ∈ xs, x.1 ≠ a := fun x hx he => ha ⟨x, hx, he⟩
    rw [Memory.read_writeCells_outside _ xs hxs]
    exact Memory.read_writeCells_congr ys (Memory.read_writeCells_outside m xs hxs)

theorem core_run_succ_iff {k : Nat} {s t : State} :
    core.run (k + 1) s = .next t ↔ ∃ v, step s = .next v ∧ core.run k v = .next t := by
  cases h : step s <;> simp [Host.Core.run, show core.step s = _ from h]

/-- The state after commands of `u` and `v` with these effects have returned, one after the other. -/
def State.afterReturns (s : State) (u v : UnitId) (e f : Effect) : State :=
  (((s.setLink u .idle).setLink v .idle).setMem
    (Memory.writeCells (Memory.writeCells s.mem e.steps.flatten) f.steps.flatten)).setReturns
      (s.returns ++ [⟨u, e.args, e.reply⟩, ⟨v, f.args, f.reply⟩])

/-- Two returns, of commands whose writes meet no others outstanding: no free value is used (R61). -/
theorem run_two_returns {s : State} {u v : UnitId} {e f : Effect} {es : List HostEvent} (huv : u ≠ v)
    (hu : s.link u = .outstanding e.args e.steps e.reply) (hv : s.link v = .outstanding f.args f.steps f.reply)
    (hue : ∀ k, k ≠ u → ∀ x ∈ (s.link k).writes, ∀ y ∈ e.steps.flatten, x.1 ≠ y.1)
    (hvf : ∀ k, k ≠ v → ∀ x ∈ (s.link k).writes, ∀ y ∈ f.steps.flatten, x.1 ≠ y.1) :
    core.run 2 (s.setHost (.ret u :: .ret v :: es)) = .next ((s.afterReturns u v e f).setHost es) := by
  have hfirst : step (s.setHost (.ret u :: .ret v :: es)) = .next ((s.setHost (.ret v :: es)).takeReturn u) := rfl
  rw [State.takeReturn_apart (s := s.setHost (.ret v :: es)) hu hue] at hfirst
  refine core_run_succ_iff.mpr ⟨_, hfirst, core_run_succ_iff.mpr ⟨_, rfl, ?_⟩⟩
  refine congrArg Host.Outcome.next ((State.takeReturn_apart (args := f.args) (steps := f.steps) (reply := f.reply)
    ?_ fun k hk x hx y hy => ?_).trans ?_)
  · exact (State.setLink_link_other _ _ huv.symm).trans hv
  · by_cases hku : k = u
    · subst hku
      simp [State.link] at hx
    · refine hvf k hk x ?_ y hy
      simpa [State.link, Links.get_set_other _ _ hku] using hx
  · simp [State.afterReturns, State.setReturns, State.setMem, State.setLink, State.setHost]

/-- Returns of different units whose writes are apart may be swapped, but for the order the host receives them in. -/
theorem State.afterReturns_comm {s : State} {u v : UnitId} {e f : Effect} (huv : u ≠ v) (hm : Memory.wf s.mem)
    (h : ∀ x ∈ e.steps.flatten, ∀ y ∈ f.steps.flatten, x.1 ≠ y.1) :
    s.afterReturns v u f e =
      (s.afterReturns u v e f).setReturns (s.returns ++ [⟨v, f.args, f.reply⟩, ⟨u, e.args, e.reply⟩]) := by
  unfold State.afterReturns
  rw [Memory.writeCells_comm hm h]
  simp only [State.setLink, Links.set_comm _ _ _ huv]
  rfl

/-- Two returns in the other order: the same state but for the order the host receives them in, whatever stands at the port. -/
theorem returns_commute {s t : State} {u v : UnitId} {e f : Effect} {es : List HostEvent} (o : Operands)
    (hrun : core.run 2 (s.setHost (.ret u :: .ret v :: es)) = .next t) (huv : u ≠ v)
    (hm : Memory.wf s.mem) (hu : s.link u = .outstanding e.args e.steps e.reply)
    (hv : s.link v = .outstanding f.args f.steps f.reply)
    (hue : ∀ k, k ≠ u → ∀ x ∈ (s.link k).writes, ∀ y ∈ e.steps.flatten, x.1 ≠ y.1)
    (hvf : ∀ k, k ≠ v → ∀ x ∈ (s.link k).writes, ∀ y ∈ f.steps.flatten, x.1 ≠ y.1) :
    ∃ r r', t.returns = s.returns ++ [r, r'] ∧ core.run 2 ((s.setPort o).setHost (.ret v :: .ret u :: es)) =
      .next ((t.setPort o).setReturns (s.returns ++ [r', r])) := by
  rw [run_two_returns huv hu hv hue hvf] at hrun
  cases hrun
  refine ⟨⟨u, e.args, e.reply⟩, ⟨v, f.args, f.reply⟩, rfl, ?_⟩
  have hswapped := run_two_returns (s := s.setPort o) (es := es) huv.symm hv hu hvf hue
  have happart : ∀ x ∈ e.steps.flatten, ∀ y ∈ f.steps.flatten, x.1 ≠ y.1 := fun x hx y hy =>
    hvf u huv x (by rwa [hu]) y hy
  rw [State.afterReturns_comm (s := s.setPort o) huv hm happart] at hswapped
  exact hswapped

/-! ### The writes of commands on regions apart -/

/-- All writes of the effect lie in the DST region of the operands. -/
def Effect.WritesIn (e : Effect) (o : Operands) : Prop :=
  ∀ x ∈ e.steps.flatten, o.dstAt ≤ x.1 ∧ x.1 < o.dstAt + o.dcap

/-- A command writes in DST at the port only (R56, R122). -/
theorem effectOf_writesIn (i : Instr) (s : State) : (effectOf i s).WritesIn s.port := by
  have hb := effectOf_bounded i s
  rcases effectOf_shape i s with ⟨w, he⟩ | ⟨σ, regs, q, he, -, -⟩
  · rw [he]
    nofun
  · rw [he] at hb ⊢
    exact fun x hx => Link.bounded_writes hb hx

/-- Cells of two DST regions that share no byte have different addresses. -/
theorem dstClash_false {o p : Operands} (h : dstClash o p = false) {x y : Host.Cell}
    (hx : o.dstAt ≤ x.1 ∧ x.1 < o.dstAt + o.dcap) (hy : p.dstAt ≤ y.1 ∧ y.1 < p.dstAt + p.dcap) : x.1 ≠ y.1 := fun he =>
  rangesOverlap_false h x.1 ⟨hx.1, hx.2, he ▸ hy.1, he ▸ hy.2⟩

theorem dstClash_comm (o p : Operands) : dstClash o p = dstClash p o := by
  simp only [dstClash, rangesOverlap, Bool.and_comm, Bool.and_left_comm]

/-- After two commands with DST regions apart from each other and from what was outstanding, the writes of the first meet no
others outstanding. -/
theorem State.Inv.writes_apart {s : State} {c d : Operands} {u v : UnitId} {e f : Effect} (hinv : s.Inv)
    (he : e.WritesIn c) (hf : f.WritesIn d) (hcd : dstClash c d = false)
    (hc : ∀ k, dstClash c (s.link k).args = false) (k : UnitId) (hk : k ≠ u) :
    ∀ x ∈ (((s.afterEffect u e).afterEffect v f).link k).writes, ∀ y ∈ e.steps.flatten, x.1 ≠ y.1 := by
  intro x hx y hy
  by_cases hkv : k = v
  · rw [hkv, State.afterEffect_link_same] at hx
    exact (dstClash_false hcd (he y hy) (hf x hx)).symm
  · rw [State.afterEffect_link_other _ _ hkv, State.afterEffect_link_other _ _ hk] at hx
    exact (dstClash_false (hc k) (he y hy) (Link.bounded_writes (hinv.outstanding k) hx)).symm

/-! ### The statement -/

/-- Two commands of different units issued in the other order: the same state but for the port, whatever the host does after. -/
theorem issues_commute {s t : State} {c d : Command} {es : List HostEvent} {i j : Instr} {ri rj : List Byte}
    (hc : decode c.bytes = .ok (i, ri)) (hd : decode d.bytes = .ok (j, rj)) (hij : i.unit ≠ j.unit)
    (h : ∃ v, step (s.setHost (.issue c :: .issue d :: es)) = .next v ∧ step v = .next t) (es' : List HostEvent) :
    ∃ v, step (s.setHost (.issue d :: .issue c :: es')) = .next v ∧ step v = .next ((t.setPort c.args).setHost es') := by
  obtain ⟨he, hf, rfl⟩ := (steps_issue_iff hc hd hij).mp h
  obtain ⟨hf', he'⟩ := he.swap hij hf
  refine (steps_issue_iff hd hc hij.symm).mpr ⟨hf', he', ?_⟩
  rw [State.afterEffect_comm s hij (effectOf_regs_unit i _) (effectOf_regs_unit j _)]
  rfl

/-- Two commands of different units issued and returned in the other order, with their DST regions apart. -/
theorem issues_and_returns_commute {s t : State} {c d : Command} {es : List HostEvent} {i j : Instr} {ri rj : List Byte}
    (hinv : s.Inv) (hc : decode c.bytes = .ok (i, ri)) (hd : decode d.bytes = .ok (j, rj)) (hij : i.unit ≠ j.unit)
    (hcd : dstClash c.args d.args = false) (hcs : ∀ u, dstClash c.args (s.link u).args = false)
    (hds : ∀ u, dstClash d.args (s.link u).args = false)
    (hrun : core.run 4 (s.setHost (.issue c :: .issue d :: .ret i.unit :: .ret j.unit :: es)) = .next t) :
    ∃ r r', t.returns = s.returns ++ [r, r'] ∧
      core.run 4 (s.setHost (.issue d :: .issue c :: .ret j.unit :: .ret i.unit :: es)) =
        .next ((t.setPort c.args).setReturns (s.returns ++ [r', r])) := by
  obtain ⟨t₁, h₁, hrest⟩ := core_run_succ_iff.mp hrun
  obtain ⟨t₂, h₂, hreturns⟩ := core_run_succ_iff.mp hrest
  obtain ⟨v₁, hv₁, hv₂⟩ := issues_commute hc hd hij ⟨t₁, h₁, h₂⟩ (.ret j.unit :: .ret i.unit :: es)
  obtain ⟨-, -, rfl⟩ := (steps_issue_iff hc hd hij).mp ⟨t₁, h₁, h₂⟩
  have he : (effectOf i (s.setPort c.args)).WritesIn c.args := effectOf_writesIn i _
  have hf : (effectOf j (s.setPort d.args)).WritesIn d.args := effectOf_writesIn j _
  have hfirst := hinv.writes_apart (u := i.unit) (v := j.unit) he hf hcd hcs
  have hsecond := hinv.writes_apart (u := j.unit) (v := i.unit) hf he (dstClash_comm c.args d.args ▸ hcd) hds
  rw [← State.afterEffect_comm s hij (effectOf_regs_unit i _) (effectOf_regs_unit j _)] at hsecond
  have hu := (State.afterEffect_link_other _ (effectOf j (s.setPort d.args)) hij).trans
    (s.afterEffect_link_same i.unit (effectOf i (s.setPort c.args)))
  obtain ⟨r, r', hr, hswapped⟩ := returns_commute c.args hreturns hij (by simpa using hinv.mem) hu
    (State.afterEffect_link_same _ _ _) hfirst hsecond
  simp only [State.setPort_returns, State.afterEffect_returns] at hr hswapped
  exact ⟨r, r', hr, core_run_succ_iff.mpr ⟨v₁, hv₁, core_run_succ_iff.mpr ⟨_, hv₂, hswapped⟩⟩⟩

/-- Settles O50: commands that are admitted in one order are in the other, and their effects and returns commute. -/
theorem commandsToDifferentUnitsCommute : Obligations.CommandsToDifferentUnitsCommute := by
  constructor
  · intro s t t' c d es i j ri rj hc hd hij hhost hst htt
    have hs : s = s.setHost (.issue c :: .issue d :: es) := by rw [← hhost]; rfl
    rw [hs] at hst
    have hissues : ∃ v, step (s.setHost (.issue c :: .issue d :: es)) = .next v ∧ step v = .next t' := ⟨t, hst, htt⟩
    obtain ⟨-, -, rfl⟩ := (steps_issue_iff hc hd hij).mp hissues
    exact issues_commute hc hd hij hissues es
  · intro s t c d es i j ri rj hinv hc hd hij hcd hout hrun
    exact issues_and_returns_commute hinv hc hd hij hcd (fun u => (hout u).1) (fun u => (hout u).2) hrun

end Sys2Proof.Machine
end

section
/-!
The bit streams of the packer and the unpacker: what a run writes, bit by bit, from any point of a stream at which a command may
start.
-/

namespace Sys2Proof.Machine

/-! ### Runs step by step -/

section after
variable {σ : Type} {pick : σ → Nat → List Byte → Pick σ} (used : Nat) (out : List Byte) (q : Run σ)

@[simp] theorem Run.after_used : (Run.after used out q).used = used + q.used := rfl
@[simp] theorem Run.after_out : (Run.after used out q).out = out ++ q.out := rfl
@[simp] theorem Run.after_reg : (Run.after used out q).reg = q.reg := rfl
@[simp] theorem Run.after_stop : (Run.after used out q).stop = q.stop := rfl
end after

theorem runUnit_after {σ : Type} {pick : σ → Nat → List Byte → Pick σ} (hp : PickBounded pick) {r r' : σ} {dcap used : Nat}
    {src out : List Byte} (h : pick r dcap src = .commit used out r') :
    runUnit pick r dcap src = Run.after used out (runUnit pick r' (dcap - out.length) (src.drop used)) :=
  runUnit_commit hp h

/-! ### Bit streams (R55) -/

/-- The low `w` bits of the bytes, one byte after the other, are the values of `f` in order. -/
def ReadsBits (w : Nat) (f : Nat → Bool) (out : List Byte) : Prop :=
  ∀ k i, k < out.length → i < w → (out.getD k 0#8).getLsbD i = f (w * k + i)

theorem readsBits_nil (w : Nat) (f : Nat → Bool) : ReadsBits w f [] := fun _ _ hk => absurd hk (Nat.not_lt_zero _)

/-- One byte in front of a stream: its bits come first, and the others `w` later. -/
theorem ReadsBits.cons {w : Nat} {f g : Nat → Bool} {b : Byte} {out : List Byte} (hb : ∀ i < w, b.getLsbD i = f i)
    (hg : ∀ n, g n = f (w + n)) (hout : ReadsBits w g out) : ReadsBits w f (b :: out) := by
  intro k i hk hi
  cases k with
  | zero => simpa using hb i hi
  | succ k =>
    rw [List.getD_cons_succ, hout k i (by simpa using hk) hi, hg]
    congr 1
    rw [Nat.mul_succ]
    omega

theorem septetStreamBit_nil (n : Nat) : septetStreamBit [] n = false := by simp [septetStreamBit]

theorem septetStreamBit_head (a : Byte) (xs : List Byte) {n : Nat} (h : n < 7) :
    septetStreamBit (a :: xs) n = a.getLsbD n := by
  simp [septetStreamBit, Nat.div_eq_of_lt h, Nat.mod_eq_of_lt h]

theorem septetStreamBit_tail (a : Byte) (xs : List Byte) (n : Nat) :
    septetStreamBit (a :: xs) (7 + n) = septetStreamBit xs n := by
  simp [septetStreamBit, Nat.add_div_left]

theorem octetStreamBit_head (a : Byte) (xs : List Byte) {n : Nat} (h : n < 8) :
    octetStreamBit (a :: xs) n = a.getLsbD n := by
  simp [octetStreamBit, Nat.div_eq_of_lt h, Nat.mod_eq_of_lt h]

theorem octetStreamBit_tail (a : Byte) (xs : List Byte) (n : Nat) :
    octetStreamBit (a :: xs) (8 + n) = octetStreamBit xs n := by
  simp [octetStreamBit, Nat.add_div_left]

/-! ### The packer -/

theorem septetOf_getLsbD (b : Byte) (i : Nat) : (septetOf b).getLsbD i = (b.getLsbD i && decide (i < 7)) := by
  have hmask : (0x7F#8).getLsbD i = decide (i < 7) := by
    simp only [BitVec.getLsbD_ofNat, show 127 = 2 ^ 7 - 1 from rfl, Nat.testBit_two_pow_sub_one]
    by_cases hi : i < 7 <;> simp [hi]
    omega
  rw [septetOf, BitVec.getLsbD_and, hmask]

/-- The octet of a pairing step is the next eight bits of the stream, the first of them bit `c - 1` of the septet `a`. -/
theorem pairOctet_getLsbD {c i : Nat} (hc : 1 ≤ c) (hc7 : c ≤ 7) (hi : i < 8) (a b : Byte) (rest : List Byte) :
    (pairOctet c a b).getLsbD i = septetStreamBit (a :: b :: rest) (c - 1 + i) := by
  have hbits : (pairOctet c a b).getLsbD i =
      ((septetOf a).getLsbD (c - 1 + i) || !decide (i < 8 - c) && (septetOf b).getLsbD (i - (8 - c))) := by
    simp only [pairOctet, BitVec.getLsbD_setWidth, BitVec.getLsbD_or, BitVec.getLsbD_ushiftRight,
      BitVec.getLsbD_shiftLeft, hi, show i < 16 by omega, show c - 1 + i < 16 by omega,
      show i - (8 - c) < 16 by omega, decide_true, Bool.true_and]
  rw [hbits, septetOf_getLsbD, septetOf_getLsbD]
  by_cases h : c - 1 + i < 7
  · rw [septetStreamBit_head _ _ h]
    simp [h, show i < 8 - c by omega]
  · obtain ⟨n, hn⟩ : ∃ n, c - 1 + i = 7 + n := ⟨c - 1 + i - 7, by omega⟩
    rw [hn, septetStreamBit_tail, septetStreamBit_head _ _ (by omega), show i - (8 - c) = n by omega]
    simp [show ¬ i < 8 - c by omega, show n < 7 by omega]

/-- The octet of a tail step is what is left of the last septet, zero filled. -/
theorem tailOctet_getLsbD (c i : Nat) (a : Byte) :
    (tailOctet c a).getLsbD i = septetStreamBit [a] (c - 1 + i) := by
  rw [tailOctet, BitVec.getLsbD_ushiftRight, septetOf_getLsbD]
  by_cases h : c - 1 + i < 7
  · simp [septetStreamBit_head _ _ h, h]
  · obtain ⟨n, hn⟩ : ∃ n, c - 1 + i = 7 + n := ⟨c - 1 + i - 7, by omega⟩
    rw [hn, septetStreamBit_tail, septetStreamBit_nil]
    simp

/-- `out` is the bit stream of the septets `x` from bit `c - 1` on, in groups of eight bits. -/
structure Packs (c : Nat) (x out : List Byte) : Prop where
  length : out.length = x.length - (x.length + c - 1) / 8
  bits : ReadsBits 8 (fun n => septetStreamBit x (c - 1 + n)) out

theorem cursor_le (c : BitVec 3) : c.toNat ≤ 7 := Nat.le_of_lt_succ c.isLt

theorem nextCursor_toNat {c : BitVec 3} (h : c ≠ 7#3) : (nextCursor c).toNat = c.toNat + 1 := by
  decide +revert

theorem packPick_tail {c : BitVec 3} {room : Nat} {a : Byte} (h : room ≠ 0) :
    packPick true c room [a] = .commit 1 [tailOctet c.toNat a] (nextCursor c) := by
  simp [packPick, h]

theorem packPick_pair {final : Bool} {c : BitVec 3} {room : Nat} {a b : Byte} {rest : List Byte} (h : room ≠ 0) :
    packPick final c room (a :: b :: rest) =
      .commit (if c = 7#3 then 2 else 1) [pairOctet c.toNat a b] (nextCursor c) := by
  simp [packPick, h]

/-- A tail step ends the stream: R204, R210. -/
theorem Packs.tail (c : Nat) (hc : c ≤ 7) (a : Byte) : Packs c [a] [tailOctet c a] where
  length := by simp only [List.length_singleton]; omega
  bits := .cons (fun i _ => tailOctet_getLsbD c i a) (fun _ => rfl) (readsBits_nil _ _)

/-- A pairing step at cursor 1 to 6 (R202). -/
theorem Packs.pair {c : Nat} {a b : Byte} {rest out : List Byte} (hc : 1 ≤ c) (hc6 : c ≤ 6)
    (h : Packs (c + 1) (b :: rest) out) : Packs c (a :: b :: rest) (pairOctet c a b :: out) where
  length := by
    have := h.length
    simp only [List.length_cons] at this ⊢
    omega
  bits := .cons (fun i hi => pairOctet_getLsbD hc (by omega) hi a b rest)
    (fun n => by rw [show c - 1 + (8 + n) = 7 + (c + 1 - 1 + n) by omega, septetStreamBit_tail]) h.bits

/-- A pairing step at cursor 7 uses up both septets (R203). -/
theorem Packs.pair7 {a b : Byte} {rest out : List Byte} (h : Packs 1 rest out) :
    Packs 7 (a :: b :: rest) (pairOctet 7 a b :: out) where
  length := by
    have := h.length
    simp only [List.length_cons] at this ⊢
    omega
  bits := .cons (fun i hi => pairOctet_getLsbD (by omega) (by omega) hi a b rest)
    (fun n => by
      rw [show 7 - 1 + (8 + n) = 7 + (7 + (1 - 1 + n)) by omega, septetStreamBit_tail, septetStreamBit_tail]) h.bits

/-- The final command on the rest of a stream packs all of it, if there is room for one octet per septet (R208, R210). -/
theorem packRun_packs (x : List Byte) (c : BitVec 3) (room : Nat) (hc : 1 ≤ c.toNat) (hroom : x.length ≤ room) :
    (runUnit (packPick true) c room x).stop = .ok ∧ Packs c.toNat x (runUnit (packPick true) c room x).out := by
  have hc7 : c.toNat ≤ 7 := Nat.le_of_lt_succ c.isLt
  match x with
  | [] =>
    rw [runUnit_idle rfl]
    exact ⟨rfl, by simp, readsBits_nil _ _⟩
  | [a] =>
    rw [runUnit_after (packPick_bounded true) (packPick_tail (Nat.ne_of_gt hroom)), runUnit_idle rfl]
    exact ⟨rfl, .tail _ hc7 a⟩
  | a :: b :: rest =>
    simp only [List.length_cons] at hroom
    rw [runUnit_after (packPick_bounded true) (packPick_pair (by omega))]
    by_cases h7 : c = 7#3
    · subst h7
      obtain ⟨hstop, hpacks⟩ := packRun_packs rest 1#3 (room - 1) (by decide) (by omega)
      exact ⟨hstop, hpacks.pair7⟩
    · have hlt : c.toNat ≠ 7 := fun he => h7 (BitVec.eq_of_toNat_eq he)
      obtain ⟨hstop, hpacks⟩ := packRun_packs (b :: rest) (nextCursor c) (room - 1) (nextCursor_pos hc)
        (by simp only [List.length_cons]; omega)
      rw [nextCursor_toNat h7] at hpacks
      rw [if_neg h7]
      exact ⟨hstop, hpacks.pair hc (by omega)⟩
termination_by x.length

/-- Settles O51: the packer's run from cursor 1, as the driver gets it. -/
theorem packedStreamIsTheBitStream : Obligations.PackedStreamIsTheBitStream := by
  intro s x hidle hstart
  have hcur : s.packCur = 1#3 := by simpa [State.atStart] using hstart
  obtain ⟨hstop, hlen, hbits⟩ := packRun_packs x 1#3 (3 * x.length + 1) (by decide) (by omega)
  have hsend := State.send_eq (i := .xformPack true) (r := 1#3) (src := x) (dcap := 3 * x.length + 1) (packPick_bounded true)
    putKeeps_setPackCur hidle rfl (by rw [← hcur]; rfl) (by rw [hstop]; nofun)
  refine ⟨_, congrArg (Option.map Answer.out) hsend, by simpa using hlen, ?_⟩
  simpa [ReadsBits] using hbits

/-! ### The unpacker -/

/-- The unpacker's registers in a stream in which `k` octets, the last of them `d`, have come since the septets last ended where
an octet ends (R228, R230). -/
def unpkAfter (k : Nat) (d : Byte) : UnpkRegs := ⟨BitVec.ofNat 3 (k + 1), byteCarry k d, false⟩

theorem unpkAfter_cur {k : Nat} (hk : k < 7) (d : Byte) : (unpkAfter k d).cur.toNat = k + 1 := by
  simp only [unpkAfter, BitVec.toNat_ofNat]
  omega

theorem unpkAfter_carry {k : Nat} (hk : k < 8) (d : Byte) : (unpkAfter k d).carry.toNat = d.toNat >>> (8 - k) := by
  have hlt : d.toNat >>> (8 - k) < 2 ^ 7 := by
    rw [Nat.shiftRight_eq_div_pow]
    refine Nat.div_lt_of_lt_mul (lt_of_lt_of_le d.isLt ?_)
    rw [← Nat.pow_add]
    exact Nat.pow_le_pow_right (by decide) (by omega)
  simp only [unpkAfter, byteCarry, BitVec.toNat_setWidth, BitVec.toNat_ushiftRight]
  exact Nat.mod_eq_of_lt hlt

theorem byteCarry_zero (d : Byte) : byteCarry 0 d = 0#7 := by
  decide +revert

theorem byteCarry_getLsbD {k i : Nat} (d : Byte) (hi : i < 7) : (byteCarry k d).getLsbD i = d.getLsbD (8 - k + i) := by
  simp [byteCarry, hi]

theorem looseByte_getLsbD (v : Septet) {i : Nat} (hi : i < 7) : (looseByte v).getLsbD i = v.getLsbD i := by
  simp [looseByte]; omega

theorem looseByte_lt (v : Septet) : (looseByte v).toNat < 0x80 := by
  have := v.isLt
  simp [looseByte]; omega

/-- The septet of a byte step is the next seven bits of the stream, from the first one on that the octet `d` before has left over. -/
theorem byteSeptet_getLsbD {k i : Nat} (hk : k < 7) (hi : i < 7) (d b : Byte) (rest : List Byte) :
    (byteSeptet (k + 1) b (byteCarry k d)).getLsbD i = octetStreamBit (d :: b :: rest) (8 - k + i) := by
  have hbits : (byteSeptet (k + 1) b (byteCarry k d)).getLsbD i =
      (!decide (i < k) && b.getLsbD (i - k) || d.getLsbD (8 - k + i)) := by
    rw [byteSeptet, BitVec.getLsbD_or, byteCarry_getLsbD d hi]
    simp only [BitVec.getLsbD_setWidth, BitVec.getLsbD_shiftLeft, hi, show i < 16 by omega, Nat.add_sub_cancel,
      show i - k < 16 by omega, decide_true, Bool.true_and]
  rw [hbits]
  by_cases h : i < k
  · rw [octetStreamBit_head _ _ (by omega)]
    simp [h]
  · rw [show 8 - k + i = 8 + (i - k) by omega, octetStreamBit_tail, octetStreamBit_head _ _ (by omega)]
    simp [h]

theorem unpackPick_byte {k room : Nat} {d b : Byte} {rest : List Byte} (hk : k < 6) (h : room ≠ 0) :
    unpackPick (unpkAfter k d) room (b :: rest) =
      .commit 1 [looseByte (byteSeptet (k + 1) b (byteCarry k d))] (unpkAfter (k + 1) b) := by
  have hcur : (unpkAfter k d).cur ≠ 7#3 := fun he => by
    have := unpkAfter_cur (d := d) (show k < 7 by omega)
    rw [he] at this
    simp at this
    omega
  have hnext : (unpkAfter k d).cur + 1#3 = BitVec.ofNat 3 (k + 1 + 1) := by simp [unpkAfter, BitVec.ofNat_add]
  simp only [unpackPick, if_neg hcur, hnext, if_neg h, unpkAfter_cur (show k < 7 by omega)]
  simp [unpkAfter]

theorem unpackPick_byte7 {room : Nat} {d b : Byte} {rest : List Byte} (h : room ≠ 0) :
    unpackPick (unpkAfter 6 d) room (b :: rest) =
      .commit 1 [looseByte (byteSeptet 7 b (byteCarry 6 d))] ⟨7#3, byteCarry 7 b, true⟩ := by
  simp [unpackPick, unpkAfter, h]

theorem unpackPick_flush {room : Nat} {b : Byte} {src : List Byte} (h : room ≠ 0) :
    unpackPick ⟨7#3, byteCarry 7 b, true⟩ room src = .commit 0 [looseByte (byteCarry 7 b)] (unpkAfter 0 b) := by
  simp [unpackPick, unpkAfter, byteCarry_zero, h]

/-- The run `q` on the octets `x`, after `k` octets of which the last is `d`: it takes them all, its output is the bit stream
from the first bit left over of `d` on in groups of seven bits, and its registers are those after `k` and these octets. -/
structure Unpacks (k : Nat) (d : Byte) (x : List Byte) (q : Run UnpkRegs) : Prop where
  stop : q.stop = .ok
  used : q.used = x.length
  length : q.out.length = x.length + (x.length + k) / 7
  bits : ReadsBits 7 (fun n => octetStreamBit (d :: x) (8 - k + n)) q.out
  loose : ∀ b ∈ q.out, b.toNat < 0x80
  regs : q.reg = unpkAfter ((x.length + k) % 7) (x.getLastD d)

theorem Unpacks.nil {k : Nat} (hk : k < 7) (d : Byte) : Unpacks k d [] ⟨0, [], unpkAfter k d, .ok⟩ where
  stop := rfl
  used := rfl
  length := by simp; omega
  bits := readsBits_nil _ _
  loose := nofun
  regs := by simp [Nat.mod_eq_of_lt hk]

/-- A byte step at cursor 1 to 6 (R221). -/
theorem Unpacks.byte {k : Nat} {d b : Byte} {x : List Byte} {q : Run UnpkRegs} (hk : k < 6) (h : Unpacks (k + 1) b x q) :
    Unpacks k d (b :: x) (.after 1 [looseByte (byteSeptet (k + 1) b (byteCarry k d))] q) where
  stop := h.stop
  used := by simp [h.used, Nat.add_comm]
  length := by
    simp only [Run.after_out, List.singleton_append, List.length_cons, h.length]
    rw [show x.length + 1 + k = x.length + (k + 1) by omega]
    omega
  bits := .cons (fun i hi => by rw [looseByte_getLsbD _ hi, byteSeptet_getLsbD (by omega) hi])
    (fun n => by rw [show 8 - k + (7 + n) = 8 + (8 - (k + 1) + n) by omega, octetStreamBit_tail]) h.bits
  loose := List.forall_mem_cons.mpr ⟨looseByte_lt _, h.loose⟩
  regs := by
    rw [Run.after_reg, h.regs, List.length_cons, List.getLastD_cons, show x.length + 1 + k = x.length + (k + 1) by omega]

/-- A byte step at cursor 7, and the flush of the septet it leaves (R221, R222). -/
theorem Unpacks.byte7 {d b : Byte} {x : List Byte} {q : Run UnpkRegs} (h : Unpacks 0 b x q) :
    Unpacks 6 d (b :: x)
      (.after 1 [looseByte (byteSeptet 7 b (byteCarry 6 d))] (.after 0 [looseByte (byteCarry 7 b)] q)) where
  stop := h.stop
  used := by simp [h.used, Nat.add_comm]
  length := by
    simp only [Run.after_out, List.singleton_append, List.length_cons, h.length]
    omega
  bits := by
    have hflush : ReadsBits 7 (fun n => octetStreamBit (b :: x) (1 + n)) (looseByte (byteCarry 7 b) :: q.out) :=
      .cons (fun i hi => by rw [looseByte_getLsbD _ hi, byteCarry_getLsbD b hi, octetStreamBit_head _ _ (by omega)])
        (fun n => by rw [show 1 + (7 + n) = 8 - 0 + n by omega]) h.bits
    exact .cons (fun i hi => by rw [looseByte_getLsbD _ hi, byteSeptet_getLsbD (by omega) hi])
      (fun n => by rw [show 8 - 6 + (7 + n) = 8 + (1 + n) by omega, octetStreamBit_tail]) hflush
  loose := List.forall_mem_cons.mpr ⟨looseByte_lt _, List.forall_mem_cons.mpr ⟨looseByte_lt _, h.loose⟩⟩
  regs := by
    rw [Run.after_reg, Run.after_reg, h.regs, List.length_cons, List.getLastD_cons,
      show (x.length + 1 + 6) % 7 = (x.length + 0) % 7 by omega]

/-- A command on octets of a stream unpacks all of them, if there is room for its septets (R228, R230). -/
theorem unpackRun_unpacks (x : List Byte) (k : Nat) (d : Byte) (room : Nat) (hk : k < 7)
    (hroom : x.length + (x.length + k) / 7 ≤ room) : Unpacks k d x (runUnit unpackPick (unpkAfter k d) room x) := by
  induction x generalizing k d room with
  | nil =>
    rw [runUnit_idle rfl]
    exact .nil hk d
  | cons b x ih =>
    simp only [List.length_cons] at hroom
    by_cases h6 : k = 6
    · subst h6
      rw [runUnit_after unpackPick_bounded (unpackPick_byte7 (by omega)),
        runUnit_after unpackPick_bounded (unpackPick_flush (by simp only [List.length_singleton]; omega))]
      exact .byte7 (ih 0 b _ (by omega) (by simp only [List.length_singleton]; omega))
    · rw [runUnit_after unpackPick_bounded (unpackPick_byte (by omega) (by omega))]
      exact .byte (by omega) (ih (k + 1) b _ (by omega) (by simp only [List.length_singleton]; omega))

/-- Settles O53: the unpacker's run from cursor 1, as the driver gets it. -/
theorem unpackedStreamIsTheBitStream : Obligations.UnpackedStreamIsTheBitStream := by
  intro s final x hidle hstart
  have hregs : s.unpk = unpkAfter 0 0#8 := by
    simp only [State.atStart, Bool.and_eq_true, beq_iff_eq, Bool.not_eq_true'] at hstart
    obtain ⟨⟨hcur, hcarry⟩, hpend⟩ := hstart
    rw [State.unpk, hcur, hcarry, hpend]
    rfl
  have hq := unpackRun_unpacks x 0 0#8 (3 * x.length + 1) (by omega) (by omega)
  rw [← hregs] at hq
  have hsend := State.send_eq (s := s) (i := .xformUnpack final) (r := s.unpk) (src := x) (dcap := 3 * x.length + 1)
    unpackPick_bounded putKeeps_putUnpk hidle (by cases final <;> rfl) rfl (by rw [hq.stop]; nofun)
  obtain ⟨-, hunpk, -⟩ := State.takeReturn_keeps
    (((s.sendState .unpack x (3 * x.length + 1)).afterXform .unpack .putUnpk
      (runUnit unpackPick s.unpk (3 * x.length + 1) x)).setHost []) .unpack
  have hafter := hunpk.trans hq.regs
  refine ⟨_, hsend, by simp [replyOf, hq.stop], hq.used, hq.length, fun j i hj hi => ?_, fun j hj => ?_,
    congrArg UnpkRegs.pend hafter, ?_, ?_⟩
  · exact (hq.bits j i hj hi).trans (octetStreamBit_tail _ _ _)
  · rw [List.getD_eq_getElem _ _ hj]
    exact hq.loose _ (List.getElem_mem hj)
  · exact (congrArg (fun r => r.cur.toNat) hafter).trans (unpkAfter_cur (Nat.mod_lt _ (by decide)) _)
  · exact (congrArg (fun r => r.carry.toNat) hafter).trans (unpkAfter_carry (Nat.lt_succ_of_lt (Nat.mod_lt _ (by decide))) _)

end Sys2Proof.Machine
end

section
/-!
When a command runs and when it is refused: a busy unit, regions that may not be used, input without a meaning, and what an
accepted XFORM command leaves.
-/

namespace Sys2Proof.Machine

/-! ### The two refusals before a run (R65, R58) -/

section refusals
variable {σ : Type} {pick : σ → Nat → List Byte → Pick σ} {s : State} {u : UnitId} {r : σ} {put : State → σ → State}

theorem State.xform_busy (h : (s.link u).busy = true) : s.xform u pick r put = .refused .concurrent := by
  simp [State.xform, h]

theorem State.control_busy {f : State → State} (h : (s.link u).busy = true) : s.control u f = .refused .concurrent := by
  simp [State.control, h]

theorem State.xform_regions {why : Refusal} (hu : s.link u = .idle) (h : s.regionRefusal s.port = some why) :
    s.xform u pick r put = .refused why := by
  simp [State.xform, hu, h, Link.busy]
end refusals

/-- Every XFORM command is the shared operation on its unit, with a pick function and registers of its own. -/
theorem exec_xformOf_shape (u : UnitId) (final : Bool) (s : State) :
    ∃ (σ : Type) (pick : σ → Nat → List Byte → Pick σ) (r : σ) (put : State → σ → State),
      exec (xformOf u final) s = s.xform u pick r put := by
  cases u with
  | dec => exact ⟨Unit, decPick s.rom final, (), fun t _ => t, rfl⟩
  | enc => exact ⟨Unit, encPick s.rom s.encRepl final, (), fun t _ => t, rfl⟩
  | pack => exact ⟨_, packPick final, s.packCur, State.setPackCur, rfl⟩
  | unpack => exact ⟨_, unpackPick, s.unpk, State.putUnpk, rfl⟩

/-- The shared operation that each command is. -/
theorem exec_shape (i : Instr) (s : State) :
    (∃ (σ : Type) (pick : σ → Nat → List Byte → Pick σ) (r : σ) (put : State → σ → State),
      exec i s = s.xform i.unit pick r put) ∨ ∃ f, exec i s = s.control i.unit f := by
  cases i with
  | xformDec final => exact .inl (exec_xformOf_shape .dec final s)
  | xformEnc final => exact .inl (exec_xformOf_shape .enc final s)
  | xformPack final => exact .inl (exec_xformOf_shape .pack final s)
  | xformUnpack final => exact .inl (exec_xformOf_shape .unpack final s)
  | resetDec => exact .inr ⟨id, rfl⟩
  | resetEnc => exact .inr ⟨id, rfl⟩
  | resetPack => exact .inr ⟨fun t => t.setPackCur 1#3, rfl⟩
  | resetUnpack => exact .inr ⟨fun t => t.setUnpk 1#3 0#7 false, rfl⟩
  | setRepl imm8 => exact .inr ⟨fun t => t.setEncRepl (replacementOf imm8), rfl⟩

/-- Settles O11: both shared operations look at the unit's command interface first. -/
theorem busyUnitRefusesEveryCommand : Obligations.BusyUnitRefusesEveryCommand := by
  intro i s args steps reply h
  have hbusy : (s.link i.unit).busy = true := by rw [h]; rfl
  obtain ⟨σ, pick, r, put, he⟩ | ⟨f, he⟩ := exec_shape i s
  · rw [he, State.xform_busy hbusy]
  · rw [he, State.control_busy hbusy]

/-- An XFORM command's regions may not be used exactly if they share a byte or an outstanding write would change SRC. -/
theorem State.regionRefusal_some {s : State} {o : Operands} :
    s.regionRefusal o = some .regions ↔ o.disjoint = false ∨ ∃ v, changesSrc s.mem o (s.link v).writes = true := by
  have hnone := State.regionRefusal_none (s := s) (o := o)
  have hcases : s.regionRefusal o = some .regions ↔ s.regionRefusal o ≠ none := by
    unfold State.regionRefusal
    split
    · simp
    · split <;> simp
  rw [hcases, Ne, hnone, not_and_or, not_forall]
  simp only [Bool.not_eq_true, Bool.not_eq_false]

theorem exec_xformOf_regions {s : State} {u : UnitId} (final : Bool) (hu : s.link u = .idle)
    (h : s.regionRefusal s.port = some .regions) : exec (xformOf u final) s = .refused .regions := by
  obtain ⟨σ, pick, r, put, he⟩ := exec_xformOf_shape u final s
  rw [he, State.xform_regions hu h]

theorem Operands.disjoint_false {o : Operands} {x : Nat} (hsrc : o.srcAt ≤ x ∧ x < o.srcAt + o.slen)
    (hdst : o.dstAt ≤ x ∧ x < o.dstAt + o.dcap) : o.disjoint = false := by
  have := rangesOverlap_iff.mpr ⟨x, hsrc.1, hsrc.2, hdst.1, hdst.2⟩
  simp [Operands.disjoint, this]

/-- A step takes the host's next event. -/
theorem step_of_host {s : State} {e : HostEvent} {es : List HostEvent} (h : s.host = e :: es) :
    step s = (s.setHost es).handle e := by
  simp [step, h]

theorem State.hostWrite_refused {s : State} {a : Nat} {b : Byte} (h : ¬ s.KeepsSrc [(a, b)]) :
    s.hostWrite a b = .refused .regions := by
  rw [State.keepsSrc_iff, Bool.not_eq_false] at h
  simp [State.hostWrite, h]

/-- Settles O12: the region check for a command's own regions, the SRC check of a host write for the SRC outstanding. -/
theorem overlapAndChangedSrcAreRefused : Obligations.OverlapAndChangedSrcAreRefused := by
  constructor
  · intro s u final x hidle hsrc hsrc' hdst hdst'
    exact exec_xformOf_regions final hidle
      (State.regionRefusal_some.mpr (.inl (Operands.disjoint_false ⟨hsrc, hsrc'⟩ ⟨hdst, hdst'⟩)))
  · intro s es a b u args steps reply hhost hlink hlo hhi hne
    rw [step_of_host hhost]
    refine State.hostWrite_refused fun hk => hne ?_
    have hsame : ∀ x ∈ [(a, b)], args.srcAt ≤ x.1 → x.1 < args.srcAt + args.slen → Memory.read s.mem x.1 = x.2 := by
      have := hk u
      rw [State.setHost_link, hlink] at this
      exact changesSrc_false.mp this
    exact hsame _ (List.mem_singleton_self _) hlo hhi

/-! ### Runs that meet no input without a meaning -/

/-- A run is not refused if no step of it is, for a property of the input that what is left of it keeps. -/
theorem runSteps_ne_refuse {σ : Type} {pick : σ → Nat → List Byte → Pick σ} {P : List Byte → Prop}
    (hdrop : ∀ src n, P src → P (src.drop n)) (hpick : ∀ r room src, P src → pick r room src ≠ .refuse)
    (n : Nat) (r : σ) (room : Nat) (src : List Byte) (h : P src) : (runSteps pick n r room src).stop ≠ .refuse := by
  induction n generalizing r room src with
  | zero => nofun
  | succ n ih =>
    cases hc : pick r room src with
    | idle => rw [runSteps_idle hc]; nofun
    | full => rw [runSteps_full hc]; nofun
    | refuse => exact absurd hc (hpick r room src h)
    | commit used out r' =>
      rw [runSteps_commit hc]
      exact ih r' _ _ (hdrop src used h)

theorem runUnit_ne_refuse {σ : Type} {pick : σ → Nat → List Byte → Pick σ} (hpick : ∀ r room src, pick r room src ≠ .refuse)
    (r : σ) (dcap : Nat) (src : List Byte) : (runUnit pick r dcap src).stop ≠ .refuse :=
  runSteps_ne_refuse (P := fun _ => True) (fun _ _ _ => trivial) (fun r room src _ => hpick r room src) _ r dcap src trivial

theorem packPick_ne_refuse (final : Bool) (c : BitVec 3) (room : Nat) (src : List Byte) :
    packPick final c room src ≠ .refuse := by
  unfold packPick
  repeat' split
  all_goals nofun

theorem unpackPick_ne_refuse (r : UnpkRegs) (room : Nat) (src : List Byte) : unpackPick r room src ≠ .refuse := by
  unfold unpackPick
  repeat' split
  all_goals nofun

theorem encPick_ne_refuse (t : Tables) (repl : Byte) (final : Bool) (r : Unit) (room : Nat) (src : List Byte) :
    encPick t repl final r room src ≠ .refuse := by
  unfold encPick
  repeat' split
  all_goals nofun

theorem emitEntry_ne_refuse (e : DecodeEntry) (adv room : Nat) : emitEntry e adv room ≠ .refuse := by
  unfold emitEntry
  split <;> nofun

/-- The decoder refuses only at a byte of 0x80 or above (R146). -/
theorem decPick_refuse {t : Tables} {final : Bool} {r : Unit} {room : Nat} {src : List Byte}
    (h : decPick t final r room src = .refuse) : ∃ c ∈ src, 0x80 ≤ c.toNat := by
  unfold decPick at h
  split at h
  · cases h
  · rename_i c rest
    split at h
    · split at h
      · split at h <;> exact absurd h (emitEntry_ne_refuse _ _ _)
      · split at h
        · exact absurd h (emitEntry_ne_refuse _ _ _)
        · cases h
    · split at h
      · rename_i hbit
        refine ⟨c, List.mem_cons_self, ?_⟩
        by_contra hlt
        rw [BitVec.getLsbD, Nat.testBit_lt_two_pow (by omega)] at hbit
        cases hbit
      · exact absurd h (emitEntry_ne_refuse _ _ _)

/-- Input of seven-bit codes always has a meaning to the decoder. -/
theorem decRun_ne_refuse (t : Tables) (final : Bool) (dcap : Nat) {src : List Byte} (h : ∀ b ∈ src, b.toNat < 0x80) :
    (runUnit (decPick t final) () dcap src).stop ≠ .refuse :=
  runSteps_ne_refuse (P := fun src => ∀ b ∈ src, b.toNat < 0x80) (fun _ _ hsrc b hb => hsrc b (List.mem_of_mem_drop hb))
    (fun _ _ _ hsrc hc => by
      obtain ⟨c, hmem, hge⟩ := decPick_refuse hc
      exact absurd (hsrc c hmem) (Nat.not_lt.mpr hge)) _ () dcap src h

/-! ### What accepted XFORM commands leave -/

/-- An accepted XFORM command whose input has a meaning: it completes, unless its output changes SRC of one outstanding. -/
theorem State.xform_completes {σ : Type} {pick : σ → Nat → List Byte → Pick σ} {s : State} {u : UnitId} {r : σ}
    {put : State → σ → State} (hp : PickBounded pick) (ha : s.Accepts u)
    (hr : (runUnit pick r s.port.dcap s.srcBytes).stop ≠ .refuse) :
    (s.KeepsSrc (dstCells s.port (runUnit pick r s.port.dcap s.srcBytes).out) →
      s.xform u pick r put = .next (s.afterXform u put (runUnit pick r s.port.dcap s.srcBytes))) ∧
    (¬ s.KeepsSrc (dstCells s.port (runUnit pick r s.port.dcap s.srcBytes).out) →
      s.xform u pick r put = .refused .regions) :=
  ⟨State.xform_accepted hp ha hr, State.xform_changes_src hp ha hr⟩

/-- Settles O16: the packer has a step or a stop for every input. -/
theorem xformPackCompletes : Obligations.XformPackCompletes := fun _ final ha =>
  State.xform_completes (put := .setPackCur) (packPick_bounded final) ha (runUnit_ne_refuse (packPick_ne_refuse final) _ _ _)

/-- Settles O17: the unpacker has a step or a stop for every input. -/
theorem xformUnpackCompletes : Obligations.XformUnpackCompletes := fun _ _ ha =>
  State.xform_completes (put := .putUnpk) unpackPick_bounded ha (runUnit_ne_refuse unpackPick_ne_refuse _ _ _)

/-- Settles O18: the encoder has a step or a stop for every input. -/
theorem xformEncCompletes : Obligations.XformEncCompletes := fun s final ha =>
  State.xform_completes (put := fun t _ => t) (encPick_bounded s.rom s.encRepl final) ha
    (runUnit_ne_refuse (encPick_ne_refuse s.rom s.encRepl final) _ _ _)

/-- Settles O19: only a byte of 0x80 or above makes the decoder refuse its input. -/
theorem xformDecCompletes : Obligations.XformDecCompletes := by
  intro s final ha q t
  have hrun : q.stop ≠ .refuse → (s.KeepsSrc (dstCells s.port q.out) → exec (.xformDec final) s = .next t) ∧
      (¬ s.KeepsSrc (dstCells s.port q.out) → exec (.xformDec final) s = .refused .regions) :=
    State.xform_completes (put := fun t _ => t) (decPick_bounded s.rom final) ha
  refine ⟨fun hk => ⟨fun hlow => ?_, fun hstop => (hrun hstop).1 hk⟩, fun hk hstop => (hrun hstop).2 hk, fun hstop => ?_⟩
  · exact (hrun (decRun_ne_refuse s.rom final s.port.dcap hlow)).1 hk
  · exact State.xform_refused (put := fun t _ => t) ha hstop

/-! ### Commands that are not refused for their regions -/

theorem xformOf_unit (u : UnitId) (final : Bool) : (xformOf u final).unit = u := by cases u <;> rfl

/-- The effect of an XFORM command is that of a run within the operands (R122). -/
theorem effectOf_xformOf (u : UnitId) (final : Bool) (s : State) :
    ∃ (σ : Type) (regs : σ → RegWrite) (q : Run σ), effectOf (xformOf u final) s = .ofRun s regs q ∧
      q.used ≤ s.port.slen ∧ q.out.length ≤ s.port.dcap := by
  rcases effectOf_shape (xformOf u final) s with ⟨w, hw⟩ | hrun
  · have hreply : (effectOf (xformOf u final) s).reply ≠ none := by cases u <;> nofun
    rw [hw] at hreply
    exact absurd rfl hreply
  · exact hrun

theorem effectOf_xformOf_args (u : UnitId) (final : Bool) (s : State) : (effectOf (xformOf u final) s).args = s.port := by
  cases u <;> rfl

/-- Only the decoder has input without a meaning (R146). -/
theorem effectOf_xformOf_meant {u : UnitId} (hu : u ≠ .dec) (final : Bool) (s : State) :
    (effectOf (xformOf u final) s).stop ≠ .refuse := by
  cases u with
  | dec => exact absurd rfl hu
  | enc => exact runUnit_ne_refuse (encPick_ne_refuse _ _ _) _ _ _
  | pack => exact runUnit_ne_refuse (packPick_ne_refuse _) _ _ _
  | unpack => exact runUnit_ne_refuse unpackPick_ne_refuse _ _ _

/-- Writes that reach no byte of an outstanding SRC change none. -/
theorem State.keepsSrc_of_apart {s : State} {cells : List Host.Cell}
    (h : ∀ v, ∀ x ∈ cells, ¬ ((s.link v).args.srcAt ≤ x.1 ∧ x.1 < (s.link v).args.srcAt + (s.link v).args.slen)) :
    s.KeepsSrc cells := fun v =>
  changesSrc_false.mpr fun x hx hlo hhi => absurd ⟨hlo, hhi⟩ (h v x hx)

/-- Settles O13: the region check for SRC, the bounds of a run's writes for DST, and a hold's empty run. -/
theorem outstandingWritesIntoSrcAreRefused : Obligations.OutstandingWritesIntoSrcAreRefused := by
  refine ⟨fun s u v final hidle hchanges => ?_, fun s u final ha hdec hapart => ?_, fun s ha hlen => ?_⟩
  · exact exec_xformOf_regions final hidle (State.regionRefusal_some.mpr (.inr ⟨v, hchanges⟩))
  · have hargs := effectOf_xformOf_args u final s
    have hwrites := effectOf_writesIn (xformOf u final) s
    refine ⟨_, exec_next_iff.mpr ⟨⟨?_, hargs ▸ ha.own, hargs ▸ ha.src, ?_, effectOf_xformOf_meant hdec final s⟩, rfl⟩⟩
    · rw [xformOf_unit]
      exact ha.idle
    · exact State.keepsSrc_of_apart fun v x hx => hapart v x.1 (hwrites x hx).1 (hwrites x hx).2
  · obtain ⟨a, hsrc⟩ := List.length_eq_one_iff.mp (s.srcBytes_length.trans hlen)
    have hrun : runUnit (packPick false) s.packCur s.port.dcap s.srcBytes = ⟨0, [], s.packCur, .ok⟩ :=
      runUnit_idle (by rw [hsrc]; rfl)
    have hdone := (xformPackCompletes s false ha).1
    rw [hrun] at hdone
    exact hdone s.keepsSrc_nil

end Sys2Proof.Machine
end

section
/-!
The host's memory under outstanding commands: the events that are no commands, and the frame of a command up to and with its
return.
-/

namespace Sys2Proof.Machine

/-! ### Host writes and returns -/

/-- A write of the host to a byte that no outstanding command writes uses no free value. -/
theorem State.hostWrite_apart {s : State} {a : Nat} {b : Byte} (hk : s.KeepsSrc [(a, b)])
    (ha : ∀ u, ∀ x ∈ (s.link u).writes, x.1 ≠ a) : s.hostWrite a b = .next (s.setMem (Memory.write s.mem a b)) := by
  have hc : s.contends [(a, b)] = false := State.contends_false.mpr fun u x hx y hy => by
    rw [List.mem_singleton.mp hy]
    exact ha u x hx
  simp [State.hostWrite, State.keepsSrc_iff.mp hk, hc]

/-- Settles O14: what the units may do by themselves, then the write or the return. -/
theorem writesLandUnderOutstandingCommands : Obligations.WritesLandUnderOutstandingCommands := by
  refine ⟨fun s es a b hhost hk => ⟨?_, fun hapart => ?_⟩, fun s es u args steps reply hhost hlink => ?_⟩
  · rw [step_of_host hhost]
    exact State.hostWrite_spec (s := s.setHost es) hk
  · rw [step_of_host hhost]
    exact State.hostWrite_apart (s := s.setHost es) hk hapart
  · obtain ⟨done, p, hp, he⟩ := State.takeReturn_spec (s := s.setHost es) hlink
    exact ⟨done, p, hp, (step_of_host hhost).trans (congrArg Host.Outcome.next he)⟩

/-- Settles O6: a return whose writes meet no others uses no free value. -/
theorem idleAndReturnSteps : Obligations.IdleAndReturnSteps := by
  refine ⟨fun s hhost => by simp [step, hhost], fun s u es args steps reply hhost hlink hapart => ?_⟩
  exact (step_of_host hhost).trans
    (congrArg Host.Outcome.next (State.takeReturn_apart (s := s.setHost es) hlink hapart))

/-! ### The frame of memory (R56, R122) -/

/-- What a return writes: all the unit's own writes, and else only writes of other commands outstanding. -/
theorem State.takeReturn_mem {s : State} {u : UnitId} {args : Operands} {steps : List (List Host.Cell)}
    {reply : Option Reply} (h : s.link u = .outstanding args steps reply) :
    ∃ cells, (s.takeReturn u).mem = Memory.writeCells s.mem cells ∧ (∀ x ∈ steps.flatten, x ∈ cells) ∧
      ∀ x ∈ cells, x ∈ steps.flatten ∨ ∃ v, v ≠ u ∧ x ∈ (s.link v).writes := by
  obtain ⟨done, p, hp, he⟩ := State.takeReturn_spec h
  have hown : steps.flatten = (stepsOf done u).flatten ++ (p.link u).writes := by
    rw [← hp.writes u, h, Link.writes_outstanding]
  have hsource : ∀ v x, x ∈ (s.link v).writes → x ∈ steps.flatten ∨ ∃ v, v ≠ u ∧ x ∈ (s.link v).writes := by
    intro v x hx
    by_cases hv : v = u
    · subst hv
      rw [h, Link.writes_outstanding] at hx
      exact .inl hx
    · exact .inr ⟨v, hv, hx⟩
  refine ⟨done.flatMap Prod.snd ++ (p.link u).writes, ?_, fun x hx => ?_, fun x hx => ?_⟩
  · rw [he, Memory.writeCells_append, ← hp.mem]
    rfl
  · rw [hown] at hx
    rcases List.mem_append.mp hx with hx | hx
    · obtain ⟨w, hw, hxw⟩ := List.mem_flatten.mp hx
      exact List.mem_append_left _ (List.mem_flatMap.mpr ⟨(u, w), mem_stepsOf.mp hw, hxw⟩)
    · exact List.mem_append_right _ hx
  · rcases List.mem_append.mp hx with hx | hx
    · obtain ⟨⟨v, w⟩, hw, hxw⟩ := List.mem_flatMap.mp hx
      exact hsource v x (hp.done_writes hw hxw)
    · exact hsource u x (hp.left_mem hx)

section returned
variable {s : State} {u : UnitId} {o : Operands} {outs : List (List Byte)} {reply : Option Reply}

/-- After its return a command's output stands in DST, but where another command outstanding wrote the byte. -/
theorem State.takeReturn_read_dst (h : s.link u = .outstanding o (dstSteps o outs) reply) {k : Nat}
    (hk : k < outs.flatten.length) :
    Memory.read (s.takeReturn u).mem (o.dstAt + k) = outs.flatten.getD k 0#8 ∨
      ∃ v, v ≠ u ∧ (o.dstAt + k, Memory.read (s.takeReturn u).mem (o.dstAt + k)) ∈ (s.link v).writes := by
  obtain ⟨cells, hmem, hall, honly⟩ := State.takeReturn_mem h
  simp only [dstSteps_flatten, dstCells] at hall honly
  obtain ⟨x, hx, hxa⟩ := cellsFrom_covers (a := o.dstAt) hk
  have hwritten := Memory.read_writeCells_written s.mem ⟨x, hall x hx, hxa⟩
  rw [← hmem] at hwritten
  exact (honly _ hwritten).imp_left cellsFrom_value

/-- A return leaves every byte outside the command's output, but where another command outstanding wrote it. -/
theorem State.takeReturn_read_outside (h : s.link u = .outstanding o (dstSteps o outs) reply) {a : Nat}
    (ha : a < o.dstAt ∨ o.dstAt + outs.flatten.length ≤ a) :
    Memory.read (s.takeReturn u).mem a = Memory.read s.mem a ∨
      ∃ v, v ≠ u ∧ (a, Memory.read (s.takeReturn u).mem a) ∈ (s.link v).writes := by
  obtain ⟨cells, hmem, -, honly⟩ := State.takeReturn_mem h
  simp only [dstSteps_flatten, dstCells] at honly
  rcases Memory.read_writeCells_cases s.mem cells a with hsame | hwritten
  · exact .inl (hmem ▸ hsame)
  · rw [← hmem] at hwritten
    refine .inr ((honly _ hwritten).resolve_left fun hown => ?_)
    obtain ⟨hlo, hhi⟩ := cellsFrom_range hown
    simp only at hlo hhi
    omega

/-- With no byte in common with others outstanding, a return writes the command's output and nothing else. -/
theorem State.takeReturn_mem_apart (h : s.link u = .outstanding o (dstSteps o outs) reply)
    (ha : ∀ v, v ≠ u → ∀ x ∈ (s.link v).writes, x.1 < o.dstAt ∨ o.dstAt + outs.flatten.length ≤ x.1) :
    (s.takeReturn u).mem = Memory.writeBytes s.mem o.dstAt outs.flatten := by
  have happart : ∀ v, v ≠ u → ∀ x ∈ (s.link v).writes, ∀ y ∈ (dstSteps o outs).flatten, x.1 ≠ y.1 := by
    intro v hv x hx y hy
    rw [dstSteps_flatten] at hy
    have := cellsFrom_range hy
    have := ha v hv x hx
    omega
  rw [State.takeReturn_apart h happart, State.setReturns_mem, State.setMem_mem, dstSteps_flatten, dstCells,
    Memory.writeCells_cellsFrom]
end returned

/-- The return of a command without regions leaves memory (R50). -/
theorem State.takeReturn_mem_control {s : State} {u : UnitId} (h : s.link u = .outstanding Operands.none [] none) :
    (s.takeReturn u).mem = s.mem := by
  rw [State.takeReturn_apart h (fun _ _ _ _ _ hy => absurd hy List.not_mem_nil)]
  rfl

theorem exec_control_mem {i : Instr} {s t : State} (h : exec i s = .next t) {w : RegWrite}
    (hi : effectOf i s = .control w) : t.mem = s.mem ∧ (t.takeReturn i.unit).mem = s.mem := by
  obtain ⟨-, rfl⟩ := exec_next_iff.mp h
  rw [hi]
  exact ⟨by simp, (State.takeReturn_mem_control (State.afterEffect_link_same _ _ _)).trans (by simp)⟩

/-- Settles O45: the frame of an XFORM command's return, and of a return without writes. -/
theorem commandsWriteOnlyTheirOutput : Obligations.CommandsWriteOnlyTheirOutput := by
  refine ⟨fun s t u final h => ?_, fun s t u h => ?_, fun s t imm8 h => exec_control_mem h rfl⟩
  · obtain ⟨-, ht⟩ := exec_next_iff.mp h
    obtain ⟨σ, regs, q, he, hused, hout⟩ := effectOf_xformOf u final s
    rw [xformOf_unit, he] at ht
    have hlink : t.link u = .outstanding s.port (dstSteps s.port q.outs) (some (replyOf q)) := by
      rw [ht]
      exact s.afterEffect_link_same u _
    have hmem : t.mem = s.mem := by rw [ht, State.afterEffect_mem]
    have hother : ∀ v, v ≠ u → t.link v = s.link v := fun v hv => by rw [ht, State.afterEffect_link_other _ _ hv]
    refine ⟨q.outs, q.out, replyOf q, rfl, hlink, rfl, hout, hused, hmem, fun k hk => ?_, fun a ha => ?_, fun hapart => ?_⟩
    · obtain hown | ⟨v, hv, hw⟩ := State.takeReturn_read_dst hlink hk
      · exact .inl hown
      · exact .inr ⟨v, hv, hother v hv ▸ hw⟩
    · obtain hsame | ⟨v, hv, hw⟩ := State.takeReturn_read_outside hlink ha
      · exact .inl (hmem ▸ hsame)
      · exact .inr ⟨v, hv, hother v hv ▸ hw⟩
    · rw [State.takeReturn_mem_apart hlink fun v hv => hother v hv ▸ hapart v hv, hmem]
      exact ⟨Memory.readBytes_writeBytes _ _ _, fun a ha => Memory.read_writeBytes_outside _ _ _ _ ha⟩
  · have hunit : (resetOf u).unit = u := by cases u <;> rfl
    obtain ⟨w, hw⟩ : ∃ w, effectOf (resetOf u) s = .control w := by cases u <;> exact ⟨_, rfl⟩
    exact hunit ▸ exec_control_mem h hw

end Sys2Proof.Machine
end

section
/-!
The command words: what each field of a word is, which words the decoder reads and which it rejects, and the step that issues
a command.
-/

namespace Sys2Proof.Machine

/-! ### The fields of a command word (R80) -/

section fields
variable (op : BitVec 4) (final : Bool) (u : UnitId)

@[simp] theorem fieldOp_commandWord : fieldOp (commandWord op final u) = op := by
  cases u <;> cases final <;> revert op <;> decide

@[simp] theorem fieldZ_commandWord : fieldZ (commandWord op final u) = false := by
  cases u <;> cases final <;> revert op <;> decide

@[simp] theorem fieldFinal_commandWord : fieldFinal (commandWord op final u) = final := by
  cases u <;> cases final <;> revert op <;> decide

@[simp] theorem fieldUnit_commandWord : fieldUnit (commandWord op final u) = unitField u := by
  cases u <;> cases final <;> revert op <;> decide
end fields

@[simp] theorem unitOfField_unitField (u : UnitId) : unitOfField (unitField u) = u := by cases u <;> rfl

/-- A word with Z = 0 is put together from its fields. -/
theorem commandWord_fields {w : Byte} (hz : fieldZ w = false) :
    commandWord (fieldOp w) (fieldFinal w) (unitOfField (fieldUnit w)) = w := by
  revert w
  decide

/-! ### What the decoder reads (R80, R85) -/

theorem decode_xform (u : UnitId) (final : Bool) (rest : List Byte) :
    decode (commandWord 1#4 final u :: rest) = .ok (xformOf u final, rest) := by simp [decode]

theorem decode_reset (u : UnitId) (rest : List Byte) :
    decode (commandWord 2#4 false u :: rest) = .ok (resetOf u, rest) := by simp [decode]

theorem decode_setRepl (imm8 : Byte) (rest : List Byte) :
    decode (commandWord 3#4 false .enc :: imm8 :: rest) = .ok (.setRepl imm8, rest) := by simp [decode, unitField]

theorem encode_xformOf (u : UnitId) (final : Bool) : encode (xformOf u final) = [commandWord 1#4 final u] := by
  cases u <;> rfl

theorem encode_resetOf (u : UnitId) : encode (resetOf u) = [commandWord 2#4 false u] := by cases u <;> rfl

/-- Settles O1: the decoder reads back each field of the word. -/
theorem encodedCommandDecodesToItself : Obligations.EncodedCommandDecodesToItself := by
  intro i rest
  cases i with
  | xformDec final => exact decode_xform .dec final rest
  | xformEnc final => exact decode_xform .enc final rest
  | xformPack final => exact decode_xform .pack final rest
  | xformUnpack final => exact decode_xform .unpack final rest
  | resetDec => exact decode_reset .dec rest
  | resetEnc => exact decode_reset .enc rest
  | resetPack => exact decode_reset .pack rest
  | resetUnpack => exact decode_reset .unpack rest
  | setRepl imm8 => exact decode_setRepl imm8 rest

/-- Settles O4: each word is the encoding of the command it names. -/
theorem tableWordsDecodeAsNamed : Obligations.TableWordsDecodeAsNamed :=
  have h (i : Instr) : decode (encode i) = .ok (i, []) := by
    simpa using encodedCommandDecodesToItself i []
  ⟨h (.xformDec true), h (.xformEnc false), h (.xformPack false), h (.xformUnpack true), h .resetDec, h .resetEnc,
    h .resetPack, h .resetUnpack, h (.setRepl 0x20#8)⟩

/-! ### Every word is a command's or reserved (R83) -/

/-- The word is rejected as reserved, for whichever field the decoder looks at first. -/
def RejectsWord (w : Byte) (rest : List Byte) : Prop :=
  ∃ e, decode (w :: rest) = .error e ∧ decodeRefusal e = .reservedCommand

theorem rejectsWord_of_fieldZ {w : Byte} (hz : fieldZ w = true) (rest : List Byte) : RejectsWord w rest := by
  simp only [RejectsWord, decode, hz, if_true]
  split_ifs <;> exact ⟨_, rfl, rfl⟩

theorem rejectsWord_of_op {op : BitVec 4} (h1 : op ≠ 1#4) (h2 : op ≠ 2#4) (h3 : op ≠ 3#4) (final : Bool) (u : UnitId)
    (rest : List Byte) : RejectsWord (commandWord op final u) rest :=
  ⟨.reservedOp, by simp [decode, h1, h2, h3], rfl⟩

theorem rejectsWord_resetFinal (u : UnitId) (rest : List Byte) : RejectsWord (commandWord 2#4 true u) rest :=
  ⟨.reservedFinal, by simp [decode], rfl⟩

theorem rejectsWord_setReplFinal (u : UnitId) (rest : List Byte) : RejectsWord (commandWord 3#4 true u) rest :=
  ⟨.reservedFinal, by simp [decode], rfl⟩

theorem rejectsWord_setReplUnit {u : UnitId} (hu : u ≠ .enc) (rest : List Byte) :
    RejectsWord (commandWord 3#4 false u) rest :=
  ⟨.reservedUnit, by cases u <;> simp_all [decode, unitField], rfl⟩

/-- What a command word can be: one of XFORM, one of RESET, that of SETREPL, or reserved. -/
theorem commandWord_cases (w : Byte) (rest : List Byte) :
    (∃ u final, w = commandWord 1#4 final u) ∨ (∃ u, w = commandWord 2#4 false u) ∨ w = commandWord 3#4 false .enc ∨
      RejectsWord w rest := by
  cases hz : fieldZ w with
  | true => exact .inr (.inr (.inr (rejectsWord_of_fieldZ hz rest)))
  | false =>
    rw [← commandWord_fields hz]
    generalize fieldOp w = op, fieldFinal w = final, unitOfField (fieldUnit w) = u
    by_cases h1 : op = 1#4
    · exact .inl ⟨u, final, by rw [h1]⟩
    by_cases h2 : op = 2#4
    · subst h2
      cases final with
      | false => exact .inr (.inl ⟨u, rfl⟩)
      | true => exact .inr (.inr (.inr (rejectsWord_resetFinal u rest)))
    by_cases h3 : op = 3#4
    · subst h3
      cases final with
      | true => exact .inr (.inr (.inr (rejectsWord_setReplFinal u rest)))
      | false =>
        by_cases hu : u = .enc
        · exact .inr (.inr (.inl (by rw [hu])))
        · exact .inr (.inr (.inr (rejectsWord_setReplUnit hu rest)))
    · exact .inr (.inr (.inr (rejectsWord_of_op h1 h2 h3 final u rest)))

/-- Settles O2: each word that is not reserved is read as the command with that encoding. -/
theorem decodedBytesAreTheEncoding : Obligations.DecodedBytesAreTheEncoding := by
  intro bs i rest h
  cases bs with
  | nil => simp [decode] at h
  | cons w bs =>
    obtain ⟨u, final, rfl⟩ | ⟨u, rfl⟩ | rfl | ⟨e, he, -⟩ := commandWord_cases w bs
    · rw [decode_xform] at h
      cases h
      simp [encode_xformOf]
    · rw [decode_reset] at h
      cases h
      simp [encode_resetOf]
    · cases bs with
      | nil => cases h
      | cons imm8 bs =>
        rw [decode_setRepl] at h
        cases h
        rfl
    · rw [he] at h
      cases h

/-! ### The step that issues a command -/

theorem State.issue_of_decode {s : State} {c : Command} {i : Instr} {rest : List Byte} (h : decode c.bytes = .ok (i, rest)) :
    s.issue c = exec i (s.setPort c.args) := by
  simp [State.issue, h]

theorem State.issue_of_decode_error {s : State} {c : Command} {e : DecodeError} (h : decode c.bytes = .error e) :
    s.issue c = .refused (decodeRefusal e) := by
  simp [State.issue, h]

/-- Settles O5: the host's next event, then the decoder's answer. -/
theorem stepRunsTheIssuedCommand : Obligations.StepRunsTheIssuedCommand := by
  intro s c es i rest hhost hd
  exact (step_of_host hhost).trans (State.issue_of_decode hd)

theorem xform_commandWord_range (u : UnitId) (final : Bool) :
    0x10 ≤ (commandWord 1#4 final u).toNat ∧ (commandWord 1#4 final u).toNat ≤ 0x17 := by
  cases u <;> cases final <;> decide

theorem reset_commandWord_range (u : UnitId) :
    0x20 ≤ (commandWord 2#4 false u).toNat ∧ (commandWord 2#4 false u).toNat ≤ 0x23 := by
  cases u <;> decide

/-- Settles O3: a word the decoder does not reject is one of the thirteen. -/
theorem reservedWordIsRefused : Obligations.ReservedWordIsRefused := by
  intro s w rest args es hhost hw
  obtain ⟨u, final, rfl⟩ | ⟨u, rfl⟩ | rfl | ⟨e, he, hr⟩ := commandWord_cases w rest
  · exact absurd (.inl (xform_commandWord_range u final)) hw
  · exact absurd (.inr (.inl (reset_commandWord_range u))) hw
  · exact absurd (.inr (.inr (by decide))) hw
  · rw [step_of_host hhost, ← hr]
    exact State.issue_of_decode_error he

end Sys2Proof.Machine
end

section
/-!
`Utf8Decode` against the UTF-8 encoding: the well-formed sequences of the table of R88 are the encodings of the scalar
values, and the decoder finds the one its input begins with, or the one it is cut from.
-/

namespace Sys2Proof.Machine

/-! ### Sequences that pass the table of R88 -/

/-- A byte is in its required range. -/
def InRange (q : Byte × Byte) (c : Byte) : Prop := q.1 ≤ c ∧ c ≤ q.2

/-- The code-point bits of a lead byte with those of the bytes after it, six of each. -/
def tailCp (acc : CodePoint) (t : List Byte) : CodePoint :=
  t.foldl (fun acc c => (acc <<< 6) ||| (c &&& 0x3F#8).setWidth 21) acc

/-- `s` is a well-formed sequence for `cp`: a lead byte of the table and, after it, a byte in each range of its row. -/
def Utf8Seq (cp : CodePoint) (s : List Byte) : Prop :=
  ∃ b t acc ranges, s = b :: t ∧ leadRow b = some (acc, ranges) ∧ List.Forall₂ InRange ranges t ∧ tailCp acc t = cp

theorem utf8Tail_cons_of_inRange {q : Byte × Byte} {c : Byte} (h : InRange q c) (ranges : List (Byte × Byte))
    (acc : CodePoint) (n : Nat) (r : List Byte) :
    utf8Tail (q :: ranges) acc n (c :: r) = utf8Tail ranges (tailCp acc [c]) (n + 1) r :=
  if_pos h

theorem utf8Tail_cons_of_not_inRange {q : Byte × Byte} {c : Byte} (h : ¬ InRange q c) (ranges : List (Byte × Byte))
    (acc : CodePoint) (n : Nat) (r : List Byte) : utf8Tail (q :: ranges) acc n (c :: r) = .invalid :=
  if_neg h

/-- The tail is VALID exactly if the input begins with one byte in each range. -/
theorem utf8Tail_valid_iff {ranges : List (Byte × Byte)} {acc cp : CodePoint} {n size : Nat} {r : List Byte} :
    utf8Tail ranges acc n r = .valid cp size ↔
      ∃ t, List.Forall₂ InRange ranges t ∧ tailCp acc t = cp ∧ size = n + t.length ∧ t <+: r := by
  induction ranges generalizing acc n r with
  | nil => simp [utf8Tail, tailCp, eq_comm]
  | cons q ranges ih =>
    cases r with
    | nil => simp [utf8Tail, List.forall₂_cons_left_iff]
    | cons c r =>
      by_cases h : InRange q c
      · rw [utf8Tail_cons_of_inRange h, ih]
        constructor
        · rintro ⟨t, ht, hcp, hsize, hpre⟩
          exact ⟨c :: t, .cons h ht, hcp, by simp; omega, List.cons_prefix_cons.mpr ⟨rfl, hpre⟩⟩
        · rintro ⟨_, _ | ⟨-, ht⟩, hcp, hsize, hpre⟩
          obtain ⟨rfl, htr⟩ := List.cons_prefix_cons.mp hpre
          exact ⟨_, ht, hcp, by simp at hsize; omega, htr⟩
      · rw [utf8Tail_cons_of_not_inRange h]
        refine iff_of_false nofun ?_
        rintro ⟨_, _ | ⟨hc, -⟩, -, -, hpre⟩
        exact h ((List.cons_prefix_cons.mp hpre).1 ▸ hc)

/-- Ranges that are not empty can all be met. -/
theorem exists_forall₂_inRange {ranges : List (Byte × Byte)} (h : ∀ q ∈ ranges, q.1 ≤ q.2) :
    ∃ t, List.Forall₂ InRange ranges t :=
  ⟨ranges.map Prod.fst, by
    rw [List.forall₂_map_right_iff, List.forall₂_same]
    exact fun q hq => ⟨BitVec.le_refl _, h q hq⟩⟩

/-- The tail is INCOMPLETE exactly if the input can be completed, by at least one byte, to one byte in each range. -/
theorem utf8Tail_incomplete_iff {ranges : List (Byte × Byte)} (hne : ∀ q ∈ ranges, q.1 ≤ q.2) {acc : CodePoint}
    {n : Nat} {r : List Byte} :
    utf8Tail ranges acc n r = .incomplete ↔ ∃ t, List.Forall₂ InRange ranges t ∧ r <+: t ∧ r ≠ t := by
  induction ranges generalizing acc n r with
  | nil => simp +contextual [utf8Tail]
  | cons q ranges ih =>
    cases r with
    | nil =>
      obtain ⟨t, ht⟩ := exists_forall₂_inRange hne
      refine iff_of_true rfl ⟨t, ht, List.nil_prefix, ?_⟩
      rintro rfl
      cases ht
    | cons c r =>
      by_cases h : InRange q c
      · rw [utf8Tail_cons_of_inRange h, ih fun p hp => hne p (List.mem_cons_of_mem _ hp)]
        constructor
        · rintro ⟨t, ht, hpre, hrt⟩
          exact ⟨c :: t, .cons h ht, List.cons_prefix_cons.mpr ⟨rfl, hpre⟩, by simpa using hrt⟩
        · rintro ⟨_, _ | ⟨-, ht⟩, hpre, hrt⟩
          obtain ⟨rfl, htr⟩ := List.cons_prefix_cons.mp hpre
          exact ⟨_, ht, htr, by simpa using hrt⟩
      · rw [utf8Tail_cons_of_not_inRange h]
        refine iff_of_false nofun ?_
        rintro ⟨_, _ | ⟨hc, -⟩, hpre, -⟩
        exact h ((List.cons_prefix_cons.mp hpre).1 ▸ hc)

/-- A VALID result is the well-formed sequence the input begins with (R88). -/
theorem utf8Decode_valid_iff {r : List Byte} {cp : CodePoint} {size : Nat} :
    utf8Decode r = .valid cp size ↔ ∃ s, Utf8Seq cp s ∧ size = s.length ∧ s <+: r := by
  cases r with
  | nil => simp [utf8Decode, Utf8Seq]
  | cons b r =>
    rw [utf8Decode]
    constructor
    · intro h
      split at h
      next => cases h
      next acc ranges hb =>
        obtain ⟨t, ht, hcp, hsize, hpre⟩ := utf8Tail_valid_iff.mp h
        exact ⟨b :: t, ⟨b, t, acc, ranges, rfl, hb, ht, hcp⟩, by simp; omega, List.cons_prefix_cons.mpr ⟨rfl, hpre⟩⟩
    · rintro ⟨_, ⟨b', t, acc, ranges, rfl, hb, ht, hcp⟩, hsize, hpre⟩
      obtain ⟨rfl, htr⟩ := List.cons_prefix_cons.mp hpre
      simp only [hb]
      exact utf8Tail_valid_iff.mpr ⟨t, ht, hcp, by simp at hsize; omega, htr⟩

/-- No row of the table asks for a byte that cannot be. -/
theorem leadRow_ranges_nonempty {b : Byte} {acc : CodePoint} {ranges : List (Byte × Byte)}
    (h : leadRow b = some (acc, ranges)) : ∀ q ∈ ranges, q.1 ≤ q.2 := by
  unfold leadRow at h
  split_ifs at h <;> (cases h; simp [contRange])

/-- Input is INCOMPLETE exactly if bytes that are still to come make it a well-formed sequence (R89). -/
theorem utf8Decode_incomplete_iff {r : List Byte} (hr : r ≠ []) :
    utf8Decode r = .incomplete ↔ ∃ cp s, Utf8Seq cp s ∧ r <+: s ∧ r ≠ s := by
  cases r with
  | nil => exact absurd rfl hr
  | cons b r =>
    rw [utf8Decode]
    constructor
    · intro h
      split at h
      next => cases h
      next acc ranges hb =>
        obtain ⟨t, ht, hpre, hrt⟩ := (utf8Tail_incomplete_iff (leadRow_ranges_nonempty hb)).mp h
        exact ⟨_, b :: t, ⟨b, t, acc, ranges, rfl, hb, ht, rfl⟩, List.cons_prefix_cons.mpr ⟨rfl, hpre⟩,
          by simpa using hrt⟩
    · rintro ⟨cp, _, ⟨b', t, acc, ranges, rfl, hb, ht, -⟩, hpre, hrt⟩
      obtain ⟨rfl, htr⟩ := List.cons_prefix_cons.mp hpre
      simp only [hb]
      exact (utf8Tail_incomplete_iff (leadRow_ranges_nonempty hb)).mpr ⟨t, ht, htr, by simpa using hrt⟩

/-! ### The table, the encoding and the scalar values on natural numbers -/

/-- The required range of the second byte in the rows of three and four bytes. -/
def secondRange (b : Byte) : Byte × Byte :=
  (if b = 0xE0#8 then 0xA0#8 else if b = 0xF0#8 then 0x90#8 else 0x80#8,
    if b = 0xED#8 then 0x9F#8 else if b = 0xF4#8 then 0x8F#8 else 0xBF#8)

/-- The table of R88 by the length of its rows. -/
theorem leadRow_eq (b : Byte) : leadRow b =
    if b.toNat < 0x80 then some (BitVec.ofNat 21 b.toNat, [])
    else if b.toNat < 0xC2 then none
    else if b.toNat < 0xE0 then some (BitVec.ofNat 21 (b.toNat - 0xC0), [contRange])
    else if b.toNat < 0xF0 then some (BitVec.ofNat 21 (b.toNat - 0xE0), [secondRange b, contRange])
    else if b.toNat < 0xF5 then some (BitVec.ofNat 21 (b.toNat - 0xF0), [secondRange b, contRange, contRange])
    else none := by
  revert b
  decide

/-- What each row of the table asks for, with the code-point bits of its lead byte. -/
theorem leadRow_eq_some_iff {b : Byte} {acc : CodePoint} {ranges : List (Byte × Byte)} :
    leadRow b = some (acc, ranges) ↔
      (b.toNat < 0x80 ∧ acc.toNat = b.toNat ∧ ranges = []) ∨
      ((0xC2 ≤ b.toNat ∧ b.toNat < 0xE0) ∧ acc.toNat = b.toNat - 0xC0 ∧ ranges = [contRange]) ∨
      ((0xE0 ≤ b.toNat ∧ b.toNat < 0xF0) ∧ acc.toNat = b.toNat - 0xE0 ∧ ranges = [secondRange b, contRange]) ∨
      ((0xF0 ≤ b.toNat ∧ b.toNat < 0xF5) ∧ acc.toNat = b.toNat - 0xF0 ∧
        ranges = [secondRange b, contRange, contRange]) := by
  have hacc {n : Nat} (hn : n < 256) : BitVec.ofNat 21 n = acc ↔ acc.toNat = n := by
    rw [← BitVec.toNat_inj, BitVec.toNat_ofNat, Nat.mod_eq_of_lt (by omega), eq_comm]
  rw [leadRow_eq]
  split_ifs <;> grind

/-- Marking bits and payload bits that lie below them are put together by addition. -/
theorem toNat_or_of_lt {w k m : Nat} {x y : BitVec w} (hx : x.toNat = 2 ^ k * m) (hy : y.toNat < 2 ^ k) :
    (x ||| y).toNat = x.toNat + y.toNat := by
  rw [BitVec.toNat_or, hx, Nat.two_pow_add_eq_or_of_lt hy]

theorem and_low_toNat {w k : Nat} {x m : BitVec w} (hm : m.toNat = 2 ^ k - 1) : (x &&& m).toNat = x.toNat % 2 ^ k := by
  rw [BitVec.toNat_and, hm, Nat.and_two_pow_sub_one_eq_mod]

/-- The continuation byte with the six low bits of `n`. -/
def contByte (n : Nat) : Byte := BitVec.ofNat 8 (0x80 + n % 64)

theorem contByte_toNat (n : Nat) : (contByte n).toNat = 0x80 + n % 64 :=
  Nat.mod_eq_of_lt (by omega)

theorem cont_eq_contByte (x : CodePoint) : 0x80#8 ||| (x.setWidth 8 &&& 0x3F#8) = contByte x.toNat := by
  have hlow : (x.setWidth 8 &&& 0x3F#8).toNat = x.toNat % 64 := by
    rw [and_low_toNat (k := 6) rfl, BitVec.toNat_setWidth]
    omega
  apply BitVec.eq_of_toNat_eq
  rw [toNat_or_of_lt (k := 6) (m := 2) rfl (by omega), hlow, contByte_toNat]
  rfl

/-- The lead byte: its marking bits, then the code point's highest bits. -/
theorem lead_eq_ofNat {k m : Nat} {x : CodePoint} {b : Byte} (hb : b.toNat = 2 ^ k * m) (hk : k ≤ 8)
    (hx : x.toNat < 2 ^ k) : b ||| x.setWidth 8 = BitVec.ofNat 8 (b.toNat + x.toNat) := by
  have h8 : (x.setWidth 8).toNat = x.toNat := by
    rw [BitVec.toNat_setWidth, Nat.mod_eq_of_lt (hx.trans_le (Nat.pow_le_pow_right two_pos hk))]
  apply BitVec.eq_of_toNat_eq
  rw [toNat_or_of_lt hb (by omega), BitVec.toNat_ofNat, h8, Nat.mod_eq_of_lt]
  rw [← h8, ← toNat_or_of_lt hb (by omega)]
  exact BitVec.isLt _

/-- The encoding with its bytes as sums of marking bits and base-64 digits of the code point. -/
theorem utf8Bytes_eq (cp : CodePoint) : utf8Bytes cp =
    if cp.toNat < 0x80 then [BitVec.ofNat 8 cp.toNat]
    else if cp.toNat < 0x800 then [BitVec.ofNat 8 (0xC0 + cp.toNat / 64), contByte cp.toNat]
    else if cp.toNat < 0x10000 then
      [BitVec.ofNat 8 (0xE0 + cp.toNat / 4096), contByte (cp.toNat / 64), contByte cp.toNat]
    else [BitVec.ofNat 8 (0xF0 + cp.toNat / 262144), contByte (cp.toNat / 4096), contByte (cp.toNat / 64),
      contByte cp.toNat] := by
  have hcp := cp.isLt
  have hshift (k : Nat) : (cp >>> k).toNat = cp.toNat / 2 ^ k := by
    rw [BitVec.toNat_ushiftRight, Nat.shiftRight_eq_div_pow]
  have h6 := hshift 6
  have h12 := hshift 12
  have h18 := hshift 18
  have le_iff (n : Nat) (hn : n < 2 ^ 21) : cp ≤ BitVec.ofNat 21 n ↔ cp.toNat < n + 1 := by
    rw [BitVec.le_def, BitVec.toNat_ofNat, Nat.mod_eq_of_lt hn, Nat.lt_succ_iff]
  simp only [utf8Bytes, cont_eq_contByte, le_iff 0x7F (by decide), le_iff 0x7FF (by decide),
    le_iff 0xFFFF (by decide), h6, h12]
  split_ifs
  · exact congrArg (· :: []) (BitVec.eq_of_toNat_eq (by simp))
  · rw [lead_eq_ofNat (k := 5) (m := 6) rfl (by omega) (by omega), h6]
    rfl
  · rw [lead_eq_ofNat (k := 4) (m := 14) rfl (by omega) (by omega), h12]
    rfl
  · rw [lead_eq_ofNat (k := 3) (m := 30) rfl (by omega) (by omega), h18]
    rfl

theorem ofNat_eq_byte_iff {n : Nat} (hn : n < 256) {b : Byte} : BitVec.ofNat 8 n = b ↔ b.toNat = n := by
  rw [← BitVec.toNat_inj, BitVec.toNat_ofNat, Nat.mod_eq_of_lt hn, eq_comm]

theorem contByte_eq_iff {n : Nat} {c : Byte} : contByte n = c ↔ c.toNat = 0x80 + n % 64 :=
  ofNat_eq_byte_iff (by omega)

/-! The code point of a lead byte's bits with one, two and three bytes after it. -/

theorem tailCp_one_toNat {acc : CodePoint} (h : acc.toNat < 2 ^ 15) (c : Byte) :
    (tailCp acc [c]).toNat = acc.toNat * 64 + c.toNat % 64 := by
  have hlow : ((c &&& 0x3F#8).setWidth 21).toNat = c.toNat % 64 := by
    rw [BitVec.toNat_setWidth, and_low_toNat (k := 6) rfl]
    omega
  have hshift : (acc <<< 6).toNat = 2 ^ 6 * acc.toNat := by
    rw [BitVec.toNat_shiftLeft, Nat.shiftLeft_eq]
    omega
  have hor : (tailCp acc [c]).toNat = (acc <<< 6).toNat + ((c &&& 0x3F#8).setWidth 21).toNat :=
    toNat_or_of_lt hshift (by omega)
  omega

theorem tailCp_two_toNat {acc : CodePoint} (h : acc.toNat < 2 ^ 9) (c d : Byte) :
    (tailCp acc [c, d]).toNat = acc.toNat * 4096 + c.toNat % 64 * 64 + d.toNat % 64 := by
  have h1 := tailCp_one_toNat (acc := acc) (by omega) c
  have h2 := tailCp_one_toNat (acc := tailCp acc [c]) (by omega) d
  exact h2.trans (by omega)

theorem tailCp_three_toNat {acc : CodePoint} (h : acc.toNat < 2 ^ 3) (c d e : Byte) :
    (tailCp acc [c, d, e]).toNat =
      acc.toNat * 262144 + c.toNat % 64 * 4096 + d.toNat % 64 * 64 + e.toNat % 64 := by
  have h1 := tailCp_two_toNat (acc := acc) (by omega) c d
  have h2 := tailCp_one_toNat (acc := tailCp acc [c, d]) (by omega) e
  exact h2.trans (by omega)

theorem scalarValue_iff (cp : CodePoint) :
    scalarValue cp = true ↔ cp.toNat ≤ 0x10FFFF ∧ (cp.toNat < 0xD800 ∨ 0xDFFF < cp.toNat) := by
  simp [scalarValue, BitVec.le_def]

theorem inRange_contRange {c : Byte} : InRange contRange c ↔ 0x80 ≤ c.toNat ∧ c.toNat ≤ 0xBF := Iff.rfl

theorem inRange_secondRange {b c : Byte} : InRange (secondRange b) c ↔
    (0x80 ≤ c.toNat ∧ c.toNat ≤ 0xBF) ∧ (b.toNat = 0xE0 → 0xA0 ≤ c.toNat) ∧ (b.toNat = 0xF0 → 0x90 ≤ c.toNat) ∧
      (b.toNat = 0xED → c.toNat ≤ 0x9F) ∧ (b.toNat = 0xF4 → c.toNat ≤ 0x8F) := by
  simp only [InRange, secondRange, BitVec.le_def, ← BitVec.toNat_inj, apply_ite BitVec.toNat, BitVec.toNat_ofNat]
  split_ifs <;> omega

/-! ### The two are the same: each row of the table, and each range of the encoding -/

/-- Each row of the table holds only scalar values' encodings (R88). -/
theorem Utf8Seq.isEncoding {cp : CodePoint} {s : List Byte} (h : Utf8Seq cp s) :
    scalarValue cp = true ∧ utf8Bytes cp = s := by
  obtain ⟨b, t, acc, ranges, rfl, hb, ht, rfl⟩ := h
  rw [scalarValue_iff, utf8Bytes_eq]
  obtain ⟨hb, hacc, rfl⟩ | ⟨hb, hacc, rfl⟩ | ⟨hb, hacc, rfl⟩ | ⟨hb, hacc, rfl⟩ := leadRow_eq_some_iff.mp hb
  · cases ht
    have hn : (tailCp acc []).toNat = b.toNat := hacc
    rw [if_pos (by omega), List.singleton_inj, ofNat_eq_byte_iff (by omega)]
    omega
  · obtain _ | ⟨hc, _ | _⟩ := ht
    rw [inRange_contRange] at hc
    rename_i c
    have hn := tailCp_one_toNat (acc := acc) (by omega) c
    rw [if_neg (by omega), if_pos (by omega), List.cons_eq_cons, ofNat_eq_byte_iff (by omega),
      List.singleton_inj, contByte_eq_iff]
    omega
  · obtain _ | ⟨hc, _ | ⟨hd, _ | _⟩⟩ := ht
    rw [inRange_secondRange] at hc
    rw [inRange_contRange] at hd
    rename_i c d
    have hn := tailCp_two_toNat (acc := acc) (by omega) c d
    rw [if_neg (by omega), if_neg (by omega), if_pos (by omega), List.cons_eq_cons, ofNat_eq_byte_iff (by omega),
      List.cons_eq_cons, contByte_eq_iff, List.singleton_inj, contByte_eq_iff]
    omega
  · obtain _ | ⟨hc, _ | ⟨hd, _ | ⟨he, _ | _⟩⟩⟩ := ht
    rw [inRange_secondRange] at hc
    rw [inRange_contRange] at hd he
    rename_i c d e
    have hn := tailCp_three_toNat (acc := acc) (by omega) c d e
    rw [if_neg (by omega), if_neg (by omega), if_neg (by omega), List.cons_eq_cons, ofNat_eq_byte_iff (by omega),
      List.cons_eq_cons, contByte_eq_iff, List.cons_eq_cons, contByte_eq_iff, List.singleton_inj, contByte_eq_iff]
    omega

/-- The encoding of a scalar value falls in a row of the table (R88). -/
theorem utf8Seq_utf8Bytes {cp : CodePoint} (h : scalarValue cp = true) : Utf8Seq cp (utf8Bytes cp) := by
  rw [scalarValue_iff] at h
  rw [utf8Bytes_eq]
  have hlead {n : Nat} (hn : n < 256) : (BitVec.ofNat 8 n).toNat = n := Nat.mod_eq_of_lt hn
  have hbits {n : Nat} (hn : n < 256) : (BitVec.ofNat 21 n).toNat = n := Nat.mod_eq_of_lt (by omega)
  split_ifs
  · have hb := hlead (n := cp.toNat) (by omega)
    exact ⟨_, [], cp, [], rfl, leadRow_eq_some_iff.mpr (.inl ⟨by omega, by omega, rfl⟩), .nil, rfl⟩
  · have hb := hlead (n := 0xC0 + cp.toNat / 64) (by omega)
    have hc := contByte_toNat cp.toNat
    have hacc := hbits (n := cp.toNat / 64) (by omega)
    refine ⟨_, _, BitVec.ofNat 21 (cp.toNat / 64), _, rfl,
      leadRow_eq_some_iff.mpr (.inr (.inl ⟨by omega, by omega, rfl⟩)),
      .cons (inRange_contRange.mpr (by omega)) .nil, BitVec.eq_of_toNat_eq ?_⟩
    rw [tailCp_one_toNat (by omega)]
    omega
  · have hb := hlead (n := 0xE0 + cp.toNat / 4096) (by omega)
    have hc := contByte_toNat (cp.toNat / 64)
    have hd := contByte_toNat cp.toNat
    have hacc := hbits (n := cp.toNat / 4096) (by omega)
    refine ⟨_, _, BitVec.ofNat 21 (cp.toNat / 4096), _, rfl,
      leadRow_eq_some_iff.mpr (.inr (.inr (.inl ⟨by omega, by omega, rfl⟩))),
      .cons (inRange_secondRange.mpr (by omega)) (.cons (inRange_contRange.mpr (by omega)) .nil),
      BitVec.eq_of_toNat_eq ?_⟩
    rw [tailCp_two_toNat (by omega)]
    omega
  · have hb := hlead (n := 0xF0 + cp.toNat / 262144) (by omega)
    have hc := contByte_toNat (cp.toNat / 4096)
    have hd := contByte_toNat (cp.toNat / 64)
    have he := contByte_toNat cp.toNat
    have hacc := hbits (n := cp.toNat / 262144) (by omega)
    refine ⟨_, _, BitVec.ofNat 21 (cp.toNat / 262144), _, rfl,
      leadRow_eq_some_iff.mpr (.inr (.inr (.inr ⟨by omega, by omega, rfl⟩))),
      .cons (inRange_secondRange.mpr (by omega)) (.cons (inRange_contRange.mpr (by omega))
        (.cons (inRange_contRange.mpr (by omega)) .nil)), BitVec.eq_of_toNat_eq ?_⟩
    rw [tailCp_three_toNat (by omega)]
    omega

theorem utf8Seq_iff {cp : CodePoint} {s : List Byte} : Utf8Seq cp s ↔ scalarValue cp = true ∧ utf8Bytes cp = s :=
  ⟨Utf8Seq.isEncoding, fun ⟨h, hs⟩ => hs ▸ utf8Seq_utf8Bytes h⟩

/-- Settles O38: a VALID result is the well-formed sequence the input begins with. -/
theorem utf8ValidIsWellFormed : Obligations.Utf8ValidIsWellFormed := by
  intro r cp size
  simp only [utf8Decode_valid_iff, utf8Seq_iff, and_assoc, exists_and_left, exists_eq_left']

/-- Settles O39: INCOMPLETE input is a well-formed sequence cut short. -/
theorem utf8IncompleteIsProperPrefix : Obligations.Utf8IncompleteIsProperPrefix := by
  intro r hr
  simp only [utf8Decode_incomplete_iff hr, utf8Seq_iff, and_assoc, exists_and_left, exists_eq_left']

end Sys2Proof.Machine
end

section
/-!
Power-on and RESET, the absence of faults, XFORM commands on an empty SRC, and what FINAL changes.
-/

namespace Sys2Proof.Machine

/-! ### Power-on and RESET (R118, R291) -/

/-- Settles O8: some of the writes outstanding are done, none if there is none; then every register is reset. -/
theorem powerOnSetsEveryRegister : Obligations.PowerOnSetsEveryRegister := by
  refine ⟨fun s es hhost => ?_, fun s es hhost hquiet => ?_⟩
  · obtain ⟨done, p, hp, he⟩ := State.powerOn_spec (s.setHost es)
    exact ⟨done, p, hp, (step_of_host hhost).trans (congrArg Host.Outcome.next he)⟩
  · exact (step_of_host hhost).trans (congrArg Host.Outcome.next (State.powerOn_quiet (s := s.setHost es) hquiet))

/-- Settles O9: on an idle unit a command without regions runs. -/
theorem resetCommandsComplete : Obligations.ResetCommandsComplete :=
  ⟨fun _ h => State.control_idle (f := id) h, fun _ h => State.control_idle (f := id) h,
    fun _ h => State.control_idle (f := (State.setPackCur · 1#3)) h,
    fun _ h => State.control_idle (f := (State.setUnpk · 1#3 0#7 false)) h⟩

/-! ### No faults (R117, R263) -/

theorem State.control_no_fault {s : State} {u : UnitId} {g : State → State} (f : Fault) : s.control u g ≠ .fault f := by
  unfold State.control
  split <;> nofun

/-- Settles O47: only a run beyond its bound faults, and no unit's run gets there. -/
theorem commandsNeverFault : Obligations.CommandsNeverFault := by
  intro i s f
  cases i with
  | xformDec final => exact State.xform_no_fault (put := fun t _ => t) (decPick_bounded s.rom final) f
  | xformEnc final => exact State.xform_no_fault (put := fun t _ => t) (encPick_bounded s.rom s.encRepl final) f
  | xformPack final => exact State.xform_no_fault (put := .setPackCur) (packPick_bounded final) f
  | xformUnpack _ => exact State.xform_no_fault (put := .putUnpk) unpackPick_bounded f
  | resetDec => exact State.control_no_fault (g := id) f
  | resetEnc => exact State.control_no_fault (g := id) f
  | resetPack => exact State.control_no_fault (g := (State.setPackCur · 1#3)) f
  | resetUnpack => exact State.control_no_fault (g := (State.setUnpk · 1#3 0#7 false)) f
  | setRepl imm8 => exact State.control_no_fault (g := (State.setEncRepl · (replacementOf imm8))) f

/-! ### Commands on an empty SRC (R123) -/

section run
variable {σ : Type} {pick : σ → Nat → List Byte → Pick σ} {s : State} {u : UnitId} {r : σ} {put : State → σ → State}

/-- What an accepted XFORM command with this run leaves. -/
theorem State.xform_of_run {q : Run σ} (hp : PickBounded pick) (ha : s.Accepts u)
    (hrun : runUnit pick r s.port.dcap s.srcBytes = q) (hstop : q.stop ≠ .refuse)
    (hk : s.KeepsSrc (dstCells s.port q.out)) : s.xform u pick r put = .next (s.afterXform u put q) := by
  subst hrun
  exact State.xform_accepted hp ha hstop hk

/-- An accepted XFORM command that selects no step returns (0, 0, OK) and writes nothing (R114). -/
theorem State.xform_idle (hp : PickBounded pick) (ha : s.Accepts u) (h : pick r s.port.dcap s.srcBytes = .idle) :
    s.xform u pick r put = .next ((put s r).endCommand u s.port [] (some ⟨0, 0, .ok⟩)) :=
  State.xform_of_run hp ha (runUnit_idle h) nofun s.keepsSrc_nil

end run

theorem State.srcBytes_eq_nil {s : State} (h : s.port.slen = 0) : s.srcBytes = [] :=
  List.length_eq_zero_iff.mp (s.srcBytes_length.trans h)

theorem unpackPick_exhausted {r : UnpkRegs} (h : r.pend = false) (room : Nat) : unpackPick r room [] = .idle := by
  simp [unpackPick, h]

theorem unpackPick_pend_full {r : UnpkRegs} (h : r.pend = true) (src : List Byte) : unpackPick r 0 src = .full := by
  simp [unpackPick, h]

/-- The flush of a pending septet (R222). -/
theorem unpackPick_pend {r : UnpkRegs} (h : r.pend = true) {room : Nat} (hroom : room ≠ 0) (src : List Byte) :
    unpackPick r room src = .commit 0 [looseByte r.carry] ⟨1#3, 0#7, false⟩ := by
  simp [unpackPick, h, hroom]

/-- With a pending septet and no input, the unpacker's run is the flush. -/
theorem unpackRun_flush {r : UnpkRegs} (h : r.pend = true) {room : Nat} (hroom : room ≠ 0) :
    runUnit unpackPick r room [] = ⟨0, [[looseByte r.carry]], ⟨1#3, 0#7, false⟩, .ok⟩ := by
  rw [runUnit_after unpackPick_bounded (unpackPick_pend h hroom []), List.drop_nil,
    runUnit_idle (unpackPick_exhausted (by rfl) _)]
  rfl

theorem looseByte_eq_ofNat (v : Septet) : looseByte v = BitVec.ofNat 8 v.toNat := (BitVec.ofNat_toNat 8 v).symm

/-- No unit that has nothing pending selects a step without input. -/
theorem exec_xformOf_exhausted {s : State} {u : UnitId} (final : Bool) (ha : s.Accepts u) (hsrc : s.srcBytes = [])
    (hpend : u = .unpack → s.unpkPend = false) :
    exec (xformOf u final) s = .next (s.endCommand u s.port [] (some ⟨0, 0, .ok⟩)) := by
  cases u with
  | dec => exact State.xform_idle (put := fun t _ => t) (decPick_bounded s.rom final) ha (by rw [hsrc]; rfl)
  | enc => exact State.xform_idle (put := fun t _ => t) (encPick_bounded s.rom s.encRepl final) ha (by rw [hsrc]; rfl)
  | pack => exact State.xform_idle (put := .setPackCur) (packPick_bounded final) ha (by rw [hsrc]; rfl)
  | unpack =>
    exact State.xform_idle (put := .putUnpk) unpackPick_bounded ha
      (by rw [hsrc]; exact unpackPick_exhausted (hpend rfl) _)

/-- Settles O40: exhausted input, no room for a pending septet, or its flush. -/
theorem emptySourceCommands : Obligations.EmptySourceCommands := by
  refine ⟨fun s u final ha hlen hpend => ?_, fun s final ha hlen hpend hroom => ?_,
    fun s final ha hlen hpend hroom hk => ?_⟩
  · exact exec_xformOf_exhausted final ha (State.srcBytes_eq_nil hlen) hpend
  · have hpick : unpackPick s.unpk s.port.dcap s.srcBytes = .full := by
      rw [hroom]
      exact unpackPick_pend_full hpend _
    exact State.xform_of_run (put := .putUnpk) unpackPick_bounded ha (runUnit_full hpick) nofun s.keepsSrc_nil
  · have hrun : runUnit unpackPick s.unpk s.port.dcap s.srcBytes =
        ⟨0, [[BitVec.ofNat 8 s.unpkCarry.toNat]], ⟨1#3, 0#7, false⟩, .ok⟩ := by
      rw [State.srcBytes_eq_nil hlen, unpackRun_flush hpend (Nat.ne_of_gt hroom), looseByte_eq_ofNat]
      rfl
    exact State.xform_of_run (put := .putUnpk) unpackPick_bounded ha hrun nofun hk

/-! ### FINAL (R116, R225) -/

/-- `pick'` does what `pick` does, but where `pick` holds input. -/
def ReleasesHolds {σ : Type} (pick pick' : σ → Nat → List Byte → Pick σ) : Prop :=
  ∀ r room src, pick' r room src = pick r room src ∨ pick r room src = .idle ∧ src ≠ []

theorem decPick_releasesHolds (t : Tables) : ReleasesHolds (decPick t false) (decPick t true) := by
  intro r room src
  match src with
  | [] => exact .inl rfl
  | _ :: _ :: _ => exact .inl rfl
  | [c] =>
    by_cases hc : c = Config.esc
    · exact .inr ⟨by simp [decPick, hc], nofun⟩
    · exact .inl (by simp [decPick, hc])

theorem encPick_releasesHolds (t : Tables) (repl : Byte) : ReleasesHolds (encPick t repl false) (encPick t repl true) := by
  intro r room src
  match src with
  | [] => exact .inl rfl
  | b :: rest =>
    by_cases hroom : room < 2
    · exact .inl (by simp [encPick, hroom])
    · cases hd : utf8Decode (b :: rest) with
      | incomplete => exact .inr ⟨by simp [encPick, hroom, hd], nofun⟩
      | invalid => exact .inl (by simp [encPick, hd])
      | valid cp size => exact .inl (by simp [encPick, hd])

theorem packPick_releasesHolds : ReleasesHolds (packPick false) (packPick true) := by
  intro r room src
  match src with
  | [] => exact .inl rfl
  | [_] => exact .inr ⟨rfl, nofun⟩
  | _ :: _ :: _ => exact .inl rfl

/-- A run that ends otherwise than with OK, or with no input left, met no hold: it is the run of the other function too. -/
theorem runSteps_eq_of_releasesHolds {σ : Type} {pick pick' : σ → Nat → List Byte → Pick σ} (h : ReleasesHolds pick pick')
    (n : Nat) (r : σ) (room : Nat) (src : List Byte)
    (hend : (runSteps pick n r room src).stop ≠ .ok ∨ (runSteps pick n r room src).used = src.length) :
    runSteps pick' n r room src = runSteps pick n r room src := by
  induction n generalizing r room src with
  | zero => rfl
  | succ n ih =>
    rcases h r room src with hsame | ⟨hidle, hne⟩
    · cases hc : pick r room src with
      | idle => rw [runSteps_idle hc, runSteps_idle (hsame.trans hc)]
      | full => rw [runSteps_full hc, runSteps_full (hsame.trans hc)]
      | refuse => rw [runSteps_refuse hc, runSteps_refuse (hsame.trans hc)]
      | commit used out r' =>
        rw [runSteps_commit hc] at hend
        have hrest := ih r' (room - out.length) (src.drop used)
          (hend.imp_right fun hused => by simp only [List.length_drop] at hused ⊢; omega)
        rw [runSteps_commit hc, runSteps_commit (hsame.trans hc), hrest]
    · rw [runSteps_idle hidle] at hend
      exact absurd (List.length_eq_zero_iff.mp (hend.resolve_left fun hstop => hstop rfl).symm) hne

/-- The results of a command that held nothing: DestinationFull, or all its input consumed. -/
def Reply.HeldNothing (r : Reply) (slen : Nat) : Prop := r.status = .destinationFull ∨ r.nsrc = slen

theorem runUnit_eq_of_heldNothing {σ : Type} {pick pick' : σ → Nat → List Byte → Pick σ} (h : ReleasesHolds pick pick')
    {r : σ} {dcap : Nat} {src : List Byte} (hr : (replyOf (runUnit pick r dcap src)).HeldNothing src.length) :
    runUnit pick' r dcap src = runUnit pick r dcap src :=
  runSteps_eq_of_releasesHolds h _ r dcap src (hr.imp_left fun hfull hok => by simp [replyOf, runUnit, hok] at hfull)

/-- Without a hold the effect of a command is the same with FINAL. -/
theorem effectOf_final_of_heldNothing {u : UnitId} {s : State} {r : Reply}
    (hreply : (effectOf (xformOf u false) s).reply = some r) (hr : r.HeldNothing s.port.slen) :
    effectOf (xformOf u true) s = effectOf (xformOf u false) s := by
  rw [← s.srcBytes_length] at hr
  cases u with
  | dec =>
    cases hreply
    exact congrArg (Effect.ofRun s fun _ => .none) (runUnit_eq_of_heldNothing (decPick_releasesHolds s.rom) hr)
  | enc =>
    cases hreply
    exact congrArg (Effect.ofRun s fun _ => .none) (runUnit_eq_of_heldNothing (encPick_releasesHolds s.rom s.encRepl) hr)
  | pack =>
    cases hreply
    exact congrArg (Effect.ofRun s .packCur) (runUnit_eq_of_heldNothing packPick_releasesHolds hr)
  | unpack => rfl

/-- Settles O41: the effect without a hold does not depend on FINAL, and the unpacker does not look at it. -/
theorem finalOnlyReleasesHolds : Obligations.FinalOnlyReleasesHolds := by
  refine ⟨fun s t u w r h hlink hr => ?_, fun _ => rfl⟩
  obtain ⟨hadmits, ht⟩ := exec_next_iff.mp h
  rw [xformOf_unit] at hadmits ht
  rw [ht, State.afterEffect_link_same] at hlink
  obtain ⟨-, -, hreply⟩ := Link.outstanding.inj hlink
  have heff := effectOf_final_of_heldNothing hreply hr
  refine exec_next_iff.mpr ?_
  rw [xformOf_unit, heff]
  exact ⟨hadmits, ht⟩

end Sys2Proof.Machine
end

section
/-!
The decoder: what one iteration of its loop does with each kind of input, and the runs that follow from it; and that an XFORM
command of any unit returns, writes and leaves in its unit what its run says, wherever its regions lie.
-/

namespace Sys2Proof.Machine

/-! ### One iteration of the decoder's loop (R140 to R146) -/

/-- Bit 7 tells the bytes without a base entry (R30, R146). -/
theorem getLsbD_seven_iff {c : Byte} : c.getLsbD 7 = true ↔ 0x80 ≤ c.toNat := by
  have hmsb : c.getLsbD 7 = c.msb := (BitVec.msb_eq_getLsbD_last c).symm
  rw [hmsb, BitVec.msb_eq_decide, decide_eq_true_iff]

section pick
variable {t : Tables} {final : Bool} {room : Nat} {b c : Byte} {rest : List Byte}

/-- R141: a seven-bit code other than the escape code selects its base entry. -/
theorem decPick_base (hesc : c ≠ Config.esc) (hlow : c.toNat < 0x80) :
    decPick t final () room (c :: rest) = emitEntry (baseDecAt t (c.setWidth 7)) 1 room :=
  (if_neg hesc).trans (if_neg (mt getLsbD_seven_iff.mp (Nat.not_le.mpr hlow)))

/-- R146: the base table has no entry for a byte of 0x80 or above. -/
theorem decPick_high (hhigh : 0x80 ≤ c.toNat) : decPick t final () room (c :: rest) = .refuse := by
  have hesc : c ≠ Config.esc := by
    rintro rfl
    exact absurd hhigh (by decide)
  exact (if_neg hesc).trans (if_pos (getLsbD_seven_iff.mpr hhigh))

/-- R142: the escape code and a byte that hits in ESCDEC select that entry. -/
theorem decPick_hit {e : DecodeEntry} (h : escDecAt t b = some e) :
    decPick t final () room (Config.esc :: b :: rest) = emitEntry e 2 room := by
  simp [decPick, h]

/-- R143: if the byte misses, the base entry of the escape code is selected, for one byte. -/
theorem decPick_miss (h : escDecAt t b = none) :
    decPick t final () room (Config.esc :: b :: rest) = emitEntry (baseDecAt t (Config.esc.setWidth 7)) 1 room := by
  simp [decPick, h]

/-- R144: a trailing escape code waits for the next chunk. -/
theorem decPick_held : decPick t false () room [Config.esc] = .idle := rfl

/-- R144: on the final chunk a trailing escape code selects its own base entry. -/
theorem decPick_trailing :
    decPick t true () room [Config.esc] = emitEntry (baseDecAt t (Config.esc.setWidth 7)) 1 room := rfl

end pick

theorem emitEntry_fits {e : DecodeEntry} {room : Nat} (adv : Nat) (h : (entryBytes e).length ≤ room) :
    emitEntry e adv room = .commit adv (entryBytes e) () :=
  if_neg (Nat.not_lt.mpr h)

theorem emitEntry_full {e : DecodeEntry} {room : Nat} (adv : Nat) (h : room < (entryBytes e).length) :
    emitEntry e adv room = .full :=
  if_pos h

/-- R141 for a septet as a byte, the form in which the base table is indexed. -/
theorem decPick_septet {t : Tables} {final : Bool} {room : Nat} {c : Septet} {rest : List Byte} (h : c.setWidth 8 ≠ 0x1B#8) :
    decPick t final () room (c.setWidth 8 :: rest) = emitEntry (baseDecAt t c) 1 room := by
  have hlow : (c.setWidth 8).toNat < 0x80 := by
    rw [BitVec.toNat_setWidth_of_le (by decide)]
    exact c.isLt
  have hback : (c.setWidth 8).setWidth 7 = c := by simp
  rw [decPick_base h hlow, hback]

/-! ### Runs of the decoder from their first unit -/

section run
variable {t : Tables} {final : Bool} {dcap adv : Nat} {src : List Byte} {e : DecodeEntry}

/-- A selected entry that fits is written, and the run goes on behind the unit (R112). -/
theorem decRun_fits (hpick : decPick t final () dcap src = emitEntry e adv dcap) (h : (entryBytes e).length ≤ dcap) :
    runUnit (decPick t final) () dcap src =
      Run.after adv (entryBytes e) (runUnit (decPick t final) () (dcap - (entryBytes e).length) (src.drop adv)) :=
  runUnit_after (decPick_bounded t final) (hpick.trans (emitEntry_fits adv h))

/-- A selected entry that does not fit ends the run (R145). -/
theorem decRun_full (hpick : decPick t final () dcap src = emitEntry e adv dcap) (h : dcap < (entryBytes e).length) :
    runUnit (decPick t final) () dcap src = ⟨0, [], (), .destinationFull⟩ :=
  runUnit_full (hpick.trans (emitEntry_full adv h))

end run

/-- Settles O27: a base code selects its base entry. -/
theorem decodeBaseStep : Obligations.DecodeBaseStep := fun _ _ _ _ _ hc hroom =>
  decRun_fits (decPick_septet hc) hroom

/-- Settles O28: a hit selects the entry of ESCDEC. -/
theorem decodeEscapeHitStep : Obligations.DecodeEscapeHitStep := fun _ _ _ _ _ _ hb hroom =>
  decRun_fits (decPick_hit hb) hroom

/-- Settles O29: a miss selects the entry of the escape code, and leaves the second byte. -/
theorem decodeEscapeMissStep : Obligations.DecodeEscapeMissStep := fun _ _ _ _ _ hb hroom =>
  decRun_fits (decPick_miss hb) hroom

/-- Settles O30: behind the escape code decoded alone the input is exhausted. -/
theorem decodeTrailingEscape : Obligations.DecodeTrailingEscape := by
  refine fun t dcap => ⟨runUnit_idle decPick_held, fun hroom => ?_⟩
  exact (decRun_fits decPick_trailing hroom).trans (congrArg (Run.after 1 _) (runUnit_idle rfl))

/-- Settles O31: the four ways to select an entry, and no input. -/
theorem decodeStops : Obligations.DecodeStops :=
  ⟨fun _ _ _ _ _ hc hfull => decRun_full (decPick_septet hc) hfull,
    fun _ _ _ _ _ _ hb hfull => decRun_full (decPick_hit hb) hfull,
    fun _ _ _ _ _ hb hfull => decRun_full (decPick_miss hb) hfull,
    fun _ _ hfull => decRun_full decPick_trailing hfull,
    fun _ _ _ => runUnit_idle rfl⟩

/-! ### A byte of 0x80 or above at the base lookup (R146) -/

/-- Base codes with three bytes of room each are decoded: the run ends as the run on the input behind them does, with the room
that is left. -/
theorem decRun_stop_after_base (t : Tables) (final : Bool) (pre tail : List Byte) (room : Nat)
    (hpre : ∀ b ∈ pre, b.toNat < 0x80 ∧ b ≠ Config.esc) (hroom : 3 * pre.length ≤ room) :
    ∃ left, room ≤ left + 3 * pre.length ∧ (runUnit (decPick t final) () room (pre ++ tail)).stop =
      (runUnit (decPick t final) () left tail).stop := by
  induction pre generalizing room with
  | nil => exact ⟨room, Nat.le_add_right _ _, rfl⟩
  | cons b pre ih =>
    obtain ⟨hb, hpre⟩ := List.forall_mem_cons.mp hpre
    obtain ⟨hlow, hesc⟩ := hb
    have hlen := (entryBytes_length (baseDecAt t (b.setWidth 7))).2
    rw [List.length_cons] at hroom ⊢
    obtain ⟨left, hleft, hstop⟩ := ih (room - (entryBytes (baseDecAt t (b.setWidth 7))).length) hpre (by omega)
    refine ⟨left, by omega, ?_⟩
    rw [List.cons_append, decRun_fits (decPick_base hesc hlow) (by omega)]
    exact hstop

/-- Settles O15: the run gets through the base codes and the escape code that misses, and stops at the byte. -/
theorem decoderRefusesByteAtBaseLookup : Obligations.DecoderRefusesByteAtBaseLookup := by
  intro s final pre post c ha hpre hc
  have hbyte : ∀ room, (runUnit (decPick s.rom final) () room (c :: post)).stop = .refuse := fun room => by
    rw [runUnit_refuse (decPick_high hc)]
  refine ⟨fun hsrc hroom => ?_, fun hsrc hmiss hroom => ?_⟩
  · obtain ⟨left, -, hstop⟩ := decRun_stop_after_base s.rom final pre (c :: post) s.port.dcap hpre hroom
    exact State.xform_refused (put := fun t _ => t) ha (hsrc ▸ hstop.trans (hbyte left))
  · obtain ⟨left, hleft, hstop⟩ :=
      decRun_stop_after_base s.rom final pre (Config.esc :: c :: post) s.port.dcap hpre (by omega)
    have hlen := (entryBytes_length (baseDecAt s.rom (Config.esc.setWidth 7))).2
    rw [decRun_fits (decPick_miss hmiss) (by omega)] at hstop
    exact State.xform_refused (put := fun t _ => t) ha (hsrc ▸ hstop.trans (hbyte _))

/-! ### What the results of a command depend on (R39, R148, R176) -/

/-- The bytes of the writes, step by step, do not depend on where DST lies. -/
theorem stepCells_bytes (a : Nat) (outs : List (List Byte)) : (stepCells a outs).map (List.map Prod.snd) = outs := by
  induction outs generalizing a with
  | nil => rfl
  | cons bs outs ih => simp [stepCells, ih]

theorem dstSteps_bytes (o : Operands) (outs : List (List Byte)) : (dstSteps o outs).map (List.map Prod.snd) = outs :=
  stepCells_bytes _ _

/-- On equal own registers and tables, room and input, the effects of an XFORM command in two states come from one run. -/
theorem effectOf_xformOf_sameRun {s s' : State} {u : UnitId} (final : Bool) (hu : sameUnit u s s')
    (hroom : s.port.dcap = s'.port.dcap) (hsrc : s.srcBytes = s'.srcBytes) :
    ∃ (σ : Type) (regs : σ → RegWrite) (q : Run σ),
      effectOf (xformOf u final) s = .ofRun s regs q ∧ effectOf (xformOf u final) s' = .ofRun s' regs q := by
  cases u with
  | dec =>
    have hrom : s.rom = s'.rom := hu
    refine ⟨_, fun _ => .none, runUnit (decPick s.rom final) () s.port.dcap s.srcBytes, rfl, ?_⟩
    rw [hrom, hroom, hsrc]
    rfl
  | enc =>
    obtain ⟨hrom, hrepl⟩ : s.rom = s'.rom ∧ s.encRepl = s'.encRepl := hu
    refine ⟨_, fun _ => .none, runUnit (encPick s.rom s.encRepl final) () s.port.dcap s.srcBytes, rfl, ?_⟩
    rw [hrom, hrepl, hroom, hsrc]
    rfl
  | pack =>
    have hcur : s.packCur = s'.packCur := hu
    refine ⟨_, .packCur, runUnit (packPick final) s.packCur s.port.dcap s.srcBytes, rfl, ?_⟩
    rw [hcur, hroom, hsrc]
    rfl
  | unpack =>
    have hregs : s.unpk = s'.unpk := hu
    refine ⟨_, .unpk, runUnit unpackPick s.unpk s.port.dcap s.srcBytes, rfl, ?_⟩
    rw [hregs, hroom, hsrc]
    rfl

theorem sameUnit.sameRegs {u : UnitId} {s s' : State} (h : sameUnit u s s') : sameRegs u s s' := by
  cases u with
  | dec => trivial
  | enc => exact h.2
  | pack => exact h
  | unpack => exact h

/-- The same write to the registers keeps the registers of a unit the same. -/
theorem State.putRegs_sameRegs_congr {u : UnitId} {s s' : State} (w : RegWrite) (h : sameRegs u s s') :
    sameRegs u (s.putRegs w) (s'.putRegs w) := by
  cases w with
  | none => exact h
  | packCur c =>
    cases u with
    | pack => rfl
    | _ => exact h
  | unpk r =>
    cases u with
    | unpack => rfl
    | _ => exact h
  | encRepl b =>
    cases u with
    | enc => rfl
    | _ => exact h

/-- The end of a command changes no register. -/
theorem State.afterEffect_sameRegs_congr {u : UnitId} {s s' : State} (v : UnitId) {e e' : Effect} (he : e.regs = e'.regs)
    (h : sameRegs u s s') : sameRegs u (s.afterEffect v e) (s'.afterEffect v e') := by
  have hput := State.putRegs_sameRegs_congr e.regs h
  rw [State.afterEffect, State.afterEffect, ← he]
  cases u <;> exact hput

/-- Settles O46: one run gives the results, the bytes of each step and the registers in both states. -/
theorem resultsDependOnOwnUnitOnly : Obligations.ResultsDependOnOwnUnitOnly := by
  intro s s' t t' u final w w' r r' hu hroom hsrc h h' hlink hlink'
  obtain ⟨-, rfl⟩ := exec_next_iff.mp h
  obtain ⟨-, rfl⟩ := exec_next_iff.mp h'
  obtain ⟨σ, regs, q, he, he'⟩ := effectOf_xformOf_sameRun final hu hroom hsrc
  rw [xformOf_unit, he, State.afterEffect_link_same] at hlink
  rw [xformOf_unit, he', State.afterEffect_link_same] at hlink'
  obtain ⟨-, rfl, hr⟩ := Link.outstanding.inj hlink
  obtain ⟨-, rfl, hr'⟩ := Link.outstanding.inj hlink'
  refine ⟨Option.some.inj (hr.symm.trans hr'), ?_, ?_⟩
  · rw [he, he']
    exact State.afterEffect_sameRegs_congr _ rfl hu.sameRegs
  · exact (dstSteps_bytes s.port q.outs).trans (dstSteps_bytes s'.port q.outs).symm

end Sys2Proof.Machine
end

section
/-!
The encoder: its searches in ENCTAB and EXTTAB, the bytes of one unit, what one iteration of its loop does with each kind of
input and the runs that follow from it, how much it writes for what it consumes, and SETREPL.
-/

namespace Sys2Proof.Machine

/-! ### The binary search (R165) -/

section search
variable {tab : List EncPair} {cp : CodePoint}

theorem binSearchLoop_empty (n : Nat) {lo hi : Nat} (h : hi ≤ lo) : binSearchLoop tab cp n lo hi = none := by
  cases n with
  | zero => rfl
  | succ n => exact if_neg (Nat.not_lt.mpr h)

/-- One probe of a search space that is not empty. -/
theorem binSearchLoop_probe (n : Nat) {lo hi : Nat} {p : EncPair} (h : lo < hi) (hp : tab[(lo + hi) / 2]? = some p) :
    binSearchLoop tab cp (n + 1) lo hi =
      if p.cp = cp then some ((lo + hi) / 2)
      else if p.cp < cp then binSearchLoop tab cp n ((lo + hi) / 2 + 1) hi
      else binSearchLoop tab cp n lo ((lo + hi) / 2) := by
  rw [binSearchLoop, if_pos h, hp]

/-- A probe behind the end of the table ends the search. -/
theorem binSearchLoop_outside (n : Nat) {lo hi : Nat} (h : tab[(lo + hi) / 2]? = none) :
    binSearchLoop tab cp (n + 1) lo hi = none := by
  rw [binSearchLoop, h]
  exact ite_self _

/-- An index that is found holds the code point, in any table. -/
theorem binSearchLoop_sound {n lo hi k : Nat} (h : binSearchLoop tab cp n lo hi = some k) :
    ∃ p, tab[k]? = some p ∧ p.cp = cp := by
  induction n generalizing lo hi with
  | zero => cases h
  | succ n ih =>
    rcases Nat.lt_or_ge lo hi with hlt | hge
    · cases hp : tab[(lo + hi) / 2]? with
      | none => rw [binSearchLoop_outside n hp] at h; cases h
      | some p =>
        rw [binSearchLoop_probe n hlt hp] at h
        split at h
        · next heq => cases h; exact ⟨p, hp, heq⟩
        · split at h
          · exact ih h
          · exact ih h
    · rw [binSearchLoop_empty _ hge] at h
      cases h

/-- Each probe halves the search space, so any two numbers of probes that are enough for it give the same result. -/
theorem binSearchLoop_enough {n m lo hi : Nat} (hn : hi - lo < 2 ^ n) (hm : hi - lo < 2 ^ m) :
    binSearchLoop tab cp n lo hi = binSearchLoop tab cp m lo hi := by
  induction n generalizing m lo hi with
  | zero =>
    have hempty : hi ≤ lo := by omega
    rw [binSearchLoop_empty 0 hempty, binSearchLoop_empty m hempty]
  | succ n ih =>
    cases m with
    | zero =>
      have hempty : hi ≤ lo := by omega
      rw [binSearchLoop_empty _ hempty, binSearchLoop_empty 0 hempty]
    | succ m =>
      rw [Nat.pow_succ] at hn hm
      rcases Nat.lt_or_ge lo hi with hlt | hge
      · cases hp : tab[(lo + hi) / 2]? with
        | none => rw [binSearchLoop_outside n hp, binSearchLoop_outside m hp]
        | some p =>
          rw [binSearchLoop_probe n hlt hp, binSearchLoop_probe m hlt hp,
            ih (m := m) (lo := (lo + hi) / 2 + 1) (by omega) (by omega), ih (m := m) (lo := lo) (by omega) (by omega)]
      · rw [binSearchLoop_empty _ hge, binSearchLoop_empty _ hge]

/-- In a strictly ascending table the code points are ordered as their indices are (R32). -/
theorem cp_lt_of_ascending {t : Tables} (hasc : t.ascending) {i j : Nat} {p q : EncPair} (hp : t.encTab[i]? = some p)
    (hq : t.encTab[j]? = some q) (hij : i < j) : p.cp < q.cp := by
  obtain ⟨hi, rfl⟩ := List.getElem?_eq_some_iff.mp hp
  obtain ⟨hj, rfl⟩ := List.getElem?_eq_some_iff.mp hq
  exact List.pairwise_iff_getElem.mp hasc i j hi hj hij

/-- On an ascending table the search finds an index in its search space: the half that a probe leaves out does not hold it. -/
theorem binSearchLoop_complete {t : Tables} (hasc : t.ascending) {n lo hi k : Nat} {q : EncPair} (hq : t.encTab[k]? = some q)
    (hlo : lo ≤ k) (hhi : k < hi) (hlen : hi ≤ t.encTab.length) (hn : hi - lo ≤ n) :
    binSearchLoop t.encTab q.cp n lo hi = some k := by
  induction n generalizing lo hi with
  | zero => omega
  | succ n ih =>
    have hmid : (lo + hi) / 2 < t.encTab.length := by omega
    have hp := List.getElem?_eq_getElem hmid
    rw [binSearchLoop_probe n (by omega) hp]
    rcases Nat.lt_trichotomy ((lo + hi) / 2) k with hlt | heq | hgt
    · have hcp := cp_lt_of_ascending hasc hp hq hlt
      rw [if_neg (BitVec.ne_of_lt hcp), if_pos hcp]
      exact ih (by omega) hhi hlen (by omega)
    · have hsame : t.encTab[(lo + hi) / 2] = q := Option.some.inj (hp.symm.trans (heq ▸ hq))
      rw [if_pos (congrArg EncPair.cp hsame), heq]
    · have hcp := cp_lt_of_ascending hasc hq hp hgt
      rw [if_neg (BitVec.ne_of_lt hcp).symm, if_neg (BitVec.lt_asymm hcp)]
      exact ih hlo hgt (by omega) (by omega)

end search

/-- The search over the whole of an ascending table finds exactly the index of the code point. -/
theorem binSearch_eq_some_iff {t : Tables} (hasc : t.ascending) {cp : CodePoint} {k : Nat} :
    binSearch t.encTab cp = some k ↔ ∃ p, t.encTab[k]? = some p ∧ p.cp = cp := by
  refine ⟨binSearchLoop_sound, ?_⟩
  rintro ⟨p, hp, rfl⟩
  obtain ⟨hk, -⟩ := List.getElem?_eq_some_iff.mp hp
  exact binSearchLoop_complete hasc hp (Nat.zero_le k) hk (Nat.le_refl _) (Nat.le_refl _)

/-- Settles O37: soundness and completeness of the loop, and as many probes as the table has entries are enough too. -/
theorem binarySearchIsExact : Obligations.BinarySearchIsExact :=
  ⟨fun _ _ _ hasc => binSearch_eq_some_iff hasc, fun _ _ _ hn => binSearchLoop_enough hn Nat.lt_two_pow_self⟩

/-! ### The bytes of one unit (R166 to R170) -/

/-- The entry at the index of `ExtScan` is the first one with the code point (R168). -/
theorem extScan_getElem? (tab : List ExtTriple) (cp : CodePoint) :
    (extScan tab cp).bind (fun j => tab[j]?) = tab.find? (fun x => x.cp == cp) :=
  List.find?_eq_bind_findIdx?_getElem?.symm

section unit
variable {t : Tables} {repl : Byte} {cp : CodePoint}

/-- R166, R167: an entry that is found in ENCTAB gives its byte, the escape code twice. -/
theorem encodeUnit_table {k : Nat} {p : EncPair} (hk : binSearch t.encTab cp = some k) (hp : t.encTab[k]? = some p) :
    encodeUnit t repl cp = if p.gsm = Config.esc then [p.gsm, Config.esc] else [p.gsm] := by
  simp [encodeUnit, hk, hp]

/-- R169: after a miss in ENCTAB the first entry of EXTTAB gives both its bytes. -/
theorem encodeUnit_extension {x : ExtTriple} (hmiss : binSearch t.encTab cp = none)
    (hx : t.extTab.find? (fun y => y.cp == cp) = some x) : encodeUnit t repl cp = [x.esc, x.gsm] := by
  simp [encodeUnit, hmiss, extScan_getElem?, hx]

/-- R170, R174: after a miss in both tables the replacement byte stands for the code point. -/
theorem encodeUnit_replacement (hmiss : binSearch t.encTab cp = none)
    (hx : t.extTab.find? (fun y => y.cp == cp) = none) : encodeUnit t repl cp = [repl] := by
  simp [encodeUnit, hmiss, extScan_getElem?, hx]

end unit

/-! ### One iteration of the encoder's loop (R160 to R164) -/

section pick
variable {t : Tables} {repl : Byte} {final : Bool} {room : Nat} {b : Byte} {src rest : List Byte}

/-- R161: with input left and less than two bytes of room the input is not looked at. -/
theorem encPick_full (h : room < 2) : encPick t repl final () room (b :: rest) = .full := if_pos h

/-- R162: a VALID unit is consumed whole. -/
theorem encPick_valid {cp : CodePoint} {size : Nat} (hroom : 2 ≤ room) (h : utf8Decode src = .valid cp size) :
    encPick t repl final () room src = .commit size (encodeUnit t repl cp) () := by
  cases src with
  | nil => cases h
  | cons b rest => simp [encPick, Nat.not_lt.mpr hroom, h]

/-- R163: an INVALID unit is replaced, and one byte of it is consumed. -/
theorem encPick_invalid (hroom : 2 ≤ room) (h : utf8Decode (b :: rest) = .invalid) :
    encPick t repl final () room (b :: rest) = .commit 1 [repl] () := by
  simp [encPick, Nat.not_lt.mpr hroom, h]

/-- R163: so is an INCOMPLETE one on the final chunk. -/
theorem encPick_incomplete (hroom : 2 ≤ room) (h : utf8Decode (b :: rest) = .incomplete) :
    encPick t repl true () room (b :: rest) = .commit 1 [repl] () := by
  simp [encPick, Nat.not_lt.mpr hroom, h]

/-- R164: on a chunk that is not final it waits for the next one. -/
theorem encPick_held (hroom : 2 ≤ room) (h : utf8Decode (b :: rest) = .incomplete) :
    encPick t repl false () room (b :: rest) = .idle := by
  simp [encPick, Nat.not_lt.mpr hroom, h]

end pick

/-- What one iteration can do: nothing, stop for want of room, replace one byte, or take a VALID unit. -/
theorem encPick_cases (t : Tables) (repl : Byte) (final : Bool) (room : Nat) (src : List Byte) :
    encPick t repl final () room src = .idle ∨
    (encPick t repl final () room src = .full ∧ room < 2 ∧ src ≠ []) ∨
    encPick t repl final () room src = .commit 1 [repl] () ∨
    ∃ cp size, utf8Decode src = .valid cp size ∧
      encPick t repl final () room src = .commit size (encodeUnit t repl cp) () := by
  cases src with
  | nil => exact .inl rfl
  | cons b rest =>
    rcases Nat.lt_or_ge room 2 with hlt | hroom
    · exact .inr (.inl ⟨encPick_full hlt, hlt, nofun⟩)
    · cases hd : utf8Decode (b :: rest) with
      | valid cp size => exact .inr (.inr (.inr ⟨cp, size, rfl, encPick_valid hroom hd⟩))
      | invalid => exact .inr (.inr (.inl (encPick_invalid hroom hd)))
      | incomplete =>
        cases final with
        | true => exact .inr (.inr (.inl (encPick_incomplete hroom hd)))
        | false => exact .inl (encPick_held hroom hd)

/-! ### Runs of the encoder from their first unit -/

/-- A VALID unit with room is written, and the run goes on behind it (R112). -/
theorem encRun_valid {t : Tables} {repl : Byte} {final : Bool} {dcap size : Nat} {src : List Byte} {cp : CodePoint}
    (hroom : 2 ≤ dcap) (h : utf8Decode src = .valid cp size) :
    runUnit (encPick t repl final) () dcap src =
      Run.after size (encodeUnit t repl cp)
        (runUnit (encPick t repl final) () (dcap - (encodeUnit t repl cp).length) (src.drop size)) :=
  runUnit_after (encPick_bounded t repl final) (encPick_valid hroom h)

/-- Settles O33: the code point of the entry that is found gives one byte, or two escape codes. -/
theorem encodeTableStep : Obligations.EncodeTableStep := by
  intro t repl final dcap size k src p hroom hk hp hd
  rw [encRun_valid hroom hd, encodeUnit_table hk hp]
  by_cases hesc : p.gsm = Config.esc
  · rw [if_pos hesc, if_pos (show p.gsm = 0x1B#8 from hesc), hesc]
    rfl
  · rw [if_neg hesc, if_neg (show ¬ p.gsm = 0x1B#8 from hesc)]
    rfl

/-- Settles O34: the entries before `x` have other code points, so `x` is the one that the scan finds. -/
theorem encodeExtensionStep : Obligations.EncodeExtensionStep := by
  intro t repl final dcap size src before after x hroom htab hbefore hmiss hd
  have hfirst : t.extTab.find? (fun y => y.cp == x.cp) = some x :=
    List.find?_eq_some_iff_append.mpr ⟨beq_self_eq_true x.cp, before, after, htab, fun y hy => by simpa using hbefore y hy⟩
  rw [encRun_valid hroom hd, encodeUnit_extension hmiss hfirst]
  rfl

/-- Settles O35: neither table gives the unit's bytes. -/
theorem encodeReplacementStep : Obligations.EncodeReplacementStep := by
  intro t repl final dcap size src cp hroom hmiss hext hd
  have hnone : t.extTab.find? (fun y => y.cp == cp) = none :=
    List.find?_eq_none.mpr fun y hy => by simpa using hext y hy
  rw [encRun_valid hroom hd, encodeUnit_replacement hmiss hnone]
  rfl

/-- Settles O32: the two ways to come to the replacement of one byte. -/
theorem encodeInvalidStep : Obligations.EncodeInvalidStep := by
  rintro t repl final dcap b rest hroom (hinvalid | ⟨hcut, rfl⟩)
  · exact runUnit_after (encPick_bounded t repl final) (encPick_invalid hroom hinvalid)
  · exact runUnit_after (encPick_bounded t repl true) (encPick_incomplete hroom hcut)

/-- Settles O36: each stop is the first iteration's. -/
theorem encodeStops : Obligations.EncodeStops :=
  ⟨fun _ _ _ _ _ _ hroom => runUnit_full (encPick_full hroom),
    fun _ _ _ _ _ hroom hcut => runUnit_idle (encPick_held hroom hcut),
    fun _ _ _ _ => runUnit_idle rfl⟩

/-! ### Output in proportion to the input (R175) -/

/-- A step writes at most `c` bytes for each byte it consumes. -/
def WritesAtMost {σ : Type} (c : Nat) (pick : σ → Nat → List Byte → Pick σ) : Prop :=
  ∀ r room src used out r', pick r room src = .commit used out r' → out.length ≤ c * used

/-- A step is out of room only with less than `c` bytes of it for each byte of input that is left. -/
def FullBelow {σ : Type} (c : Nat) (pick : σ → Nat → List Byte → Pick σ) : Prop :=
  ∀ r room src, pick r room src = .full → room < c * src.length

section proportion
variable {σ : Type} {pick : σ → Nat → List Byte → Pick σ} {c : Nat}

theorem runSteps_writesAtMost (hw : WritesAtMost c pick) (n : Nat) (r : σ) (room : Nat) (src : List Byte) :
    (runSteps pick n r room src).out.length ≤ c * (runSteps pick n r room src).used := by
  induction n generalizing r room src with
  | zero => exact Nat.zero_le _
  | succ n ih =>
    cases h : pick r room src with
    | idle => rw [runSteps_idle h]; exact Nat.zero_le _
    | full => rw [runSteps_full h]; exact Nat.zero_le _
    | refuse => rw [runSteps_refuse h]; exact Nat.zero_le _
    | commit used out r' =>
      rw [runSteps_commit h, Run.out_cons, Run.outs_flatten, List.length_append, Nat.mul_add]
      exact Nat.add_le_add (hw _ _ _ _ _ _ h) (ih r' _ _)

/-- With `c` bytes of room for each byte of input a run is never out of room: a step takes no more room than the bytes it
consumes had brought. -/
theorem runSteps_ne_full (hw : WritesAtMost c pick) (hf : FullBelow c pick) (n : Nat) (r : σ) (room : Nat) (src : List Byte)
    (hroom : c * src.length ≤ room) : (runSteps pick n r room src).stop ≠ .destinationFull := by
  induction n generalizing r room src with
  | zero => nofun
  | succ n ih =>
    cases h : pick r room src with
    | idle => rw [runSteps_idle h]; nofun
    | full => exact absurd hroom (Nat.not_le.mpr (hf _ _ _ h))
    | refuse => rw [runSteps_refuse h]; nofun
    | commit used out r' =>
      rw [runSteps_commit h]
      refine ih r' _ _ ?_
      have hout := hw _ _ _ _ _ _ h
      rw [List.length_drop, Nat.mul_sub]
      omega

end proportion

theorem encPick_writesAtMost (t : Tables) (repl : Byte) (final : Bool) : WritesAtMost 2 (encPick t repl final) := by
  intro r room src used out r' h
  rcases encPick_cases t repl final room src with hp | ⟨hp, -⟩ | hp | ⟨cp, size, hd, hp⟩
  · cases hp.symm.trans h
  · cases hp.symm.trans h
  · cases hp.symm.trans h
    exact Nat.le_succ 1
  · cases hp.symm.trans h
    have hused := (utf8Decode_size hd).1
    have hout := (encodeUnit_length t repl cp).2
    omega

theorem encPick_fullBelow (t : Tables) (repl : Byte) (final : Bool) : FullBelow 2 (encPick t repl final) := by
  intro r room src h
  rcases encPick_cases t repl final room src with hp | ⟨-, hroom, hsrc⟩ | hp | ⟨cp, size, -, hp⟩
  · cases hp.symm.trans h
  · have hpos := List.length_pos_iff.mpr hsrc
    omega
  · cases hp.symm.trans h
  · cases hp.symm.trans h

/-- The run of an encoder command with two bytes of room for each byte of SRC ends with OK. -/
theorem encRun_ok (t : Tables) (repl : Byte) (final : Bool) {dcap : Nat} {src : List Byte} (h : 2 * src.length ≤ dcap) :
    (runUnit (encPick t repl final) () dcap src).stop = .ok := by
  have hfull := runSteps_ne_full (encPick_writesAtMost t repl final) (encPick_fullBelow t repl final)
    (src.length + dcap + 1) () dcap src h
  have hbound := (runUnit_bounds (encPick_bounded t repl final) () dcap src).2.2
  have hrefuse := runUnit_ne_refuse (encPick_ne_refuse t repl final) () dcap src
  cases hstop : (runUnit (encPick t repl final) () dcap src).stop with
  | ok => rfl
  | destinationFull => exact absurd hstop hfull
  | refuse => exact absurd hstop hrefuse
  | bound => exact absurd hstop hbound

/-- Settles O43: the results are those of the run. -/
theorem encoderOutputBound : Obligations.EncoderOutputBound := by
  intro s t final w r h hlink
  obtain ⟨-, rfl⟩ := exec_next_iff.mp h
  rw [show Instr.unit (.xformEnc final) = .enc from rfl, State.afterEffect_link_same] at hlink
  obtain ⟨-, -, hreply⟩ := Link.outstanding.inj hlink
  cases hreply
  refine ⟨runSteps_writesAtMost (encPick_writesAtMost _ _ _) _ _ _ _, fun hroom => ?_⟩
  rw [← s.srcBytes_length] at hroom
  exact if_pos (encRun_ok s.rom s.encRepl final hroom)

/-! ### SETREPL (R173) -/

/-- Settles O10: a command without regions on an idle unit. -/
theorem setReplCompletes : Obligations.SetReplCompletes := fun _ imm8 h =>
  State.control_idle (f := (State.setEncRepl · (replacementOf imm8))) h

end Sys2Proof.Machine
end

section
/-!
The packer's steps and stops, and its cursor as the count of septets consumed.
-/

namespace Sys2Proof.Machine

/-! ### The octets on natural numbers (R8, R202 to R204) -/

theorem septetOf_toNat (b : Byte) : (septetOf b).toNat = b.toNat &&& 0x7F := rfl

/-- The sixteen bits of a pairing step lose nothing below the mask. -/
theorem pairOctet_eq_ofNat (c : Nat) (a b : Byte) :
    pairOctet c a b =
      BitVec.ofNat 8 ((((a.toNat &&& 0x7F) >>> (c - 1)) ||| ((b.toNat &&& 0x7F) <<< (8 - c))) &&& 0xFF) := by
  have hmask (n : Nat) : n &&& 0xFF = n % 2 ^ 8 := Nat.and_two_pow_sub_one_eq_mod n 8
  have hwiden (x : Byte) : (x.toNat &&& 0x7F) % 2 ^ 16 = x.toNat &&& 0x7F :=
    Nat.mod_eq_of_lt ((septetOf x).isLt.trans (by decide))
  have hlow (n : Nat) : n % 2 ^ 16 % 2 ^ 8 = n % 2 ^ 8 := Nat.mod_mod_of_dvd n (by decide)
  apply BitVec.eq_of_toNat_eq
  simp only [pairOctet, BitVec.toNat_setWidth, BitVec.toNat_or, BitVec.toNat_ushiftRight, BitVec.toNat_shiftLeft,
    BitVec.toNat_ofNat, hwiden, septetOf_toNat, hmask, Nat.mod_mod, Nat.or_mod_two_pow, hlow]

theorem tailOctet_eq_ofNat (c : Nat) (a : Byte) :
    tailOctet c a = BitVec.ofNat 8 ((a.toNat &&& 0x7F) >>> (c - 1)) := by
  rw [← septetOf_toNat, ← BitVec.toNat_ushiftRight, BitVec.ofNat_toNat]
  exact (BitVec.setWidth_eq _).symm

/-! ### Steps and stops (R202 to R206) -/

theorem nextCursor_of_ne {c : BitVec 3} (h : c ≠ 7#3) : nextCursor c = c + 1#3 := if_neg h

/-- A run that begins with a pairing step. -/
theorem packRun_pair {final : Bool} {c : BitVec 3} {dcap : Nat} {a b : Byte} {rest : List Byte} (h : 0 < dcap) :
    runUnit (packPick final) c dcap (a :: b :: rest) =
      Run.after (if c = 7#3 then 2 else 1) [pairOctet c.toNat a b]
        (runUnit (packPick final) (nextCursor c) (dcap - 1) ((a :: b :: rest).drop (if c = 7#3 then 2 else 1))) :=
  runUnit_after (packPick_bounded final) (packPick_pair (Nat.ne_of_gt h))

/-- Settles O20: below cursor 7 a pairing step consumes one byte. -/
theorem packPairStep : Obligations.PackPairStep := by
  intro final c dcap a b rest _ hc6 hroom
  have h7 : c ≠ 7#3 := by
    rintro rfl
    exact absurd hc6 (by decide)
  rw [packRun_pair hroom, if_neg h7, nextCursor_of_ne h7, pairOctet_eq_ofNat]
  rfl

/-- Settles O21: at cursor 7 a pairing step consumes both bytes. -/
theorem packPair7Step : Obligations.PackPair7Step := by
  intro final dcap a b rest hroom
  rw [packRun_pair hroom, pairOctet_eq_ofNat]
  rfl

/-- Settles O22: behind a tail step the input is exhausted. -/
theorem packTailStep : Obligations.PackTailStep := by
  intro c dcap a _ hroom
  rw [runUnit_after (packPick_bounded true) (packPick_tail (Nat.ne_of_gt hroom)), runUnit_idle rfl, tailOctet_eq_ofNat]
  rfl

/-- Settles O23: each stop is the first iteration's. -/
theorem packStops : Obligations.PackStops :=
  ⟨fun _ _ _ => runUnit_idle rfl, fun _ _ _ => runUnit_idle rfl, fun _ _ _ _ _ => runUnit_full rfl,
    fun _ _ => runUnit_full rfl⟩

/-! ### The cursor counts septets (R208) -/

/-- What every step keeps between the count of bytes consumed and the registers holds at the end of a run. -/
theorem runSteps_used_reg_of_commit {σ : Type} {pick : σ → Nat → List Byte → Pick σ} {P : Nat → σ → Prop}
    (hstep : ∀ k r room src used out r', P k r → pick r room src = .commit used out r' → P (k + used) r')
    (n k : Nat) (r : σ) (room : Nat) (src : List Byte) (h : P k r) :
    P (k + (runSteps pick n r room src).used) (runSteps pick n r room src).reg := by
  induction n generalizing k r room src with
  | zero => exact h
  | succ n ih =>
    cases hpick : pick r room src with
    | idle => rwa [runSteps_idle hpick]
    | full => rwa [runSteps_full hpick]
    | refuse => rwa [runSteps_refuse hpick]
    | commit used out r' =>
      rw [runSteps_commit hpick, ← Nat.add_assoc]
      exact ih (k + used) r' _ _ (hstep k r room src used out r' h hpick)

/-- The cursor of a stream without a tail step, `k` septets of which are consumed. -/
def CursorAfter (k : Nat) (c : BitVec 3) : Prop := c.toNat = k % 8 + 1

/-- The cursor has no place for a count of 7 modulo 8: there the pairing step at cursor 7 has consumed its partner too. -/
theorem CursorAfter.count_ne {k : Nat} {c : BitVec 3} (h : CursorAfter k c) : k % 8 ≠ 7 := by
  have hle := cursor_le c
  unfold CursorAfter at h
  omega

/-- Without FINAL only pairing steps commit. -/
theorem packPick_commit_used {c c' : BitVec 3} {room used : Nat} {src out : List Byte}
    (h : packPick false c room src = .commit used out c') : used = if c = 7#3 then 2 else 1 := by
  match src with
  | [] => cases h
  | [_] => cases h
  | a :: b :: rest =>
    by_cases hroom : room = 0
    · subst hroom
      cases h
    · cases (packPick_pair hroom).symm.trans h
      rfl

/-- A pairing step advances the count and the cursor together: by one, or at cursor 7 by two and back to 1. -/
theorem CursorAfter.pair {k : Nat} {c : BitVec 3} (h : CursorAfter k c) :
    CursorAfter (k + if c = 7#3 then 2 else 1) (nextCursor c) := by
  unfold CursorAfter at h ⊢
  by_cases h7 : c = 7#3
  · subst h7
    have hk : 7 = k % 8 + 1 := h
    rw [if_pos rfl, show nextCursor 7#3 = 1#3 from rfl, show (1#3).toNat = 1 from rfl]
    omega
  · have hlt : c.toNat ≠ 7 := fun he => h7 (BitVec.eq_of_toNat_eq he)
    have hle := cursor_le c
    rw [if_neg h7, nextCursor_toNat h7]
    omega

theorem packRun_cursorAfter {k : Nat} {c : BitVec 3} (dcap : Nat) (src : List Byte) (h : CursorAfter k c) :
    CursorAfter (k + (runUnit (packPick false) c dcap src).used) (runUnit (packPick false) c dcap src).reg :=
  runSteps_used_reg_of_commit
    (fun _ _ _ _ _ _ _ hk hpick => by
      rw [packPick_commit_used hpick, packPick_commit_reg hpick]
      exact hk.pair)
    _ k c dcap src h

/-- Settles O52: the run from cursor 1, whose register the return keeps. -/
theorem packCursorCountsSeptets : Obligations.PackCursorCountsSeptets := by
  intro s x dcap a hidle hstart hsend
  have hcur : s.packCur = 1#3 := by simpa [State.atStart] using hstart
  have hrun := packRun_cursorAfter (k := 0) (c := 1#3) dcap x rfl
  rw [Nat.zero_add] at hrun
  have hanswer := State.send_eq (i := .xformPack false) (r := 1#3) (src := x) (dcap := dcap) (packPick_bounded false)
    putKeeps_setPackCur hidle rfl (by rw [← hcur]; rfl) (runUnit_ne_refuse (packPick_ne_refuse false) _ _ _)
  cases hsend.symm.trans hanswer
  obtain ⟨hkept, -⟩ := State.takeReturn_keeps (((s.sendState .pack x dcap).afterXform .pack .setPackCur
    (runUnit (packPick false) 1#3 dcap x)).setHost []) .pack
  exact ⟨hrun.count_ne, (congrArg BitVec.toNat hkept).trans hrun⟩

end Sys2Proof.Machine
end

section
/-!
The unpacker's steps and stops.
-/

namespace Sys2Proof.Machine

/-! ### The septet and the carry on natural numbers (R8, R221) -/

/-- The sixteen bits of a byte step lose nothing below the mask. -/
theorem byteSeptet_toNat (c : Nat) (b : Byte) (carry : Septet) :
    (byteSeptet c b carry).toNat = ((b.toNat <<< (c - 1)) &&& 0x7F) ||| carry.toNat := by
  have hmask (n : Nat) : n &&& 0x7F = n % 2 ^ 7 := Nat.and_two_pow_sub_one_eq_mod n 7
  have hwiden : b.toNat % 2 ^ 16 = b.toNat := Nat.mod_eq_of_lt (b.isLt.trans (by decide))
  have hlow (n : Nat) : n % 2 ^ 16 % 2 ^ 7 = n % 2 ^ 7 := Nat.mod_mod_of_dvd n (by decide)
  simp only [byteSeptet, BitVec.toNat_or, BitVec.toNat_setWidth, BitVec.toNat_shiftLeft, hwiden, hlow, hmask]

theorem byteCarry_eq_ofNat (c : Nat) (b : Byte) : byteCarry c b = BitVec.ofNat 7 (b.toNat >>> (8 - c)) := by
  rw [← BitVec.toNat_ushiftRight, BitVec.ofNat_toNat]
  rfl

/-! ### Steps and stops (R221 to R224) -/

/-- The registers after a byte step (R221): at cursor 7 the carry is a whole septet, which is pending. -/
def unpkNext (c : BitVec 3) (b : Byte) : UnpkRegs :=
  ⟨if c = 7#3 then c else c + 1#3, byteCarry c.toNat b, decide (c = 7#3)⟩

/-- A byte step from any cursor and carry (R221). -/
theorem unpackPick_step {c : BitVec 3} {carry : Septet} {room : Nat} {b : Byte} {rest : List Byte} (h : room ≠ 0) :
    unpackPick ⟨c, carry, false⟩ room (b :: rest) =
      .commit 1 [looseByte (byteSeptet c.toNat b carry)] (unpkNext c b) := by
  by_cases h7 : c = 7#3
  · simp [unpackPick, unpkNext, h, h7]
  · simp [unpackPick, unpkNext, h, h7]

/-- Settles O24: a byte step, and then the run on the bytes left. -/
theorem unpackByteStep : Obligations.UnpackByteStep := by
  intro c carry dcap b rest _ hroom
  rw [runUnit_after unpackPick_bounded (unpackPick_step (Nat.ne_of_gt hroom)), unpkNext, looseByte_eq_ofNat,
    byteSeptet_toNat, byteCarry_eq_ofNat]
  rfl

/-- Settles O25: the flush does not look at the input. -/
theorem unpackFlushStep : Obligations.UnpackFlushStep := by
  intro c carry dcap src hroom
  rw [runUnit_after unpackPick_bounded (unpackPick_pend (by rfl) (Nat.ne_of_gt hroom) src), looseByte_eq_ofNat]
  rfl

/-- Settles O26: each stop is the first iteration's. -/
theorem unpackStops : Obligations.UnpackStops :=
  ⟨fun _ _ src => runUnit_full (unpackPick_pend_full rfl src), fun _ _ _ _ => runUnit_full rfl,
    fun _ _ dcap => runUnit_idle (unpackPick_exhausted rfl dcap)⟩

end Sys2Proof.Machine
end

section
/-!
The four units as one family: registers, step function and register write by unit, and what all four step functions have in
common about room, FINAL and input still to come. Streams (R119, R121) are then treated once for all units.
-/

namespace Sys2Proof.Machine

/-! ### The units as a family -/

/-- The registers that a unit's XFORM command works on (R20 to R27). -/
abbrev UnitRegs : UnitId → Type
  | .dec => Unit
  | .enc => Unit
  | .pack => BitVec 3
  | .unpack => UnpkRegs

/-- One iteration of a unit's loop (R140, R160, R200, R220). -/
def unitPick (t : Tables) (repl : Byte) : (u : UnitId) → Bool → UnitRegs u → Nat → List Byte → Pick (UnitRegs u)
  | .dec, final => decPick t final
  | .enc, final => encPick t repl final
  | .pack, final => packPick final
  | .unpack, _ => unpackPick

/-- A unit's registers in a state. -/
def State.regsOf (s : State) : (u : UnitId) → UnitRegs u
  | .dec => ()
  | .enc => ()
  | .pack => s.packCur
  | .unpack => s.unpk

/-- A unit's registers written. -/
def State.putRegsOf : (u : UnitId) → State → UnitRegs u → State
  | .dec, s, _ => s
  | .enc, s, _ => s
  | .pack, s, c => s.setPackCur c
  | .unpack, s, r => s.putUnpk r

/-- The run of a command of unit `u` on its registers in `s`. -/
def State.unitRun (s : State) (u : UnitId) (final : Bool) (dcap : Nat) (src : List Byte) : Run (UnitRegs u) :=
  runUnit (unitPick s.rom s.encRepl u final) (s.regsOf u) dcap src

/-- Every XFORM command is the shared operation with its unit's step function and registers. -/
theorem exec_xformOf (s : State) (u : UnitId) (final : Bool) :
    exec (xformOf u final) s =
      s.xform u (unitPick s.rom s.encRepl u final) (s.regsOf u) (State.putRegsOf u) := by
  cases u <;> rfl

theorem putKeeps_putRegsOf (u : UnitId) : PutKeeps (State.putRegsOf u) := by
  cases u with
  | dec => exact putKeeps_none
  | enc => exact putKeeps_none
  | pack => exact putKeeps_setPackCur
  | unpack => exact putKeeps_putUnpk

theorem State.putRegsOf_encRepl (s : State) (u : UnitId) (r : UnitRegs u) : (s.putRegsOf u r).encRepl = s.encRepl := by
  cases u <;> rfl

theorem State.regsOf_putRegsOf (s : State) (u : UnitId) (r : UnitRegs u) : (s.putRegsOf u r).regsOf u = r := by
  cases u <;> rfl

/-- A unit's registers are the same in states that agree on the packer's and the unpacker's. -/
theorem State.regsOf_congr {s s' : State} (hcur : s.packCur = s'.packCur) (hunpk : s.unpk = s'.unpk) (u : UnitId) :
    s.regsOf u = s'.regsOf u := by
  cases u with
  | dec => rfl
  | enc => rfl
  | pack => exact hcur
  | unpack => exact hunpk

/-- A unit's registers at the start of a stream (R118, R20). -/
def startRegs : (u : UnitId) → UnitRegs u
  | .dec => ()
  | .enc => ()
  | .pack => 1#3
  | .unpack => ⟨1#3, 0#7, false⟩

theorem State.regsOf_of_atStart {s : State} {u : UnitId} (h : s.atStart u = true) : s.regsOf u = startRegs u := by
  cases u with
  | dec => rfl
  | enc => rfl
  | pack => exact eq_of_beq h
  | unpack =>
    simp only [State.atStart, Bool.and_eq_true, beq_iff_eq, Bool.not_eq_true'] at h
    obtain ⟨⟨hcur, hcarry⟩, hpend⟩ := h
    simp only [State.regsOf, State.unpk, startRegs, hcur, hcarry, hpend]

/-- RESET writes the registers of the start of a stream (R118, R147, R172, R207, R227). -/
theorem exec_resetOf (s : State) (u : UnitId) : exec (resetOf u) s = s.control u (State.putRegsOf u · (startRegs u)) := by
  cases u <;> rfl

/-! ### One iteration, for any unit -/

section unit
variable {t : Tables} {repl : Byte} {u : UnitId} {final : Bool} {r r' : UnitRegs u} {room used : Nat} {src out : List Byte}

theorem unitPick_bounded (t : Tables) (repl : Byte) (u : UnitId) (final : Bool) : PickBounded (unitPick t repl u final) := by
  cases u with
  | dec => exact decPick_bounded t final
  | enc => exact encPick_bounded t repl final
  | pack => exact packPick_bounded final
  | unpack => exact unpackPick_bounded

/-- The septets that a unit still has to write for bytes it has consumed: the unpacker's pending one (R24). -/
def owed : (u : UnitId) → UnitRegs u → Nat
  | .dec, _ => 0
  | .enc, _ => 0
  | .pack, _ => 0
  | .unpack, r => if r.pend then 1 else 0

theorem owed_le_one (u : UnitId) (r : UnitRegs u) : owed u r ≤ 1 := by
  cases u with
  | unpack =>
    change (if r.pend then 1 else 0) ≤ 1
    split <;> decide
  | _ => exact Nat.zero_le 1

/-- What one iteration selects, room left aside: it is `p` where `need` bytes of room are left, and DestinationFull where they
are not. `need` is no more than the room that always lets the unit advance (R261), nor than three bytes for each byte of input
and one for a septet owed; a step writes no more than three bytes for each byte it consumes, counting what the unit owes after it
and before it; and with FINAL no input is held (R116). -/
structure Selects (t : Tables) (repl : Byte) (u : UnitId) (final : Bool) (r : UnitRegs u) (src : List Byte) (need : Nat)
    (p : Pick (UnitRegs u)) : Prop where
  pick : ∀ room, unitPick t repl u final r room src = if room < need then .full else p
  need_le : need ≤ roomToAdvance u
  need_covered : need ≤ 3 * src.length + owed u r
  not_full : p ≠ .full
  cost : ∀ used out r', p = .commit used out r' → out.length + owed u r' ≤ 3 * used + owed u r
  held : final = true → p = .idle → src = []

/-- What selects no step needs no room. -/
theorem Selects.of_idle (h : ∀ room, unitPick t repl u final r room src = .idle) (hheld : final = true → src = []) :
    Selects t repl u final r src 0 .idle :=
  ⟨h, Nat.zero_le _, Nat.zero_le _, nofun, nofun, fun hf _ => hheld hf⟩

theorem Selects.of_refuse (h : ∀ room, unitPick t repl u final r room src = .refuse) :
    Selects t repl u final r src 0 .refuse :=
  ⟨h, Nat.zero_le _, Nat.zero_le _, nofun, nofun, nofun⟩

/-- A step that commits where its bytes fit. -/
theorem Selects.of_commit {need : Nat}
    (h : ∀ room, unitPick t repl u final r room src = if room < need then .full else .commit used out r')
    (hneed : need ≤ roomToAdvance u) (hcovered : need ≤ 3 * src.length + owed u r)
    (hcost : out.length + owed u r' ≤ 3 * used + owed u r) :
    Selects t repl u final r src need (.commit used out r') where
  pick := h
  need_le := hneed
  need_covered := hcovered
  not_full := nofun
  cost := fun _ _ _ hp => by cases hp; exact hcost
  held := nofun

/-- A step of one byte, which the packer and the unpacker commit wherever any room is left (R206, R224). -/
theorem Selects.of_byte {b : Byte}
    (h : ∀ room, unitPick t repl u final r room src = if room = 0 then .full else .commit used [b] r')
    (hneed : 1 ≤ roomToAdvance u) (hcovered : 1 ≤ 3 * src.length + owed u r)
    (hcost : 1 + owed u r' ≤ 3 * used + owed u r) :
    Selects t repl u final r src 1 (.commit used [b] r') :=
  .of_commit (fun room => by simp only [h, Nat.lt_one_iff]) hneed hcovered hcost

/-- Three bytes of room for each byte of input are three at least if input is left. -/
theorem three_le_of_cons (b : Byte) (rest : List Byte) (n : Nat) : 3 ≤ 3 * (b :: rest).length + n := by
  rw [List.length_cons]
  omega

/-- A selected entry is a decoder step (R145). -/
theorem selects_entry {c : Byte} {rest : List Byte} {e : DecodeEntry} {adv : Nat} (hadv : 1 ≤ adv)
    (h : ∀ room, decPick t final () room (c :: rest) = emitEntry e adv room) :
    Selects t repl .dec final () (c :: rest) (entryBytes e).length (.commit adv (entryBytes e) ()) := by
  have hlen := (entryBytes_length e).2
  refine .of_commit h hlen (Nat.le_trans hlen (three_le_of_cons _ _ _)) ?_
  change (entryBytes e).length + 0 ≤ 3 * adv + 0
  omega

theorem dec_selects (t : Tables) (repl : Byte) (final : Bool) (src : List Byte) :
    ∃ need p, Selects t repl .dec final () src need p := by
  match src with
  | [] => exact ⟨_, _, .of_idle (fun _ => rfl) fun _ => rfl⟩
  | c :: rest =>
    by_cases hesc : c = Config.esc
    · subst hesc
      match rest with
      | b :: rest =>
        cases hb : escDecAt t b with
        | some e => exact ⟨_, _, selects_entry (by decide) fun _ => decPick_hit hb⟩
        | none => exact ⟨_, _, selects_entry (by decide) fun _ => decPick_miss hb⟩
      | [] =>
        cases final with
        | true => exact ⟨_, _, selects_entry (by decide) fun _ => decPick_trailing⟩
        | false => exact ⟨_, _, .of_idle (fun _ => rfl) nofun⟩
    · rcases Nat.lt_or_ge c.toNat 0x80 with hlow | hhigh
      · exact ⟨_, _, selects_entry (by decide) fun _ => decPick_base hesc hlow⟩
      · exact ⟨_, _, .of_refuse fun _ => decPick_high hhigh⟩

/-- The encoder's room pre-check comes before it looks at its input (R161). -/
theorem enc_selects (t : Tables) (repl : Byte) (final : Bool) (src : List Byte) :
    ∃ need p, Selects t repl .enc final () src need p := by
  cases src with
  | nil => exact ⟨_, _, .of_idle (fun _ => rfl) fun _ => rfl⟩
  | cons b rest =>
    have commit {used : Nat} {out : List Byte}
        (h : ∀ room, 2 ≤ room → encPick t repl final () room (b :: rest) = .commit used out ()) :
        Selects t repl .enc final () (b :: rest) 2 (.commit used out ()) := by
      refine .of_commit (fun room => ?_) (Nat.le_refl 2) (Nat.le_of_succ_le (three_le_of_cons _ _ _)) ?_
      · split_ifs with hroom
        · exact encPick_full hroom
        · exact h room (Nat.not_lt.mp hroom)
      · have := encPick_writesAtMost t repl final _ _ _ _ _ _ (h 2 (Nat.le_refl 2))
        change out.length + 0 ≤ 3 * used + 0
        omega
    cases hd : utf8Decode (b :: rest) with
    | valid cp size => exact ⟨_, _, commit fun _ hroom => encPick_valid hroom hd⟩
    | invalid => exact ⟨_, _, commit fun _ hroom => encPick_invalid hroom hd⟩
    | incomplete =>
      cases final with
      | true => exact ⟨_, _, commit fun _ hroom => encPick_incomplete hroom hd⟩
      | false =>
        refine ⟨2, .idle, fun room => ?_, Nat.le_refl 2, Nat.le_of_succ_le (three_le_of_cons _ _ _), nofun, nofun, nofun⟩
        split_ifs with hroom
        · exact encPick_full hroom
        · exact encPick_held (Nat.not_lt.mp hroom) hd

theorem pack_selects (t : Tables) (repl : Byte) (final : Bool) (c : BitVec 3) (src : List Byte) :
    ∃ need p, Selects t repl .pack final c src need p := by
  match src with
  | [] => exact ⟨_, _, .of_idle (fun _ => rfl) fun _ => rfl⟩
  | [a] =>
    cases final with
    | true =>
      exact ⟨_, _, .of_byte (fun _ => rfl) (Nat.le_refl 1) (Nat.le_trans (by decide) (three_le_of_cons _ _ _))
        (Nat.le_add_left 1 2)⟩
    | false => exact ⟨_, _, .of_idle (fun _ => rfl) nofun⟩
  | a :: b :: rest =>
    refine ⟨_, _, .of_byte (fun _ => rfl) (Nat.le_refl 1) (Nat.le_trans (by decide) (three_le_of_cons _ _ _)) ?_⟩
    change 1 + 0 ≤ 3 * (if c = 7#3 then 2 else 1) + 0
    split_ifs <;> decide

theorem owed_unpack (r : UnpkRegs) : owed .unpack r = if r.pend then 1 else 0 := rfl

/-- A pending septet comes first, then the input byte by byte; the byte at cursor 7 pays for the septet it leaves pending. -/
theorem unpack_selects (t : Tables) (repl : Byte) (final : Bool) (r : UnpkRegs) (src : List Byte) :
    ∃ need p, Selects t repl .unpack final r src need p := by
  obtain ⟨cur, carry, pend⟩ := r
  cases pend with
  | true => exact ⟨_, _, .of_byte (fun _ => rfl) (Nat.le_refl 1) (Nat.le_add_left 1 _) (Nat.le_refl 1)⟩
  | false =>
    match src with
    | [] => exact ⟨_, _, .of_idle (fun _ => rfl) fun _ => rfl⟩
    | b :: rest =>
      refine ⟨_, _, .of_byte (fun _ => rfl) (Nat.le_refl 1) (Nat.le_trans (by decide) (three_le_of_cons _ _ _)) ?_⟩
      rw [owed_unpack, owed_unpack]
      split_ifs <;> decide

/-- One iteration of any unit. -/
theorem unitPick_selects (t : Tables) (repl : Byte) (u : UnitId) (final : Bool) (r : UnitRegs u) (src : List Byte) :
    ∃ need p, Selects t repl u final r src need p := by
  cases u with
  | dec => exact dec_selects t repl final src
  | enc => exact enc_selects t repl final src
  | pack => exact pack_selects t repl final r src
  | unpack => exact unpack_selects t repl final r src

/-- DestinationFull says that less room is left than always lets the unit advance (R261), and than three bytes for each byte of
input and one for a septet owed. -/
theorem unitPick_full (h : unitPick t repl u final r room src = .full) :
    room < roomToAdvance u ∧ room < 3 * src.length + owed u r := by
  obtain ⟨need, p, hs⟩ := unitPick_selects t repl u final r src
  rw [hs.pick] at h
  split_ifs at h with hroom
  · exact ⟨Nat.lt_of_lt_of_le hroom hs.need_le, Nat.lt_of_lt_of_le hroom hs.need_covered⟩
  · exact absurd h hs.not_full

/-- Room decides nothing about an iteration but whether it is DestinationFull. -/
theorem unitPick_room {room' : Nat} (h : unitPick t repl u final r room src ≠ .full)
    (h' : unitPick t repl u final r room' src ≠ .full) :
    unitPick t repl u final r room src = unitPick t repl u final r room' src := by
  obtain ⟨need, p, hs⟩ := unitPick_selects t repl u final r src
  rw [hs.pick] at h h'
  rw [hs.pick, hs.pick, if_neg fun hroom => h (if_pos hroom), if_neg fun hroom => h' (if_pos hroom)]

theorem unitPick_cost (h : unitPick t repl u final r room src = .commit used out r') :
    out.length + owed u r' ≤ 3 * used + owed u r := by
  obtain ⟨need, p, hs⟩ := unitPick_selects t repl u final r src
  rw [hs.pick] at h
  split_ifs at h
  exact hs.cost _ _ _ h

/-- With FINAL a unit that selects no step has no input left (R116). -/
theorem unitPick_final_idle (h : unitPick t repl u true r room src = .idle) : src = [] := by
  obtain ⟨need, p, hs⟩ := unitPick_selects t repl u true r src
  rw [hs.pick] at h
  split_ifs at h
  exact hs.held rfl h

/-! ### Input still to come -/

/-- The first byte out of range, or the last in range, settles the result: bytes behind it do not matter (R88, R89). -/
theorem utf8Tail_append {ranges : List (Byte × Byte)} {acc : CodePoint} {n : Nat} {bs : List Byte}
    (h : utf8Tail ranges acc n bs ≠ .incomplete) (y : List Byte) :
    utf8Tail ranges acc n (bs ++ y) = utf8Tail ranges acc n bs := by
  induction ranges generalizing acc n bs with
  | nil => simp [utf8Tail]
  | cons q ranges ih =>
    cases bs with
    | nil => exact absurd rfl h
    | cons b bs =>
      by_cases hq : InRange q b
      · rw [utf8Tail_cons_of_inRange hq] at h
        rw [List.cons_append, utf8Tail_cons_of_inRange hq, utf8Tail_cons_of_inRange hq, ih h]
      · rw [List.cons_append, utf8Tail_cons_of_not_inRange hq, utf8Tail_cons_of_not_inRange hq]

theorem utf8Decode_append {bs : List Byte} (h : utf8Decode bs ≠ .incomplete) (y : List Byte) :
    utf8Decode (bs ++ y) = utf8Decode bs := by
  cases bs with
  | nil => exact absurd rfl h
  | cons b bs =>
    simp only [List.cons_append, utf8Decode] at h ⊢
    cases hb : leadRow b with
    | none => rfl
    | some row =>
      simp only [hb] at h
      exact utf8Tail_append h y

/-- A step selected without FINAL does not look at input still to come (R115). -/
theorem unitPick_append (h : unitPick t repl u false r room src = .commit used out r') (y : List Byte) :
    unitPick t repl u false r room (src ++ y) = .commit used out r' := by
  cases u with
  | dec =>
    change decPick t false () room src = _ at h
    change decPick t false () room (src ++ y) = _
    match src with
    | [] => cases h
    | _ :: _ :: _ => exact h
    | [c] =>
      by_cases hesc : c = Config.esc
      · rw [hesc, decPick_held] at h
        cases h
      · simpa [decPick, hesc] using h
  | enc =>
    change encPick t repl false () room src = _ at h
    change encPick t repl false () room (src ++ y) = _
    cases src with
    | nil => cases h
    | cons b rest =>
      have hroom : ¬ room < 2 := fun hlt => by cases (encPick_full hlt).symm.trans h
      have hdone : utf8Decode (b :: rest) ≠ .incomplete := fun hcut => by
        cases (encPick_held (Nat.not_lt.mp hroom) hcut).symm.trans h
      rw [List.cons_append, encPick, ← List.cons_append, utf8Decode_append hdone]
      exact h
  | pack =>
    match src with
    | [] => cases h
    | [_] => cases h
    | _ :: _ :: _ => exact h
  | unpack =>
    cases src with
    | nil =>
      simp only [unitPick, unpackPick] at h ⊢
      split_ifs at h ⊢ with hp hroom
      exact h
    | cons _ _ => exact h

theorem unitPick_releasesHolds (t : Tables) (repl : Byte) (u : UnitId) :
    ReleasesHolds (unitPick t repl u false) (unitPick t repl u true) := by
  cases u with
  | dec => exact decPick_releasesHolds t
  | enc => exact encPick_releasesHolds t repl
  | pack => exact packPick_releasesHolds
  | unpack => exact fun _ _ _ => .inl rfl

/-- A step that a command commits is the step the final command on the whole stream commits there: a command with FINAL has all
of the stream's rest, and one without it leaves to the hold what input to come could change (R115, R116). -/
theorem unitPick_whole {y : List Byte} (h : unitPick t repl u final r room src = .commit used out r')
    (hy : final = true → y = []) : unitPick t repl u true r room (src ++ y) = .commit used out r' := by
  cases final with
  | true => rwa [hy rfl, List.append_nil]
  | false =>
    have happ := unitPick_append h y
    rcases unitPick_releasesHolds t repl u r room (src ++ y) with hsame | ⟨hidle, -⟩
    · exact hsame.trans happ
    · cases hidle.symm.trans happ

end unit

end Sys2Proof.Machine
end

section
/-!
Streams: a command in the middle of a stream commits a part of the steps that one final command on all of the stream commits,
whatever room it is offered and however the stream is cut. From this the laws of the driver protocol (R119, R121, R242 to R245).
-/

namespace Sys2Proof.Machine

/-! ### Induction over a run -/

/-- A property of runs that holds where a run ends and passes back over a committed step holds of every run. -/
theorem runUnit_induction {σ : Type} {pick : σ → Nat → List Byte → Pick σ} (hp : PickBounded pick)
    {P : σ → Nat → List Byte → Run σ → Prop}
    (idle : ∀ r room src, pick r room src = .idle → P r room src ⟨0, [], r, .ok⟩)
    (full : ∀ r room src, pick r room src = .full → P r room src ⟨0, [], r, .destinationFull⟩)
    (refuse : ∀ r room src, pick r room src = .refuse → P r room src ⟨0, [], r, .refuse⟩)
    (commit : ∀ r room src used out r' q, pick r room src = .commit used out r' → used ≤ src.length →
      P r' (room - out.length) (src.drop used) q → P r room src (Run.after used out q))
    (r : σ) (room : Nat) (src : List Byte) : P r room src (runUnit pick r room src) := by
  induction hn : src.length + room using Nat.strong_induction_on generalizing r room src with
  | _ n ih =>
    cases h : pick r room src with
    | idle => rw [runUnit_idle h]; exact idle r room src h
    | full => rw [runUnit_full h]; exact full r room src h
    | refuse => rw [runUnit_refuse h]; exact refuse r room src h
    | commit used out r' =>
      obtain ⟨hused, hout, hpos⟩ := hp _ _ _ _ _ _ h
      rw [runUnit_after hp h]
      exact commit r room src used out r' _ h hused
        (ih _ (by rw [List.length_drop]; omega) r' (room - out.length) (src.drop used) rfl)

/-- A run that ends with OK stands where no step is selected. -/
theorem runUnit_ok_idle {σ : Type} {pick : σ → Nat → List Byte → Pick σ} (hp : PickBounded pick) (r : σ) (room : Nat)
    (src : List Byte) (hok : (runUnit pick r room src).stop = .ok) :
    ∃ room', pick (runUnit pick r room src).reg room' (src.drop (runUnit pick r room src).used) = .idle := by
  revert hok
  refine runUnit_induction hp (P := fun _ _ src q => q.stop = .ok → ∃ room', pick q.reg room' (src.drop q.used) = .idle)
    (fun r room src h _ => ⟨room, h⟩) (fun _ _ _ _ => nofun) (fun _ _ _ _ => nofun)
    (fun r room src used out r' q _ _ ih hok => ?_) r room src
  simpa [List.drop_drop] using ih hok

/-! ### One run in front of another -/

/-- The run that commits the steps of `q` and goes on as `p`. -/
def Run.before {σ : Type} (q p : Run σ) : Run σ := ⟨q.used + p.used, q.outs ++ p.outs, p.reg, p.stop⟩

section before
variable {σ : Type} (used : Nat) (out : List Byte) (r : σ) (stop : Stop) (q p : Run σ)

theorem Run.nil_before : Run.before ⟨0, [], r, stop⟩ p = p := by simp [Run.before]

theorem Run.after_before : (Run.after used out q).before p = Run.after used out (q.before p) := by
  simp [Run.before, Run.after, Nat.add_assoc]

@[simp] theorem Run.before_out : (q.before p).out = q.out ++ p.out := by simp [Run.before, Run.out]
@[simp] theorem Run.before_stop : (q.before p).stop = p.stop := rfl
end before

/-! ### Room that no unit can use up -/

/-- Three bytes of room for each byte of input and one for a septet owed. -/
def Ample (u : UnitId) (r : UnitRegs u) (src : List Byte) (room : Nat) : Prop := 3 * src.length + owed u r ≤ room

section unit
variable {t : Tables} {repl : Byte} {u : UnitId} {final : Bool} {r r' : UnitRegs u} {room used : Nat} {src out : List Byte}

/-- The room that the stream function offers (R119). -/
theorem ample_streamRoom (u : UnitId) (r : UnitRegs u) (x : List Byte) : Ample u r x (3 * x.length + 1) :=
  Nat.add_le_add_left (owed_le_one u r) _

theorem Ample.not_full (h : Ample u r src room) : unitPick t repl u final r room src ≠ .full := fun hfull =>
  Nat.not_lt.mpr h (unitPick_full hfull).2

/-- With such room every iteration does what it does with any other room that is not too little. -/
theorem Ample.pick_eq {room' : Nat} (h : Ample u r src room) (h' : unitPick t repl u final r room' src ≠ .full) :
    unitPick t repl u final r room src = unitPick t repl u final r room' src :=
  unitPick_room h.not_full h'

/-- What a step leaves of such room is such room for the rest. -/
theorem Ample.step {room' : Nat} (h : Ample u r src room) (hused : used ≤ src.length)
    (hc : unitPick t repl u final r room' src = .commit used out r') :
    Ample u r' (src.drop used) (room - out.length) := by
  have hcost := unitPick_cost hc
  unfold Ample at h ⊢
  rw [List.length_drop]
  omega

/-- The run on a whole stream does not depend on the room, if no unit can use it up. -/
theorem Ample.run_eq {room' : Nat} (h : Ample u r src room) (h' : Ample u r src room') :
    runUnit (unitPick t repl u final) r room src = runUnit (unitPick t repl u final) r room' src := by
  refine Eq.symm (runUnit_induction (unitPick_bounded t repl u final)
    (P := fun r room' src q => Ample u r src room' → ∀ room, Ample u r src room →
      q = runUnit (unitPick t repl u final) r room src)
    (fun r room' src hp _ room h => ?_) (fun r room' src hp h' => ?_) (fun r room' src hp _ room h => ?_)
    (fun r room' src used out r' q hp hused ih h' room h => ?_) r room' src h' room h)
  · exact (runUnit_idle ((h.pick_eq (by rw [hp]; nofun)).trans hp)).symm
  · exact absurd hp h'.not_full
  · exact (runUnit_refuse ((h.pick_eq (by rw [hp]; nofun)).trans hp)).symm
  · rw [runUnit_after (unitPick_bounded t repl u final) ((h.pick_eq (by rw [hp]; nofun)).trans hp),
      ← ih (h'.step hused hp) _ (h.step hused hp)]

/-- The run of the final command on the stream `src ++ y` goes through where any command on `src` ends: it commits that
command's steps, and goes on as the final command on what that command left unconsumed (R115, R116, R245). -/
theorem Ample.run_resume (final : Bool) (r : UnitRegs u) (dcap : Nat) (src : List Byte) {y : List Byte}
    (hy : final = true → y = []) {room : Nat} (h : Ample u r (src ++ y) room) :
    let q := runUnit (unitPick t repl u final) r dcap src
    ∃ room', Ample u q.reg (src.drop q.used ++ y) room' ∧
      runUnit (unitPick t repl u true) r room (src ++ y) =
        q.before (runUnit (unitPick t repl u true) q.reg room' (src.drop q.used ++ y)) := by
  revert room
  refine runUnit_induction (unitPick_bounded t repl u final)
    (P := fun r _ src q => ∀ {room : Nat}, Ample u r (src ++ y) room →
      ∃ room', Ample u q.reg (src.drop q.used ++ y) room' ∧ runUnit (unitPick t repl u true) r room (src ++ y) =
        q.before (runUnit (unitPick t repl u true) q.reg room' (src.drop q.used ++ y)))
    (fun r _ src _ room h => ⟨room, h, (Run.nil_before _ _ _).symm⟩)
    (fun r _ src _ room h => ⟨room, h, (Run.nil_before _ _ _).symm⟩)
    (fun r _ src _ room h => ⟨room, h, (Run.nil_before _ _ _).symm⟩)
    (fun r dcap src used out r' q hp hused ih room h => ?_) r dcap src
  have hwhole := unitPick_whole hp hy
  have hdrop : (src ++ y).drop used = src.drop used ++ y := List.drop_append_of_le_length hused
  have hrest := h.step (by rw [List.length_append]; omega) hwhole
  rw [hdrop] at hrest
  obtain ⟨room', h', hrun⟩ := ih hrest
  rw [List.drop_drop] at h' hrun
  refine ⟨room', h', ?_⟩
  rw [runUnit_after (unitPick_bounded t repl u true) ((h.pick_eq (by rw [hwhole]; nofun)).trans hwhole), hdrop, hrun,
    Run.after_before]
  rfl

end unit

/-! ### What the driver gets from a command -/

/-- `a` is what the driver has after a command of unit `u` in `s` whose run was `q`. -/
structure Answer.Of (s : State) (u : UnitId) (q : Run (UnitRegs u)) (a : Answer) : Prop where
  out : a.out = q.out
  reply : a.reply = replyOf q
  regs : a.state.regsOf u = q.reg
  rom : a.state.rom = s.rom
  encRepl : a.state.encRepl = s.encRepl
  idle : a.state.AllIdle

/-- The next run of the unit goes on from the registers this one left. -/
theorem Answer.Of.unitRun {s : State} {u : UnitId} {q : Run (UnitRegs u)} {a : Answer} (h : a.Of s u q) (final : Bool)
    (dcap : Nat) (src : List Byte) :
    a.state.unitRun u final dcap src = runUnit (unitPick s.rom s.encRepl u final) q.reg dcap src := by
  rw [State.unitRun, h.rom, h.encRepl, h.regs]

/-- A return makes its unit idle and keeps the others. -/
theorem State.takeReturn_allIdle {s : State} {u : UnitId} {args : Operands} {steps : List (List Host.Cell)}
    {reply : Option Reply} (h : s.link u = .outstanding args steps reply) (ho : ∀ v, v ≠ u → s.link v = .idle) :
    (s.takeReturn u).AllIdle := by
  intro v
  rw [State.takeReturn_alone h ho]
  by_cases hv : v = u
  · subst hv
    simp
  · simp [State.setLink_link_other _ _ hv, ho v hv]

theorem State.takeReturn_regsOf (s : State) (u v : UnitId) : (s.takeReturn u).regsOf v = s.regsOf v := by
  obtain ⟨hcur, hunpk, -⟩ := s.takeReturn_keeps u
  exact State.regsOf_congr hcur hunpk v

theorem decode_encode_xformOf (u : UnitId) (final : Bool) : decode (encode (xformOf u final)) = .ok (xformOf u final, []) := by
  rw [encode_xformOf]
  exact decode_xform u final []

section command
variable {s : State} {u : UnitId} {final : Bool} {dcap : Nat} {src : List Byte}

/-- The operation that a command of the driver is. -/
theorem exec_sendState (s : State) (u : UnitId) (final : Bool) (src : List Byte) (dcap : Nat) :
    exec (xformOf u final) (s.sendState (xformOf u final).unit src dcap) =
      (s.sendState (xformOf u final).unit src dcap).xform (xformOf u final).unit (unitPick s.rom s.encRepl u final)
        (s.regsOf u) (State.putRegsOf u) := by
  rw [xformOf_unit]
  exact exec_xformOf _ u final

theorem State.send_refuse (hidle : s.AllIdle) (h : (s.unitRun u final dcap src).stop = .refuse) :
    s.send (xformOf u final) src dcap = none :=
  State.send_refused hidle (decode_encode_xformOf u final) (exec_sendState s u final src dcap) h

theorem State.send_of (hidle : s.AllIdle) (h : (s.unitRun u final dcap src).stop ≠ .refuse) :
    ∃ a, s.send (xformOf u final) src dcap = some a ∧ a.Of s u (s.unitRun u final dcap src) := by
  have hsend := State.send_eq (unitPick_bounded s.rom s.encRepl u final) (putKeeps_putRegsOf u) hidle
    (decode_encode_xformOf u final) (exec_sendState s u final src dcap) h
  rw [xformOf_unit] at hsend
  obtain ⟨-, hlinks, -, -, -, hrom⟩ := putKeeps_putRegsOf u (s.sendState u src dcap) (s.unitRun u final dcap src).reg
  have hkeeps := State.takeReturn_keeps
    (((s.sendState u src dcap).afterXform u (State.putRegsOf u) (s.unitRun u final dcap src)).setHost []) u
  obtain ⟨-, -, hrepl, hrom', -⟩ := hkeeps
  refine ⟨_, hsend, rfl, rfl, ?_, hrom'.trans hrom, hrepl.trans (State.putRegsOf_encRepl _ u _), ?_⟩
  · rw [State.takeReturn_regsOf]
    exact State.regsOf_putRegsOf _ u _
  · refine State.takeReturn_allIdle (State.endCommand_link_same _ u _ _ _) fun v hv => ?_
    rw [State.setHost_link, State.afterXform, State.endCommand_link_other _ _ _ _ hv]
    exact (congrArg (Links.get · v) hlinks).trans (hidle v)

/-- A command that answers the driver did not meet input without a meaning, and answers with its run. -/
theorem State.of_send {a : Answer} (hidle : s.AllIdle) (h : s.send (xformOf u final) src dcap = some a) :
    (s.unitRun u final dcap src).stop ≠ .refuse ∧ a.Of s u (s.unitRun u final dcap src) := by
  by_cases hrefuse : (s.unitRun u final dcap src).stop = .refuse
  · cases (State.send_refuse hidle hrefuse).symm.trans h
  · obtain ⟨a', ha', hof⟩ := State.send_of hidle hrefuse
    cases ha'.symm.trans h
    exact ⟨hrefuse, hof⟩

end command

/-! ### The stream function (R119) -/

/-- The output of a run, if it met no input without a meaning. -/
def Run.result {σ : Type} (q : Run σ) : Option (List Byte) := if q.stop = .refuse then none else some q.out

theorem Run.before_result {σ : Type} (q p : Run σ) : (q.before p).result = p.result.map (q.out ++ ·) := by
  unfold Run.result
  rw [Run.before_stop, Run.before_out]
  split_ifs <;> rfl

theorem State.streamOut_eq {s : State} (hidle : s.AllIdle) (u : UnitId) (x : List Byte) :
    s.streamOut u x = (s.unitRun u true (3 * x.length + 1) x).result := by
  unfold State.streamOut Run.result
  split_ifs with hrefuse
  · rw [State.send_refuse hidle hrefuse]
    rfl
  · obtain ⟨a, ha, hof⟩ := State.send_of hidle hrefuse
    rw [ha]
    exact congrArg some hof.out

/-- Any room that the unit cannot use up gives the stream function. -/
theorem State.streamOut_of_ample {s : State} (hidle : s.AllIdle) {u : UnitId} {x : List Byte} {room : Nat}
    (h : Ample u (s.regsOf u) x room) : s.streamOut u x = (s.unitRun u true room x).result := by
  rw [State.streamOut_eq hidle, State.unitRun, State.unitRun, (ample_streamRoom u _ x).run_eq h]

/-- After a command the stream goes on where it stopped: the stream function on the whole is the command's output followed by
the stream function on what it left and on what is still to come (R245). -/
theorem State.streamOut_after_send {s : State} {u : UnitId} {final : Bool} {src y : List Byte} {dcap : Nat} {a : Answer}
    (hidle : s.AllIdle) (h : s.send (xformOf u final) src dcap = some a) (hy : final = true → y = []) :
    s.streamOut u (src ++ y) = (a.state.streamOut u (resumeInput src a.reply.nsrc [] ++ y)).map (a.out ++ ·) := by
  obtain ⟨-, hof⟩ := State.of_send hidle h
  obtain ⟨room, hroom, hrun⟩ := (ample_streamRoom u (s.regsOf u) (src ++ y)).run_resume (t := s.rom) (repl := s.encRepl)
    final (s.regsOf u) dcap src hy
  have hrest : resumeInput src a.reply.nsrc [] = src.drop (s.unitRun u final dcap src).used := by
    rw [resumeInput, List.append_nil, hof.reply]
    rfl
  rw [State.streamOut_eq hidle, State.unitRun, hrun, Run.before_result, hof.out, hrest,
    State.streamOut_of_ample hof.idle (by rw [hof.regs]; exact hroom), hof.unitRun]
  rfl

/-- After a command with FINAL that returns OK the stream is at its end: no input is left, and no output is to come (R12). -/
theorem State.stream_ended {s : State} {u : UnitId} {src : List Byte} {dcap : Nat} {a : Answer} (hidle : s.AllIdle)
    (h : s.send (xformOf u true) src dcap = some a) (hok : a.reply.status = .ok) :
    resumeInput src a.reply.nsrc [] = [] ∧ a.state.streamOut u [] = some [] := by
  obtain ⟨-, hof⟩ := State.of_send hidle h
  have hstop : (s.unitRun u true dcap src).stop = .ok := by
    by_contra hne
    rw [hof.reply, replyOf, if_neg hne] at hok
    cases hok
  obtain ⟨room, hpick⟩ := runUnit_ok_idle (unitPick_bounded s.rom s.encRepl u true) _ _ _ hstop
  have hnil := unitPick_final_idle hpick
  rw [hnil] at hpick
  refine ⟨?_, ?_⟩
  · rw [resumeInput, List.append_nil, hof.reply]
    exact hnil
  · have hroom := ample_streamRoom u (s.unitRun u true dcap src).reg []
    have hend := hroom.pick_eq (t := s.rom) (repl := s.encRepl) (final := true) (room' := room)
      fun hfull => by cases hpick.symm.trans hfull
    rw [State.streamOut_eq hof.idle, hof.unitRun, runUnit_idle (hend.trans hpick)]
    rfl

/-- Settles O55: what is left of the stream is the stream still to come. -/
theorem restContinuesTheStream : Obligations.RestContinuesTheStream := by
  intro s u final x w dcap a hidle hsend hstream
  have hafter := State.streamOut_after_send hidle hsend (y := []) fun _ => rfl
  rw [List.append_nil, List.append_nil, hstream] at hafter
  obtain ⟨v, hv, hw⟩ := Option.map_eq_some_iff.mp hafter.symm
  exact ⟨v, hv, hw.symm⟩

/-! ### The driver protocol (R121) -/

section turn
variable {s : State} {u : UnitId} {pending : List Byte} {t : Turn} {ts : List Turn} {d : Driven}

/-- The driver goes on after a turn whose command answered with the turns after it. -/
theorem State.drive_cons_of_send {a : Answer} (h : s.send (xformOf u t.final) (pending ++ t.new) t.dcap = some a) :
    s.drive u pending (t :: ts) = (a.state.drive u (resumeInput (pending ++ t.new) a.reply.nsrc []) ts).map
      fun d => ⟨d.state, a.out ++ d.out, d.rest, a.reply :: d.replies⟩ := by
  rw [State.drive, h]
  cases hd : a.state.drive u (resumeInput (pending ++ t.new) a.reply.nsrc []) ts <;> simp only [hd, Option.map_none, Option.map_some]

theorem State.drive_cons_of_refused (h : s.send (xformOf u t.final) (pending ++ t.new) t.dcap = none) :
    s.drive u pending (t :: ts) = none := by
  rw [State.drive, h]

/-- A driver that has done its turns has done the first of them and then the others. -/
theorem State.drive_cons (h : s.drive u pending (t :: ts) = some d) :
    ∃ a d', s.send (xformOf u t.final) (pending ++ t.new) t.dcap = some a ∧
      a.state.drive u (resumeInput (pending ++ t.new) a.reply.nsrc []) ts = some d' ∧
      d = ⟨d'.state, a.out ++ d'.out, d'.rest, a.reply :: d'.replies⟩ := by
  cases ha : s.send (xformOf u t.final) (pending ++ t.new) t.dcap with
  | none => cases (State.drive_cons_of_refused ha).symm.trans h
  | some a =>
    obtain ⟨d', hd', hd⟩ := Option.map_eq_some_iff.mp ((State.drive_cons_of_send ha).symm.trans h)
    exact ⟨a, d', rfl, hd', hd.symm⟩

end turn

/-- After a turn with FINAL no input is added, and the turns after any turn are as they should be too (R121). -/
theorem turnsOk_cons {t : Turn} {ts : List Turn} (h : turnsOk (t :: ts) = true) :
    turnsOk ts = true ∧ (t.final = true → turnsInput ts = []) := by
  cases hfinal : t.final with
  | false => exact ⟨by simpa [turnsOk, hfinal] using h, nofun⟩
  | true =>
    have hall : ∀ x ∈ ts, x.final = true ∧ x.new = [] := by simpa [turnsOk, hfinal] using h
    refine ⟨?_, fun _ => List.flatMap_eq_nil_iff.mpr fun x hx => (hall x hx).2⟩
    cases ts with
    | nil => rfl
    | cons x ts =>
      have hx := (hall x List.mem_cons_self).1
      have hts : ∀ x ∈ ts, x.final = true ∧ x.new = [] := fun y hy => hall y (List.mem_cons_of_mem _ hy)
      simpa [turnsOk, hx] using hts

/-- At every point of the driver's turns: the stream function on the whole stream is what the driver has, followed by the stream
function on what is unconsumed (R243, R244). -/
theorem State.streamOut_after_drive {s : State} {u : UnitId} {pending : List Byte} {ts : List Turn} {d : Driven}
    (hidle : s.AllIdle) (hok : turnsOk ts = true) (h : s.drive u pending ts = some d) :
    s.streamOut u (pending ++ turnsInput ts) = (d.state.streamOut u d.rest).map (d.out ++ ·) := by
  induction ts generalizing s pending d with
  | nil =>
    cases h
    simp [turnsInput]
  | cons t ts ih =>
    obtain ⟨a, d', ha, hd', rfl⟩ := State.drive_cons h
    obtain ⟨hts, hfinal⟩ := turnsOk_cons hok
    have hsplit : pending ++ turnsInput (t :: ts) = (pending ++ t.new) ++ turnsInput ts := by
      simp [turnsInput]
    rw [hsplit, State.streamOut_after_send hidle ha hfinal, ih (State.of_send hidle ha).2.idle hts hd', Option.map_map]
    simp only [Function.comp_def, List.append_assoc]

/-- Each turn has its results. -/
theorem State.drive_replies_length {s : State} {u : UnitId} {pending : List Byte} {ts : List Turn} {d : Driven}
    (h : s.drive u pending ts = some d) : d.replies.length = ts.length := by
  induction ts generalizing s pending d with
  | nil => cases h; rfl
  | cons t ts ih =>
    obtain ⟨a, d', -, hd', rfl⟩ := State.drive_cons h
    rw [List.length_cons, List.length_cons, ih hd']

/-- A driver that has ended the stream is at the stream's end (R12, R121). -/
theorem State.drive_ended {s : State} {u : UnitId} {pending : List Byte} {ts : List Turn} {d : Driven} (hidle : s.AllIdle)
    (h : s.drive u pending ts = some d) (hdone : driveDone ts d = true) :
    d.rest = [] ∧ d.state.streamOut u [] = some [] := by
  induction ts generalizing s pending d with
  | nil => cases hdone
  | cons t ts ih =>
    obtain ⟨a, d', ha, hd', rfl⟩ := State.drive_cons h
    cases ts with
    | nil =>
      cases hd'
      have hlast : t.final = true ∧ a.reply.status = .ok := by simpa [driveDone] using hdone
      rw [hlast.1] at ha
      exact State.stream_ended hidle ha hlast.2
    | cons t' ts =>
      refine ih (d := d') (State.of_send hidle ha).2.idle hd' ?_
      have hlen := State.drive_replies_length hd'
      obtain ⟨reply, replies, hreplies⟩ := List.exists_cons_of_length_pos (by rw [hlen]; exact Nat.succ_pos _)
      rw [driveDone, hreplies] at hdone ⊢
      simpa only [List.getLast?_cons_cons] using hdone

/-- Settles O57: what the driver has is followed by what the unconsumed input gives. -/
theorem driverOutputIsAPrefix : Obligations.DriverOutputIsAPrefix := by
  intro s u ts d w hidle hok hdrive hstream
  have hafter := State.streamOut_after_drive hidle hok hdrive
  rw [List.nil_append, hstream] at hafter
  obtain ⟨v, -, hw⟩ := Option.map_eq_some_iff.mp hafter.symm
  exact ⟨v, hw⟩

/-- Settles O56: at the end of the stream nothing follows what the driver has. -/
theorem chunkingDoesNotChangeTheOutput : Obligations.ChunkingDoesNotChangeTheOutput := by
  intro s u ts d hidle hok hdrive hdone
  obtain ⟨hrest, hend⟩ := State.drive_ended hidle hdrive hdone
  have hafter := State.streamOut_after_drive hidle hok hdrive
  rw [List.nil_append, hrest, hend] at hafter
  exact ⟨by simpa using hafter, hrest⟩

/-! ### Room to advance (R244, R261) -/

/-- Settles O42: with that room the first iteration selects a step that fits, or none. -/
theorem enoughRoomMakesProgress : Obligations.EnoughRoomMakesProgress := by
  intro s t u final w r h hlink hroom hfull
  rw [exec_xformOf] at h
  obtain ⟨-, hstop, -, rfl⟩ := State.xform_next h
  rw [State.afterXform, State.endCommand_link_same] at hlink
  obtain ⟨-, -, hreply⟩ := Link.outstanding.inj hlink
  cases hreply
  have hp := unitPick_bounded s.rom s.encRepl u final
  cases hpick : unitPick s.rom s.encRepl u final (s.regsOf u) s.port.dcap s.srcBytes with
  | idle => simp [replyOf, runUnit_idle hpick] at hfull
  | full => exact absurd hroom (Nat.not_le.mpr (unitPick_full hpick).1)
  | refuse => simp [runUnit_refuse hpick] at hstop
  | commit used out r' =>
    have hpos := (hp _ _ _ _ _ _ hpick).2.2
    simp only [replyOf, runUnit_after hp hpick, Run.after_used, Run.after_out, List.length_append]
    omega

/-! ### RESET (R242) -/

/-- What the driver gets from a unit depends on its registers, the tables and the replacement byte only (R39). -/
theorem State.drive_congr {s s' : State} {u : UnitId} (hidle : s.AllIdle) (hidle' : s'.AllIdle) (hrom : s.rom = s'.rom)
    (hrepl : s.encRepl = s'.encRepl) (hregs : s.regsOf u = s'.regsOf u) (pending : List Byte) (ts : List Turn) :
    (s.drive u pending ts).map (fun d => (d.out, d.rest, d.replies)) =
      (s'.drive u pending ts).map (fun d => (d.out, d.rest, d.replies)) := by
  induction ts generalizing s s' pending with
  | nil => rfl
  | cons t ts ih =>
    have hrun : s.unitRun u t.final t.dcap (pending ++ t.new) = s'.unitRun u t.final t.dcap (pending ++ t.new) := by
      rw [State.unitRun, State.unitRun, hrom, hrepl, hregs]
    by_cases hrefuse : (s.unitRun u t.final t.dcap (pending ++ t.new)).stop = .refuse
    · rw [State.drive_cons_of_refused (State.send_refuse hidle hrefuse),
        State.drive_cons_of_refused (State.send_refuse hidle' (hrun ▸ hrefuse))]
    · obtain ⟨a, ha, hof⟩ := State.send_of hidle hrefuse
      obtain ⟨a', ha', hof'⟩ := State.send_of hidle' (hrun ▸ hrefuse)
      have hout : a.out = a'.out := by rw [hof.out, hof'.out, hrun]
      have hreply : a.reply = a'.reply := by rw [hof.reply, hof'.reply, hrun]
      have hrest := ih hof.idle hof'.idle (by rw [hof.rom, hof'.rom, hrom]) (by rw [hof.encRepl, hof'.encRepl, hrepl])
        (by rw [hof.regs, hof'.regs, hrun]) (resumeInput (pending ++ t.new) a.reply.nsrc [])
      have hturn := congrArg (Option.map fun x => (a.out ++ x.1, x.2.1, a.reply :: x.2.2)) hrest
      rw [State.drive_cons_of_send ha, State.drive_cons_of_send ha', ← hout, ← hreply]
      simpa only [Option.map_map, Function.comp_def] using hturn

/-- RESET on a unit that RESET has run on changes nothing. -/
theorem State.reset_reset (s : State) (u : UnitId) (args : Operands) (steps : List (List Host.Cell)) (reply : Option Reply) :
    ((((s.putRegsOf u (startRegs u)).endCommand u args steps reply).setLink u .idle).putRegsOf u (startRegs u)).endCommand
      u args steps reply = (s.putRegsOf u (startRegs u)).endCommand u args steps reply := by
  cases u <;> rfl

/-- Settles O58: RESET leaves the registers of the start of a stream, which the return keeps. -/
theorem resetUnitIsAsFresh : Obligations.ResetUnitIsAsFresh := by
  intro s s' t u hidle hidle' hrom hrepl hstart hexec
  rw [exec_resetOf] at hexec
  obtain ⟨-, rfl⟩ := State.control_next hexec
  have hkeeps := putKeeps_putRegsOf u s (startRegs u)
  obtain ⟨-, hlinks, -, -, -, hput⟩ := hkeeps
  have hreturn := State.takeReturn_keeps ((s.putRegsOf u (startRegs u)).endCommand u Operands.none [] none) u
  obtain ⟨-, -, hrepl', hrom', -⟩ := hreturn
  refine ⟨State.drive_congr (State.takeReturn_allIdle (State.endCommand_link_same _ u _ _ _) fun v hv => ?_) hidle'
    ((hrom'.trans hput).trans hrom) ((hrepl'.trans (State.putRegsOf_encRepl s u _)).trans hrepl) ?_, ?_⟩
  · rw [State.endCommand_link_other _ _ _ _ hv]
    exact (congrArg (Links.get · v) hlinks).trans (hidle v)
  · rw [State.takeReturn_regsOf, State.regsOf_of_atStart hstart]
    exact State.regsOf_putRegsOf s u _
  · rw [exec_resetOf, State.control_idle (State.setLink_link_same _ u .idle), State.reset_reset]

end Sys2Proof.Machine
end

section
/-!
The round trips: septets through packer and unpacker (R240), text through encoder and decoder (R241), and text through all four
units (R246).
-/

namespace Sys2Proof.Machine

/-! ### Septets through packer and unpacker (R240) -/

/-- Octets that are the bit stream of the septets `x`, eight bits each, have the bit stream of `x`. -/
theorem octetStreamBit_of_readsBits {x w : List Byte} (h : ReadsBits 8 (septetStreamBit x) w) {n : Nat}
    (hn : n < 8 * w.length) : octetStreamBit w n = septetStreamBit x n := by
  rw [octetStreamBit, h (n / 8) (n % 8) (by omega) (Nat.mod_lt _ (by decide)), Nat.div_add_mod]

/-- Bit `i` of septet `j` (R55). -/
theorem septetStreamBit_septet (x : List Byte) {j i : Nat} (hi : i < 7) :
    septetStreamBit x (7 * j + i) = (x.getD j 0#8).getLsbD i := by
  rw [septetStreamBit, Nat.mul_add_div (by decide), Nat.div_eq_of_lt hi, Nat.add_zero, Nat.mul_add_mod, Nat.mod_eq_of_lt hi]

/-- A byte below 0x80 is the septet whose bits it has. -/
theorem eq_septetOf {b c : Byte} (hlow : b.toNat < 0x80) (h : ∀ i < 7, b.getLsbD i = c.getLsbD i) : b = septetOf c := by
  refine BitVec.eq_of_getLsbD_eq fun i hi => ?_
  rw [septetOf_getLsbD]
  by_cases h7 : i < 7
  · simp [h i h7, h7]
  · have hbit : b.getLsbD 7 = false := by
      rw [← Bool.not_eq_true, getLsbD_seven_iff]
      omega
    rw [show i = 7 by omega, hbit]
    simp

/-- Loose bytes that hold the bit stream of the septets `x` are these septets, and zeros behind them. -/
theorem eq_septets_of_readsBits {x out : List Byte} {k : Nat} (hlen : out.length = x.length + k)
    (hlow : ∀ j, j < out.length → (out.getD j 0#8).toNat < 0x80)
    (hbits : ReadsBits 7 (septetStreamBit x) out) : out = x.map septetOf ++ List.replicate k 0#8 := by
  refine List.ext_getElem (by simp [hlen]) fun j hj hj' => ?_
  have hseptet := eq_septetOf (c := x.getD j 0#8) (hlow j hj)
    fun i hi => (hbits j i hj hi).trans (septetStreamBit_septet x hi)
  rw [List.getD_eq_getElem _ _ hj] at hseptet
  rw [hseptet]
  by_cases hx : j < x.length
  · rw [List.getElem_append_left (by simpa using hx), List.getElem_map, List.getD_eq_getElem _ _ hx]
  · rw [List.getElem_append_right (by simpa using hx), List.getElem_replicate, List.getD_eq_default _ _ (by omega)]
    rfl

/-- Settles O54: the unpacker's septets have the bits of the packer's octets, and those the bits of the stream; in its last octet
there is room for one septet more than the stream has exactly at length 7 modulo 8. -/
theorem packUnpackRoundTrip : Obligations.PackUnpackRoundTrip := by
  intro s x hidle hpack hunpack
  obtain ⟨w, hw, hwlen, hwbits⟩ := packedStreamIsTheBitStream s x hidle hpack
  obtain ⟨a, ha, -, -, halen, habits, halow, -⟩ := unpackedStreamIsTheBitStream s true w hidle hunpack
  have hstream : s.streamOut .unpack w = some a.out := congrArg (Option.map Answer.out) ha
  have hbits : ReadsBits 7 (septetStreamBit x) a.out := fun j i hj hi =>
    (habits j i hj hi).trans (octetStreamBit_of_readsBits hwbits (by omega))
  refine ⟨w, hw, hstream.trans (congrArg some ?_)⟩
  by_cases h7 : x.length % 8 = 7
  · rw [if_pos h7]
    exact eq_septets_of_readsBits (k := 1) (by omega) halow hbits
  · rw [if_neg h7]
    exact eq_septets_of_readsBits (k := 0) (by omega) halow hbits

/-! ### Input that a unit takes piece by piece -/

/-- The run's result is the step's output and then that of the rest. -/
theorem Run.after_result {σ : Type} (used : Nat) (out : List Byte) (q : Run σ) :
    (Run.after used out q).result = q.result.map (out ++ ·) := by
  unfold Run.result
  rw [Run.after_stop, Run.after_out]
  split_ifs <;> rfl

/-- The unit translates the bytes `code` into the bytes `text` in one step, whatever follows them. -/
def Translates (t : Tables) (repl : Byte) (u : UnitId) (r : UnitRegs u) (code text : List Byte) : Prop :=
  ∀ room rest, Ample u r (code ++ rest) room →
    unitPick t repl u true r room (code ++ rest) = .commit code.length text r

section pieces
variable {t : Tables} {repl : Byte} {u : UnitId} {r : UnitRegs u}

/-- Pieces that the unit translates one by one are translated one after the other. -/
theorem Translates.run {pieces : List (List Byte × List Byte)} {room : Nat}
    (h : ∀ p ∈ pieces, Translates t repl u r p.1 p.2)
    (hend : ∀ room, unitPick t repl u true r room [] = .idle) (hroom : Ample u r (pieces.flatMap Prod.fst) room) :
    (runUnit (unitPick t repl u true) r room (pieces.flatMap Prod.fst)).result = some (pieces.flatMap Prod.snd) := by
  induction pieces generalizing room with
  | nil =>
    rw [List.flatMap_nil, runUnit_idle (hend room)]
    rfl
  | cons p pieces ih =>
    obtain ⟨hp, hpieces⟩ := List.forall_mem_cons.mp h
    rw [List.flatMap_cons] at hroom ⊢
    have hpick := hp room _ hroom
    have hrest := hroom.step (by simp) hpick
    rw [List.drop_left] at hrest
    rw [runUnit_after (unitPick_bounded t repl u true) hpick, Run.after_result, List.drop_left, ih hpieces hrest]
    rfl

end pieces

/-- The stream function on a stream of such pieces (R119). -/
theorem State.streamOut_of_translates {s : State} {u : UnitId} (hidle : s.AllIdle) {pieces : List (List Byte × List Byte)}
    (h : ∀ p ∈ pieces, Translates s.rom s.encRepl u (s.regsOf u) p.1 p.2)
    (hend : ∀ room, unitPick s.rom s.encRepl u true (s.regsOf u) room [] = .idle) :
    s.streamOut u (pieces.flatMap Prod.fst) = some (pieces.flatMap Prod.snd) := by
  rw [State.streamOut_eq hidle]
  exact Translates.run h hend (ample_streamRoom u _ _)

/-! ### Text through encoder and decoder (R241) -/

section tables
variable {t : Tables} {repl : Byte} {cp : CodePoint}

/-- The encoder takes a well-formed sequence whole (R162). -/
theorem translates_utf8Bytes (t : Tables) (repl : Byte) (h : scalarValue cp = true) :
    Translates t repl .enc () (utf8Bytes cp) (encodeUnit t repl cp) := by
  intro room rest hroom
  have hvalid : utf8Decode (utf8Bytes cp ++ rest) = .valid cp (utf8Bytes cp).length :=
    utf8Decode_valid_iff.mpr ⟨_, utf8Seq_utf8Bytes h, rfl, List.prefix_append _ _⟩
  have hsize := utf8Decode_size hvalid
  refine encPick_valid ?_ hvalid
  change 3 * (utf8Bytes cp ++ rest).length + 0 ≤ room at hroom
  omega

/-- A decoder step that some bytes select, whatever follows them, translates them into its entry. -/
theorem translates_entry {code : List Byte} {e : DecodeEntry}
    (h : ∀ room rest, decPick t true () room (code ++ rest) = emitEntry e code.length room) :
    Translates t repl .dec () code (entryBytes e) := by
  intro room rest hroom
  have hfit : ¬ room < (entryBytes e).length := fun hlt =>
    hroom.not_full (t := t) (repl := repl) (final := true) ((h room rest).trans (emitEntry_full _ hlt))
  exact (h room rest).trans (emitEntry_fits _ (Nat.not_lt.mp hfit))

theorem translates_base {c : Byte} (hesc : c ≠ Config.esc) (hlow : c.toNat < 0x80) :
    Translates t repl .dec () [c] (entryBytes (baseDecAt t (c.setWidth 7))) :=
  translates_entry fun _ _ => decPick_base hesc hlow

theorem translates_escape {b : Byte} {e : DecodeEntry} (h : escDecAt t b = some e) :
    Translates t repl .dec () [Config.esc, b] (entryBytes e) :=
  translates_entry fun _ _ => decPick_hit h

/-- What the encoder makes of a code point that the round trip covers: a base code, or the escape code and an extension code;
the decoder's entry for it is the code point's encoding (R241). -/
theorem encodeUnit_roundTrips (hasc : t.ascending) (hcons : t.Consistent) (h : t.RoundTrips cp) :
    (∃ c, encodeUnit t repl cp = [c] ∧ c ≠ Config.esc ∧ c.toNat < 0x80 ∧
      entryBytes (baseDecAt t (c.setWidth 7)) = utf8Bytes cp) ∨
    ∃ x ∈ t.extTab, encodeUnit t repl cp = [Config.esc, x.gsm] ∧
      ∃ e, escDecAt t x.gsm = some e ∧ entryBytes e = utf8Bytes cp := by
  rcases h with ⟨p, hp, rfl, hesc⟩ | ⟨⟨y, hy, hycp⟩, hmiss⟩
  · obtain ⟨k, hk⟩ := List.mem_iff_getElem?.mp hp
    obtain ⟨hlow, hentry⟩ := hcons.base p hp hesc
    refine .inl ⟨p.gsm, ?_, hesc, hlow, hentry⟩
    rw [encodeUnit_table ((binSearch_eq_some_iff hasc).mpr ⟨p, hk, rfl⟩) hk, if_neg hesc]
  · have hsearch : binSearch t.encTab cp = none := by
      refine Option.eq_none_iff_forall_ne_some.mpr fun k hk => ?_
      obtain ⟨p, hp, hpcp⟩ := (binSearch_eq_some_iff hasc).mp hk
      exact hmiss p (List.mem_of_getElem? hp) hpcp
    obtain ⟨x, hx⟩ : ∃ x, t.extTab.find? (fun z => z.cp == cp) = some x :=
      Option.isSome_iff_exists.mp (List.find?_isSome.mpr ⟨y, hy, beq_iff_eq.mpr hycp⟩)
    obtain rfl : x.cp = cp := by simpa using List.find?_some hx
    obtain ⟨hesc, hentry⟩ := hcons.ext x hx hmiss
    refine .inr ⟨x, List.mem_of_find?_eq_some hx, ?_, hentry⟩
    rw [encodeUnit_extension hsearch hx, hesc]

/-- The decoder translates it back. -/
theorem translates_encodeUnit (hasc : t.ascending) (hcons : t.Consistent) (h : t.RoundTrips cp) :
    Translates t repl .dec () (encodeUnit t repl cp) (utf8Bytes cp) := by
  rcases encodeUnit_roundTrips (repl := repl) hasc hcons h with
    ⟨c, hcode, hesc, hlow, hentry⟩ | ⟨x, -, hcode, e, he, hentry⟩
  · rw [hcode, ← hentry]
    exact translates_base hesc hlow
  · rw [hcode, ← hentry]
    exact translates_escape he

/-- With septets as extension codes it consists of septets (R246). -/
theorem encodeUnit_septets (hasc : t.ascending) (hcons : t.Consistent) (hext : ∀ x ∈ t.extTab, x.gsm.toNat < 0x80)
    (h : t.RoundTrips cp) : ∀ b ∈ encodeUnit t repl cp, b.toNat < 0x80 := by
  rcases encodeUnit_roundTrips (repl := repl) hasc hcons h with ⟨c, hcode, -, hlow, -⟩ | ⟨x, hx, hcode, -⟩
  · rw [hcode]
    exact List.forall_mem_singleton.mpr hlow
  · rw [hcode]
    exact List.forall_mem_cons.mpr ⟨by decide, List.forall_mem_singleton.mpr (hext x hx)⟩

end tables

/-- The encoder's output on a text is that on its code points, one after the other (R87). -/
theorem State.streamOut_enc {s : State} (hidle : s.AllIdle) {cps : List CodePoint} (h : ∀ cp ∈ cps, scalarValue cp = true) :
    s.streamOut .enc (cps.flatMap utf8Bytes) = some (cps.flatMap (encodeUnit s.rom s.encRepl)) := by
  have hstream := State.streamOut_of_translates (u := .enc) hidle
    (pieces := cps.map fun cp => (utf8Bytes cp, encodeUnit s.rom s.encRepl cp))
    (List.forall_mem_map.mpr fun cp hcp => translates_utf8Bytes s.rom s.encRepl (h cp hcp)) fun _ => rfl
  simpa only [List.flatMap_map] using hstream

/-- The decoder's output on an encoded text, and on further pieces that it translates. -/
theorem State.streamOut_dec {s : State} (hidle : s.AllIdle) (hasc : s.rom.ascending) (hcons : s.rom.Consistent)
    {cps : List CodePoint} (h : ∀ cp ∈ cps, s.rom.RoundTrips cp) {more : List (List Byte × List Byte)}
    (hmore : ∀ p ∈ more, Translates s.rom s.encRepl .dec () p.1 p.2) :
    s.streamOut .dec (cps.flatMap (encodeUnit s.rom s.encRepl) ++ more.flatMap Prod.fst) =
      some (cps.flatMap utf8Bytes ++ more.flatMap Prod.snd) := by
  have hcps : ∀ p ∈ cps.map fun cp => (encodeUnit s.rom s.encRepl cp, utf8Bytes cp),
      Translates s.rom s.encRepl .dec () p.1 p.2 :=
    List.forall_mem_map.mpr fun cp hcp => translates_encodeUnit hasc hcons (h cp hcp)
  have hstream := State.streamOut_of_translates (u := .dec) hidle (List.forall_mem_append.mpr ⟨hcps, hmore⟩) fun _ => rfl
  simpa only [List.flatMap_append, List.flatMap_map] using hstream

/-- Settles O59: each code point's encoding becomes codes that the decoder translates back. -/
theorem encodeDecodeRoundTrip : Obligations.EncodeDecodeRoundTrip := by
  intro s cps hidle hasc hcons hcps
  have hdec := State.streamOut_dec hidle hasc hcons (fun cp hcp => (hcps cp hcp).2) (more := []) nofun
  simp only [List.flatMap_nil, List.append_nil] at hdec
  exact ⟨_, State.streamOut_enc hidle fun cp hcp => (hcps cp hcp).1, hdec⟩

/-! ### Text through all four units (R246) -/

theorem septetOf_of_lt {b : Byte} (h : b.toNat < 0x80) : septetOf b = b := (eq_septetOf h fun _ _ => rfl).symm

/-- Settles O60: the septets come back from packer and unpacker, and a septet of value 0 decodes to the character of code 0. -/
theorem wholePipelineRoundTrip : Obligations.WholePipelineRoundTrip := by
  intro s cps hidle hpack hunpack hasc hcons hext hcps
  have hrt : ∀ cp ∈ cps, s.rom.RoundTrips cp := fun cp hcp => (hcps cp hcp).2
  have henc := State.streamOut_enc hidle fun cp hcp => (hcps cp hcp).1
  obtain ⟨w, hw, hh⟩ := packUnpackRoundTrip s (cps.flatMap (encodeUnit s.rom s.encRepl)) hidle hpack hunpack
  refine ⟨_, w, _, henc, hw, hh, ?_⟩
  have hseptets : (cps.flatMap (encodeUnit s.rom s.encRepl)).map (fun b => b &&& 0x7F#8) =
      cps.flatMap (encodeUnit s.rom s.encRepl) := by
    refine (List.map_congr_left fun b hb => ?_).trans (List.map_id _)
    obtain ⟨cp, hcp, hb⟩ := List.mem_flatMap.mp hb
    exact septetOf_of_lt (encodeUnit_septets hasc hcons hext (hrt cp hcp) b hb)
  rw [hseptets]
  split_ifs
  · have hdec := State.streamOut_dec hidle hasc hcons hrt (more := [([0#8], entryBytes s.rom.baseDec[0])])
      (List.forall_mem_singleton.mpr (translates_base (by decide) (by decide)))
    simpa only [List.flatMap_singleton] using hdec
  · exact State.streamOut_dec hidle hasc hcons hrt (more := []) nofun

end Sys2Proof.Machine
end
